-- ==== Sys2Proof/Word.lean ====
section
/-! DEFINITION. The two bit-vector types of the block: the 32-bit word (an operand word of a
descriptor, a register) and the 8-bit byte (one arena offset). -/

namespace Sys2Proof

/-- A 32-bit word: a descriptor word (R90) or a register (R24). -/
abbrev Word := BitVec 32

/-- One byte of the arena (R33, R60). -/
abbrev Byte := BitVec 8

end Sys2Proof
end

