-- ==== Sys2Proof/Machine/Numbers.lean ====
section
/-! DEFINITION. Number functions of 00_scope.md R12 and R13, and the byte order of
20_memory.md R64, as functions on natural numbers that the kernel can evaluate. -/

namespace Sys2Proof

/-- `bitlength(a)` (R12): the least `k` with `a < 2^k`. -/
def bitlength (a : Nat) : Nat := if a = 0 then 0 else Nat.log2 a + 1

/-- `ceil(a / b)` (R12). -/
def ceilDiv (a b : Nat) : Nat := (a + b - 1) / b

/-- Trailing zero bits of `a`, looking at `fuel` bits at most. -/
def tzUpTo : (fuel : Nat) → (a : Nat) → Nat
  | 0, _ => 0
  | fuel + 1, a => if a % 2 = 0 then tzUpTo fuel (a / 2) + 1 else 0

/-- `tz(a)` (R12): the number of trailing zero bits of `a > 0`. -/
def tz (a : Nat) : Nat := tzUpTo (bitlength a) a

/-- The square-and-multiply loop behind `powMod`: bits `n-1 .. 0` of `e`, most significant first. -/
def powModBits (b e m : Nat) : (n : Nat) → (acc : Nat) → Nat
  | 0, acc => acc
  | n + 1, acc =>
    powModBits b e m n (if e.testBit n then acc * acc % m * b % m else acc * acc % m)

/-- `b^e mod m`. Written as square and multiply so that a large `e` can be evaluated. -/
def powMod (b e m : Nat) : Nat := powModBits b e m (bitlength e) (1 % m)

/-- Newton steps for the inverse of `m` modulo a power of two: each step doubles the number of
correct low bits. -/
def invPow2Steps (m K : Nat) : (steps : Nat) → (y : Nat) → Nat
  | 0, y => y
  | steps + 1, y => invPow2Steps m K steps (y * (2 ^ K + 2 - m * y % 2 ^ K) % 2 ^ K)

/-- `m^-1 mod 2^K` for an odd `m` (R150, R151). -/
def invPow2 (m K : Nat) : Nat := invPow2Steps m K (bitlength K) (1 % 2 ^ K)

/-- The `k` bytes of `v`, least significant first (R64). -/
def bytesOf : (k v : Nat) → List Byte
  | 0, _ => []
  | k + 1, v => BitVec.ofNat 8 v :: bytesOf k (v / 256)

/-- The little-endian number a list of bytes stands for (R64). -/
def leNat : List Byte → Nat
  | [] => 0
  | b :: bs => b.toNat + 256 * leNat bs

/-- `limbs(v)` (R13): the `n` limbs of `v`, `w` bits each, least significant first. -/
def limbsOf (w : Nat) : (n v : Nat) → List Nat
  | 0, _ => []
  | n + 1, v => v % 2 ^ w :: limbsOf w n (v / 2 ^ w)

/-- `val(L)` (R13): the number a limb array stands for. -/
def limbsVal (w : Nat) : List Nat → Nat
  | [] => 0
  | x :: xs => x + 2 ^ w * limbsVal w xs

/-- `twos_N(s)` (R12): the `N`-bit two's-complement pattern of a signed integer, `s mod 2^N`. -/
def twos (N : Nat) (s : Int) : Nat := (s % (2 ^ N : Nat)).toNat

/-- `sext_N(v)` (R12): an `N`-bit pattern read as a two's-complement signed integer. -/
def sext (N v : Nat) : Int := if v < 2 ^ (N - 1) then (v : Int) else (v : Int) - (2 ^ N : Nat)

end Sys2Proof
end

