-- ==== Sys2Proof/Syntax.lean ====
section
/-! DEFINITION. The commands of MONTCORE-1 (30_encoding.md R94, R96): one constructor per row of
the opcode table, its operands in the order A, B, ... of R94; and the 192-bit descriptor (R90). -/

namespace Sys2Proof

/-- The context a command's `ctx` bit selects (R92): F is the base field modulo `p`, S the scalar
field modulo `q`. -/
inductive Ctx
  | F
  | S
deriving DecidableEq, Repr

/-- A command descriptor (R90): six 32-bit words `W0 .. W5`. -/
structure Descriptor where
  w0 : Word
  w1 : Word
  w2 : Word
  w3 : Word
  w4 : Word
  w5 : Word
deriving DecidableEq, Repr

/-- The 25 commands (R94). A command that works in either context carries its `Ctx`; where R92
fixes the context, or R94 marks an operand `-`, there is no field, so every term is a command the
encoding admits. Pointers and immediates are 32-bit operand words (R93). -/
inductive Instr
  | iszero (c : Ctx) (x : Word)
  | isequal (c : Ctx) (x y : Word)
  | isgreater (c : Ctx) (x y : Word)
  | add (c : Ctx) (out x y : Word)
  | sub (c : Ctx) (out x y : Word)
  | subpos (c : Ctx) (out x y : Word)
  | reduce (c : Ctx) (x : Word)
  | copy (c : Ctx) (out x : Word)
  | mul (c : Ctx) (out x y : Word)
  | sqr (c : Ctx) (out x : Word)
  | lshift (c : Ctx) (out x k : Word)
  | inv (c : Ctx) (out x : Word)
  | makeodd (c : Ctx) (x : Word)
  | batchinv (c : Ctx) (out x m : Word)
  | sqrt (c : Ctx) (scratch out x : Word)
  | decompose (out0 out1 sc : Word)
  | decomposeNomsb (out0 out1 sc : Word)
  | decomposeGen (out0 out1 sc lam : Word)
  | addaffine (scratch out p1 p2 d : Word)
  | endo (out p : Word)
  | allocStable (c : Ctx) (k : Word)
  | allocScratch (c : Ctx) (k : Word)
  | resetScratch
  | fromPacked (c : Ctx) (elem bytes len : Word)
  | toPacked (c : Ctx) (bytes elem len : Word)
deriving DecidableEq, Repr

end Sys2Proof
end

