-- ==== Sys2Proof/Decode.lean ====
section
/-! DEFINITION. The decoder (30_encoding.md R97, R98), total on any descriptor and any bytes,
rejecting by name; and the encoder, written from R91 and R94. -/

namespace Sys2Proof

/-- Why a descriptor is no command: one name per clause of R97, and one for a byte buffer shorter
than the 24 bytes of a descriptor (R90). -/
inductive Reject
  /-- fewer than 24 bytes (R90) -/
  | truncated
  /-- R97 (a) -/
  | unassignedOpcode
  /-- R97 (b) -/
  | reservedBits
  /-- R97 (c) -/
  | wrongContext
  /-- R97 (d) -/
  | unusedOperand
deriving DecidableEq, Repr

/-- A descriptor from its 192 bits, bit 0 the least significant bit of `W0` (R90). -/
def Descriptor.ofNat (v : Nat) : Descriptor :=
  ⟨BitVec.ofNat 32 v, BitVec.ofNat 32 (v / 2 ^ 32), BitVec.ofNat 32 (v / 2 ^ 64),
    BitVec.ofNat 32 (v / 2 ^ 96), BitVec.ofNat 32 (v / 2 ^ 128), BitVec.ofNat 32 (v / 2 ^ 160)⟩

/-- The 24 bytes of a descriptor: `W0` to `W5` in order, each little-endian (R90). -/
def Descriptor.bytes (d : Descriptor) : List Byte :=
  [d.w0, d.w1, d.w2, d.w3, d.w4, d.w5].flatMap fun w => bytesOf 4 w.toNat

/-- The last checks of R97 and the command they let through: (b) the reserved bits, (c) the
context, (d) the unused operand words. -/
def finishDecode (w0 : Word) (ctxOk unusedOk : Bool) (i : Instr) : Except Reject Instr :=
  if w0.extractLsb' 9 23 ≠ 0#23 then .error .reservedBits
  else if ctxOk = false then .error .wrongContext
  else if unusedOk = false then .error .unusedOperand
  else .ok i

/-- The command a descriptor stands for (R91, R94, R97), or the first clause of R97 it breaks. -/
def decode (d : Descriptor) : Except Reject Instr :=
  let X : Ctx := if d.w0.getLsbD 8 then .S else .F
  let isS := d.w0.getLsbD 8
  let isF := !isS
  let zE := d.w5 == 0#32
  let zD := d.w4 == 0#32 && zE
  let zC := d.w3 == 0#32 && zD
  let zB := d.w2 == 0#32 && zC
  let zA := d.w1 == 0#32 && zB
  match (d.w0.extractLsb' 0 8).toNat with
  | 0x01 => finishDecode d.w0 true zB (.iszero X d.w1)
  | 0x02 => finishDecode d.w0 true zC (.isequal X d.w1 d.w2)
  | 0x03 => finishDecode d.w0 true zC (.isgreater X d.w1 d.w2)
  | 0x04 => finishDecode d.w0 true zD (.add X d.w1 d.w2 d.w3)
  | 0x05 => finishDecode d.w0 true zD (.sub X d.w1 d.w2 d.w3)
  | 0x06 => finishDecode d.w0 true zD (.subpos X d.w1 d.w2 d.w3)
  | 0x07 => finishDecode d.w0 true zB (.reduce X d.w1)
  | 0x08 => finishDecode d.w0 true zC (.copy X d.w1 d.w2)
  | 0x10 => finishDecode d.w0 true zD (.mul X d.w1 d.w2 d.w3)
  | 0x11 => finishDecode d.w0 true zC (.sqr X d.w1 d.w2)
  | 0x12 => finishDecode d.w0 true zD (.lshift X d.w1 d.w2 d.w3)
  | 0x20 => finishDecode d.w0 true zC (.inv X d.w1 d.w2)
  | 0x21 => finishDecode d.w0 true zB (.makeodd X d.w1)
  | 0x22 => finishDecode d.w0 true zD (.batchinv X d.w1 d.w2 d.w3)
  | 0x30 => finishDecode d.w0 true zD (.sqrt X d.w1 d.w2 d.w3)
  | 0x40 => finishDecode d.w0 isS zD (.decompose d.w1 d.w2 d.w3)
  | 0x41 => finishDecode d.w0 isS zD (.decomposeNomsb d.w1 d.w2 d.w3)
  | 0x42 => finishDecode d.w0 isS zE (.decomposeGen d.w1 d.w2 d.w3 d.w4)
  | 0x50 => finishDecode d.w0 isF true (.addaffine d.w1 d.w2 d.w3 d.w4 d.w5)
  | 0x51 => finishDecode d.w0 isF zC (.endo d.w1 d.w2)
  | 0x60 => finishDecode d.w0 true zB (.allocStable X d.w1)
  | 0x61 => finishDecode d.w0 true zB (.allocScratch X d.w1)
  | 0x62 => finishDecode d.w0 isF zA .resetScratch
  | 0x63 => finishDecode d.w0 true zD (.fromPacked X d.w1 d.w2 d.w3)
  | 0x64 => finishDecode d.w0 true zD (.toPacked X d.w1 d.w2 d.w3)
  | _ => .error .unassignedOpcode

/-- The first command of a byte buffer and the bytes after it (R90: 24 bytes a descriptor, each
word little-endian). -/
def decodeBytes (bs : List Byte) : Except Reject (Instr × List Byte) :=
  if bs.length < 24 then .error .truncated
  else match decode (Descriptor.ofNat (leNat (bs.take 24))) with
    | .ok i => .ok (i, bs.drop 24)
    | .error r => .error r

/-- The instruction the decoder reads from the table's numbering of an instruction's bits: the
descriptor is laid out as its 24 bytes, every bit at or above `nbits` zero. -/
def decodeTableWord (nbits w : Nat) : Option Instr :=
  match decodeBytes (bytesOf 24 (w % 2 ^ nbits)) with
  | .ok (i, _) => some i
  | .error _ => none

/-- `W0` of a command: the opcode in bits 7:0, `ctx` in bit 8, the rest zero (R91). -/
def word0 (opcode : Nat) : Ctx → Word
  | .F => BitVec.ofNat 32 opcode
  | .S => BitVec.ofNat 32 (opcode + 0x100)

/-- The descriptor of a command (R91, R94, R96): operands from A onward in the document's order,
the remaining operand words zero. -/
def encode : Instr → Descriptor
  | .iszero X x => ⟨word0 0x01 X, x, 0, 0, 0, 0⟩
  | .isequal X x y => ⟨word0 0x02 X, x, y, 0, 0, 0⟩
  | .isgreater X x y => ⟨word0 0x03 X, x, y, 0, 0, 0⟩
  | .add X out x y => ⟨word0 0x04 X, out, x, y, 0, 0⟩
  | .sub X out x y => ⟨word0 0x05 X, out, x, y, 0, 0⟩
  | .subpos X out x y => ⟨word0 0x06 X, out, x, y, 0, 0⟩
  | .reduce X x => ⟨word0 0x07 X, x, 0, 0, 0, 0⟩
  | .copy X out x => ⟨word0 0x08 X, out, x, 0, 0, 0⟩
  | .mul X out x y => ⟨word0 0x10 X, out, x, y, 0, 0⟩
  | .sqr X out x => ⟨word0 0x11 X, out, x, 0, 0, 0⟩
  | .lshift X out x k => ⟨word0 0x12 X, out, x, k, 0, 0⟩
  | .inv X out x => ⟨word0 0x20 X, out, x, 0, 0, 0⟩
  | .makeodd X x => ⟨word0 0x21 X, x, 0, 0, 0, 0⟩
  | .batchinv X out x m => ⟨word0 0x22 X, out, x, m, 0, 0⟩
  | .sqrt X scratch out x => ⟨word0 0x30 X, scratch, out, x, 0, 0⟩
  | .decompose out0 out1 sc => ⟨word0 0x40 .S, out0, out1, sc, 0, 0⟩
  | .decomposeNomsb out0 out1 sc => ⟨word0 0x41 .S, out0, out1, sc, 0, 0⟩
  | .decomposeGen out0 out1 sc lam => ⟨word0 0x42 .S, out0, out1, sc, lam, 0⟩
  | .addaffine scratch out p1 p2 d => ⟨word0 0x50 .F, scratch, out, p1, p2, d⟩
  | .endo out p => ⟨word0 0x51 .F, out, p, 0, 0, 0⟩
  | .allocStable X k => ⟨word0 0x60 X, k, 0, 0, 0, 0⟩
  | .allocScratch X k => ⟨word0 0x61 X, k, 0, 0, 0, 0⟩
  | .resetScratch => ⟨word0 0x62 .F, 0, 0, 0, 0, 0⟩
  | .fromPacked X elem bytes len => ⟨word0 0x63 X, elem, bytes, len, 0, 0⟩
  | .toPacked X bytes elem len => ⟨word0 0x64 X, bytes, elem, len, 0, 0⟩

/-- The 24 bytes of a command (R90). -/
def encodeBytes (i : Instr) : List Byte := (encode i).bytes

/-- The name of a command in the assembler's text (R94, R99). -/
def mnemonic : Instr → String
  | .iszero .. => "ISZERO"
  | .isequal .. => "ISEQUAL"
  | .isgreater .. => "ISGREATER"
  | .add .. => "ADD"
  | .sub .. => "SUB"
  | .subpos .. => "SUBPOS"
  | .reduce .. => "REDUCE"
  | .copy .. => "COPY"
  | .mul .. => "MUL"
  | .sqr .. => "SQR"
  | .lshift .. => "LSHIFT"
  | .inv .. => "INV"
  | .makeodd .. => "MAKEODD"
  | .batchinv .. => "BATCHINV"
  | .sqrt .. => "SQRT"
  | .decompose .. => "DECOMPOSE"
  | .decomposeNomsb .. => "DECOMPOSE_NOMSB"
  | .decomposeGen .. => "DECOMPOSE_GEN"
  | .addaffine .. => "ADDAFFINE"
  | .endo .. => "ENDO"
  | .allocStable .. => "ALLOC_STABLE"
  | .allocScratch .. => "ALLOC_SCRATCH"
  | .resetScratch => "RESET_SCRATCH"
  | .fromPacked .. => "FROM_PACKED"
  | .toPacked .. => "TO_PACKED"

/-- The operand words a command has, in the order A, B, ... (R94). -/
def operandWords : Instr → List Word
  | .iszero _ x | .reduce _ x | .makeodd _ x => [x]
  | .allocStable _ k | .allocScratch _ k => [k]
  | .isequal _ x y | .isgreater _ x y => [x, y]
  | .copy _ out x | .sqr _ out x | .inv _ out x | .endo out x => [out, x]
  | .add _ out x y | .sub _ out x y | .subpos _ out x y | .mul _ out x y => [out, x, y]
  | .lshift _ out x k | .batchinv _ out x k => [out, x, k]
  | .sqrt _ scratch out x => [scratch, out, x]
  | .decompose out0 out1 sc | .decomposeNomsb out0 out1 sc => [out0, out1, sc]
  | .decomposeGen out0 out1 sc lam => [out0, out1, sc, lam]
  | .addaffine scratch out p1 p2 d => [scratch, out, p1, p2, d]
  | .resetScratch => []
  | .fromPacked _ a b len | .toPacked _ a b len => [a, b, len]

/-- The context suffix of the assembler's text, left out where R92 fixes the context (R99). -/
def ctxSuffix : Instr → String
  | .decompose .. | .decomposeNomsb .. | .decomposeGen .. => ""
  | .addaffine .. | .endo .. | .resetScratch => ""
  | .iszero X .. | .isequal X .. | .isgreater X .. | .add X .. | .sub X .. | .subpos X ..
  | .reduce X .. | .copy X .. | .mul X .. | .sqr X .. | .lshift X .. | .inv X .. | .makeodd X ..
  | .batchinv X .. | .sqrt X .. | .allocStable X .. | .allocScratch X .. | .fromPacked X ..
  | .toPacked X .. => match X with
    | .F => ".F"
    | .S => ".S"

/-- A command in the assembler's text form, operands in decimal (R99). -/
def asmLine (i : Instr) : String :=
  mnemonic i ++ ctxSuffix i ++
    (if operandWords i = [] then "" else
      " " ++ ", ".intercalate ((operandWords i).map fun w => toString w.toNat))

end Sys2Proof
end

