-- ==== Sys2Proof/Config.lean ====
section
/-! DEFINITION. The parameter record of an instance (00_scope.md R7) and the model's free values.
What is computed from the record stands in `Machine/Layout.lean` and `Machine/Precomp.lean`. -/

namespace Sys2Proof

/-- The implementation parameters of an instance (R7). Which records are well formed is
`Config.wf` (R9); primality of `p` and `q` is an obligation of whoever builds the instance and
stands as a hypothesis where a statement needs it (R9, U23). -/
structure Config where
  /-- base-field modulus, context F -/
  p : Nat
  /-- limb width of context F in bits -/
  wF : Nat
  /-- scalar-field modulus, context S -/
  q : Nat
  /-- limb width of context S in bits -/
  wS : Nat
  /-- the endomorphism eigenvalue, a cube root of one modulo `q` -/
  lambda : Nat
  /-- the matching curve constant, a cube root of one modulo `p` -/
  beta : Nat
  /-- `ARENA_BYTES`, the size of the arena -/
  arenaBytes : Nat
  /-- `NMAX`, the largest limb count the datapath holds -/
  nmax : Nat
  /-- `GLV_EPS`, the slack of the half-length bound -/
  glvEps : Nat
deriving DecidableEq, Repr

/-- The byte a HOST read returns at an offset of the arena that holds no specified value (U9, U11,
U12, U13, U21: `any value`): a free value, one for each number of resets so far, each number of
times the byte became unspecified since the last one, and each offset, so that reading twice gives
the same value (20_memory.md R70). No command reads it: a command that meets an unspecified byte is
refused. DESIGN CHOICE (log 5), safe: nothing can be proved of it. -/
opaque Config.freeByte : (resets renewals offset : Nat) → Byte

/-- A byte that a host read OUT OF RANGE returns (R73, U22: `any value`): a free value, one for each
number of such reads before it and each offset. DESIGN CHOICE (log 5), safe: nothing can be proved
of it. -/
opaque Config.strayByte : (reads offset : Nat) → Byte

end Sys2Proof
end

