-- ==== Sys2Proof/Machine/Instances.lean ====
section
/-! DEFINITION. The two instances the spec gives in full (00_scope.md R10, R11). -/

namespace Sys2Proof

/-- The default instance BLS32 (R10). -/
def bls32 : Config where
  p := 0x1a0111ea397fe69a4b1ba7b6434bacd764774b84f38512bf6730d2a0f6b0f6241eabfffeb153ffffb9feffffffffaaab
  wF := 32
  q := 0x73eda753299d7d483339d80809a1d80553bda402fffe5bfeffffffff00000001
  wS := 32
  lambda := 0xac45a4010001a40200000000ffffffff
  beta := 0x1a0111ea397fe699ec02408663d4de85aa0d857d89759ad4897d29650fb85f9b409427eb4f49fffd8bfd00000000aaac
  arenaBytes := 65536
  nmax := 16
  glvEps := 1

/-- The small instance T13 (R11), checkable by hand. -/
def t13 : Config where
  p := 13
  wF := 4
  q := 19
  wS := 4
  lambda := 7
  beta := 9
  arenaBytes := 1024
  nmax := 16
  glvEps := 1

end Sys2Proof
end

