-- ==== Sys2Proof/Machine/Layout.lean ====
section
/-! DEFINITION. The values 00_scope.md R8 derives from the parameter record, per context, and
the offsets of the constant tables (10_state.md R30). -/

namespace Sys2Proof

/-- The modulus `m_X` of a context: `p` or `q` (R8). -/
def Config.modulus (c : Config) : Ctx → Nat
  | .F => c.p
  | .S => c.q

/-- The limb width `w_X` (R7). -/
def Config.limbBits (c : Config) : Ctx → Nat
  | .F => c.wF
  | .S => c.wS

/-- `bl_X`, the number of bits of the modulus (R8). -/
def Config.bl (c : Config) (X : Ctx) : Nat := bitlength (c.modulus X)

/-- `n_X = ceil((bl_X + 1) / w_X)`, the limb count (R8). -/
def Config.limbs (c : Config) (X : Ctx) : Nat := ceilDiv (c.bl X + 1) (c.limbBits X)

/-- `K_X = n_X * w_X` (R8). -/
def Config.radixBits (c : Config) (X : Ctx) : Nat := c.limbs X * c.limbBits X

/-- `R_X = 2^K_X`, the Montgomery radix (R8). -/
def Config.radix (c : Config) (X : Ctx) : Nat := 2 ^ c.radixBits X

/-- `mu_X = (-(m_X^-1)) mod 2^w_X`, the per-limb constant (R8, R150). -/
def Config.mu (c : Config) (X : Ctx) : Nat :=
  (2 ^ c.limbBits X - invPow2 (c.modulus X) (c.limbBits X)) % 2 ^ c.limbBits X

/-- `EB_X = 4 * n_X`, the bytes of one element in the arena (R8). -/
def Config.elemBytes (c : Config) (X : Ctx) : Nat := 4 * c.limbs X

/-- `PB_X = ceil(bl_X / 8)`, the bytes of the packed encoding (R8). -/
def Config.packedBytes (c : Config) (X : Ctx) : Nat := ceilDiv (c.bl X) 8

/-- `CT_F = 0` and `CT_S = 11 * EB_F`, where a context's constant table starts (R30). -/
def Config.tableStart (c : Config) : Ctx → Nat
  | .F => 0
  | .S => 11 * c.elemBytes .F

/-- `CT_END = 11 * EB_F + 11 * EB_S`, the end of the constant tables (R30). -/
def Config.tableEnd (c : Config) : Nat := 11 * c.elemBytes .F + 11 * c.elemBytes .S

/-- The offset of entry `e` of a context's constant table, `C_X(e)` (R30). -/
def Config.entryPtr (c : Config) (X : Ctx) (e : Nat) : Nat := c.tableStart X + e * c.elemBytes X

end Sys2Proof
end

