-- ==== Sys2Proof/Machine/Field.lean ====
section
/-! DEFINITION. The internal units on numbers: the modular adder/subtractor (40_field_engine.md
R133), the Montgomery multiplier as a function of numbers and its limb algorithm
(41_montgomery_multiplier.md R151, R152), `lshift` (R156), `fmul`, `fsqr` (R157) and the
exponentiation unit (R158). None touches a flag or the arena. -/

namespace Sys2Proof

/-- `mont(v) = (v * R) mod m`, the canonical Montgomery form (R14). -/
def Config.mont (c : Config) (X : Ctx) (v : Nat) : Nat := v * c.radix X % c.modulus X

/-- `canon(v)`: one conditional subtraction, for `v < 2m` (R133). -/
def Config.canon (c : Config) (X : Ctx) (v : Nat) : Nat :=
  if v ≥ c.modulus X then v - c.modulus X else v

/-- `fadd(a, b)` for canonical `a`, `b` (R133). -/
def Config.fadd (c : Config) (X : Ctx) (a b : Nat) : Nat := c.canon X (a + b)

/-- `fsub(a, b)` for canonical `a`, `b` (R133). -/
def Config.fsub (c : Config) (X : Ctx) (a b : Nat) : Nat :=
  if a ≥ b then a - b else a + c.modulus X - b

/-- The quotient digits of a Montgomery product taken together (R151):
`M = (-(x*y) * (m^-1 mod R)) mod R`. -/
def Config.quotDigits (c : Config) (X : Ctx) (x y : Nat) : Nat :=
  (c.radix X - x * y % c.radix X) * invPow2 (c.modulus X) (c.radixBits X) % c.radix X

/-- The number MUL writes (R151): `(x*y + M*m) / R`. -/
def Config.mulValue (c : Config) (X : Ctx) (x y : Nat) : Nat :=
  (x * y + c.quotDigits X x y * c.modulus X) / c.radix X

/-- `fmul(a, b)` for canonical `a`, `b` (R157). -/
def Config.fmul (c : Config) (X : Ctx) (a b : Nat) : Nat := c.canon X (c.mulValue X a b)

/-- `fsqr(a)` for a canonical `a` (R157). -/
def Config.fsqr (c : Config) (X : Ctx) (a : Nat) : Nat := c.fmul X a a

/-- `lshift(x, k)` (R156) in the closed form R318 tells a model to use: `(canon(x) * 2^k) mod m`. -/
def Config.lshiftValue (c : Config) (X : Ctx) (x k : Nat) : Nat :=
  c.canon X x * powMod 2 k (c.modulus X) % c.modulus X

/-- The loop of `power` (R158): bits `n-1 .. 0` of `e`, most significant first. -/
def Config.powerBits (c : Config) (X : Ctx) (a e : Nat) : (n : Nat) → (r : Nat) → Nat
  | 0, r => r
  | n + 1, r =>
    c.powerBits X a e n (if e.testBit n then c.fmul X (c.fsqr X r) a else c.fsqr X r)

/-- `power(a, e)` for a canonical Montgomery-form base (R158); `power(a, 0) = R1`. -/
def Config.power (c : Config) (X : Ctx) (a e : Nat) : Nat :=
  c.powerBits X a e (bitlength e) (c.mont X 1)

/-- The inner loop of the limb algorithm (R152), `j = 1 .. n-1`: the limbs of the accumulator, of
`y` and of the modulus from limb 1 on, with the carries of chain A and chain B. It returns the
shifted accumulator, its top limb the sum of the two carries. -/
def ciosInner (w xi m : Nat) : (t y p : List Nat) → (cA cB : Nat) → List Nat
  | t :: ts, y :: ys, p :: ps, cA, cB =>
    let A := t + xi * y + cA
    let B := A % 2 ^ w + m * p + cB
    B % 2 ^ w :: ciosInner w xi m ts ys ps (A / 2 ^ w) (B / 2 ^ w)
  | _, _, _, cA, cB => [cA + cB]

/-- One outer step of the limb algorithm (R152): multiply by limb `xi`, cancel the low limb with
the quotient digit, shift right by one limb. -/
def ciosStep (w mu : Nat) (y p : List Nat) (xi : Nat) : (t : List Nat) → List Nat
  | t0 :: ts =>
    let A := t0 + xi * y.headD 0
    let m := A % 2 ^ w * mu % 2 ^ w
    let B := A % 2 ^ w + m * p.headD 0
    ciosInner w xi m ts y.tail p.tail (A / 2 ^ w) (B / 2 ^ w)
  | [] => []

/-- The limb algorithm of MUL (R152) on limb arrays: the loop over the limbs of `x`. -/
def ciosLoop (w mu : Nat) (y p : List Nat) : (x t : List Nat) → List Nat
  | [], t => t
  | xi :: xs, t => ciosLoop w mu y p xs (ciosStep w mu y p xi t)

/-- The accumulator `t[0..n-1]` of the limb algorithm (R152) after `i` of its `n` outer steps, from
all zeros. -/
def Config.ciosAfter (c : Config) (X : Ctx) (x y i : Nat) : List Nat :=
  ciosLoop (c.limbBits X) (c.mu X) (limbsOf (c.limbBits X) (c.limbs X) y)
    (limbsOf (c.limbBits X) (c.limbs X) (c.modulus X))
    ((limbsOf (c.limbBits X) (c.limbs X) x).take i) (List.replicate (c.limbs X) 0)

/-- MUL by its limb algorithm (R152), as a number. R151 is normative for MUL; this is the
procedure the document describes, and a statement relates the two. -/
def Config.cios (c : Config) (X : Ctx) (x y : Nat) : Nat :=
  limbsVal (c.limbBits X) (c.ciosAfter X x y (c.limbs X))

end Sys2Proof
end

