-- ==== Sys2Proof/Machine/Precomp.lean ====
section
/-! DEFINITION. The configuration constants of an instance (10_state.md R23): the inverter's
target (42_inverter.md R172), the square-root precomputation (43_square_root.md R191), the lattice
basis and the Barrett constants (44_scalar_decomposer.md R211, R212), and the constant-table
entries (10_state.md R30). All are functions of the parameter record. -/

namespace Sys2Proof

/-- `KI = 2 * bl`, the inverter's shift target (R172). -/
def Config.invTarget (c : Config) (X : Ctx) : Nat := 2 * c.bl X

/-- `INVC = 2^(3*K - KI) mod m`, the inverter's correction constant (R172, R30 entry 5). -/
def Config.invCorrection (c : Config) (X : Ctx) : Nat :=
  powMod 2 (3 * c.radixBits X - c.invTarget X) (c.modulus X)

/-- `S` with `m - 1 = 2^S * T`, `T` odd (R191). -/
def Config.sqrtS (c : Config) (X : Ctx) : Nat := tz (c.modulus X - 1)

/-- The odd part `T` of `m - 1` (R191). -/
def Config.sqrtT (c : Config) (X : Ctx) : Nat := (c.modulus X - 1) / 2 ^ c.sqrtS X

/-- The trial of R191: the least `z` at or above the start with `z^((m-1)/2) mod m != 1`, trying
`fuel` candidates. -/
def nonResidueFrom (m : Nat) : (fuel : Nat) → (z : Nat) → Nat
  | 0, z => z
  | fuel + 1, z => if powMod z ((m - 1) / 2) m ≠ 1 then z else nonResidueFrom m fuel (z + 1)

/-- `z`, the least integer `z >= 2` with `z^((m-1)/2) mod m != 1` (R191). For an odd prime `m` one
lies below `m`, so `m` trials find it. -/
def Config.sqrtZ (c : Config) (X : Ctx) : Nat := nonResidueFrom (c.modulus X) (c.modulus X) 2

/-- `c0 = z^T mod m` (R191). -/
def Config.sqrtC0 (c : Config) (X : Ctx) : Nat :=
  powMod (c.sqrtZ X) (c.sqrtT X) (c.modulus X)

/-- A lattice basis `v1 = (a1, b1)`, `v2 = (a2, b2)`, signed (R211). -/
structure Basis where
  a1 : Int
  b1 : Int
  a2 : Int
  b2 : Int
deriving DecidableEq, Repr

/-- The choice of R211 once `r_l` and `r_(l+1)` are known: `v1 = (r_(l+1), -t_(l+1))`, and `v2` the
shorter of its two neighbours, a tie taking `A = (r_l, -t_l)`. -/
def basisAt (rl rl1 : Nat) (tl tl1 : Int) : Basis :=
  let k := rl / rl1
  let rl2 := rl - k * rl1
  let tl2 := tl - k * tl1
  if (rl : Int) * rl + tl * tl ≤ (rl2 : Int) * rl2 + tl2 * tl2 then
    ⟨rl1, -tl1, rl, -tl⟩
  else
    ⟨rl1, -tl1, rl2, -tl2⟩

/-- The extended Euclidean sequence of R211 from `(r_(i-1), r_i)` on, up to the first `r_(l+1)` with
`r_(l+1)^2 < q`; the remainders fall strictly, so `l` is then the greatest index with
`r_l^2 >= q`. -/
def basisFrom (q : Nat) : (fuel : Nat) → (r0 r1 : Nat) → (t0 t1 : Int) → Basis
  | 0, r0, r1, t0, t1 => basisAt r0 r1 t0 t1
  | fuel + 1, r0, r1, t0, t1 =>
    if r1 * r1 < q then basisAt r0 r1 t0 t1
    else basisFrom q fuel r1 (r0 % r1) t1 (t0 - (r0 / r1 : Nat) * t1)

/-- `basis(q, lam)` for `0 < lam < q` (R211). The sequence has at most `2 * bl` division steps
(R318). -/
def basis (q lam : Nat) : Basis := basisFrom q (2 * bitlength q) q lam 0 1

/-- The lattice determinant `D = a1*b2 - a2*b1` (R212). -/
def Basis.det (v : Basis) : Int := v.a1 * v.b2 - v.a2 * v.b1

/-- `e1 = sgn(b2) * sgn(D)` (R212). -/
def Basis.e1 (v : Basis) : Int := v.b2.sign * v.det.sign

/-- `e2 = sgn(-b1) * sgn(D)` (R212). -/
def Basis.e2 (v : Basis) : Int := (-v.b1).sign * v.det.sign

/-- The instance's basis, that of `(q, lambda)` (R211). -/
def Config.glvBasis (c : Config) : Basis := basis c.q c.lambda

/-- `SH = 2 * K`, the Barrett shift (R212). -/
def Config.barrettShift (c : Config) : Nat := 2 * c.radixBits .S

/-- `g1 = floor(2^SH * |b2| / q)` (R212). -/
def Config.g1 (c : Config) : Nat := 2 ^ c.barrettShift * c.glvBasis.b2.natAbs / c.q

/-- `g2 = floor(2^SH * |b1| / q)` (R212). -/
def Config.g2 (c : Config) : Nat := 2 ^ c.barrettShift * c.glvBasis.b1.natAbs / c.q

/-- `HB = ceil(bl / 2) + GLV_EPS`, the half-length bound exponent (R212). -/
def Config.halfBits (c : Config) : Nat := ceilDiv (c.bl .S) 2 + c.glvEps

/-- The stored integer of entry `e` of a context's constant table (R30): ZERO, ONE, P, R1, R2,
INVC, M2, M4, M8, SQRT_C, and BETA (context F) or LAMBDA (context S). -/
def Config.tableEntry (c : Config) (X : Ctx) : (e : Nat) → Nat
  | 0 => 0
  | 1 => 1
  | 2 => c.modulus X
  | 3 => c.mont X 1
  | 4 => c.radix X * c.radix X % c.modulus X
  | 5 => c.invCorrection X
  | 6 => c.mont X 2
  | 7 => c.mont X 4
  | 8 => c.mont X 8
  | 9 => c.mont X (c.sqrtC0 X)
  | 10 => match X with
    | .F => c.mont .F c.beta
    | .S => c.lambda
  | _ => 0

/-- `R^2 mod m`, constant-table entry R2 (R30). -/
def Config.r2 (c : Config) (X : Ctx) : Nat := c.tableEntry X 4

/-- Byte `i` of a context's constant table as reset writes it (R30, R66): byte `i mod 4` of limb
`(i mod EB) / 4` of entry `i / EB`. -/
def Config.tableByte (c : Config) (X : Ctx) (i : Nat) : Byte :=
  BitVec.ofNat 8
    (c.tableEntry X (i / c.elemBytes X) / 2 ^ (i % c.elemBytes X / 4 * c.limbBits X)
      % 2 ^ c.limbBits X / 256 ^ (i % 4))

/-- What the arena holds at an offset right after reset (R310): the constant tables below
`CT_END`, no specified value above. -/
def Config.resetByte (c : Config) (a : Nat) : Option Byte :=
  if a < c.tableStart .S then some (c.tableByte .F a)
  else if a < c.tableEnd then some (c.tableByte .S (a - c.tableStart .S))
  else none

end Sys2Proof
end

