-- ==== Sys2Proof/Machine/Memory.lean ====
section
/-! DEFINITION. The arena as a list of written bytes in one canonical form: offsets strictly
rising, and no entry equal to what an unlisted offset reads as (`Config.resetByte`: the constant
tables below `CT_END`, unspecified above; 10_state.md R30, R33). Beside it the MODEL's own record
of how often each byte became unspecified, which keeps the free values of host reads apart. -/

namespace Sys2Proof

/-- The written bytes of an arena, each with its offset. -/
abbrev Memory := List Host.Cell

/-- The written byte at an offset, if one is listed. -/
def Memory.lookup (a : Nat) : Memory → Option Byte
  | [] => none
  | (k, v) :: m => if k = a then some v else Memory.lookup a m

/-- Take an offset out of the list. -/
def Memory.erase (a : Nat) : Memory → Memory
  | [] => []
  | (k, v) :: m => if k = a then Memory.erase a m else (k, v) :: Memory.erase a m

/-- List a byte at an offset, keeping the offsets rising. -/
def Memory.insert (a : Nat) (b : Byte) : Memory → Memory
  | [] => [(a, b)]
  | (k, v) :: m =>
    if a < k then (a, b) :: (k, v) :: m
    else if a = k then (a, b) :: m
    else (k, v) :: Memory.insert a b m

/-- The byte an offset holds: a written one, or what reset left there; `none` is an unspecified
value (R33). -/
def Memory.read (c : Config) (m : Memory) (a : Nat) : Option Byte :=
  match Memory.lookup a m with
  | some b => some b
  | none => c.resetByte a

/-- Write one byte. Writing the value the offset reads as when unlisted removes its entry. -/
def Memory.write (c : Config) (m : Memory) (a : Nat) (b : Byte) : Memory :=
  if c.resetByte a = some b then Memory.erase a m else Memory.insert a b m

/-- Write consecutive bytes from an offset on. -/
def Memory.writeBytes (c : Config) : (m : Memory) → (a : Nat) → List Byte → Memory
  | m, _, [] => m
  | m, a, b :: bs => Memory.writeBytes c (Memory.write c m a b) (a + 1) bs

/-- Make `k` bytes from offset `a` on unspecified, as if never written (R33). -/
def Memory.forget (m : Memory) (a k : Nat) : Memory :=
  m.filter fun cell => !(a ≤ cell.1 && cell.1 < a + k)

/-- The canonical form: offsets strictly rising, no entry that an unlisted offset would read as. -/
def Memory.wf (c : Config) : Memory → Bool
  | [] => true
  | (k, v) :: m =>
    (c.resetByte k != some v) && m.all (fun cell => k < cell.1) && Memory.wf c m

/-- Every written byte lies in `[CT_END, ARENA_BYTES)`, where commands and the host may write
(R62, R69). -/
def Memory.inRange (c : Config) (m : Memory) : Bool :=
  m.all fun cell => c.tableEnd ≤ cell.1 && cell.1 < c.arenaBytes

/-- How often each byte became unspecified since the last reset, by offset: offsets strictly rising,
no entry for a byte that never did (log 5). -/
abbrev Renewals := List (Nat × Nat)

/-- How often the byte at an offset became unspecified. -/
def Renewals.count (a : Nat) : Renewals → Nat
  | [] => 0
  | (k, n) :: f => if k = a then n else Renewals.count a f

/-- The byte at an offset becomes unspecified once more. -/
def Renewals.bump (a : Nat) : Renewals → Renewals
  | [] => [(a, 1)]
  | (k, n) :: f =>
    if a < k then (a, 1) :: (k, n) :: f
    else if a = k then (k, n + 1) :: f
    else (k, n) :: Renewals.bump a f

/-- The `k` bytes from an offset on become unspecified once more. -/
def Renewals.bumpRange (f : Renewals) : (a k : Nat) → Renewals
  | _, 0 => f
  | a, k + 1 => Renewals.bump a (Renewals.bumpRange f (a + 1) k)

/-- The canonical form: offsets strictly rising, no count of zero. -/
def Renewals.wf : Renewals → Bool
  | [] => true
  | (k, n) :: f => n != 0 && f.all (fun e => k < e.1) && Renewals.wf f

end Sys2Proof
end

