-- ==== Sys2Proof/Machine/State.lean ====
section
/-! DEFINITION. The state of an instance (10_state.md R22, "exactly this"), the host's actions
(20_memory.md R73), the causes of a block fault (60_exceptions.md R289), the ways a step of the
model can stop, and the state after reset (70_reset_and_hazards.md R310, R311). -/

namespace Sys2Proof.Machine

/-- The seven causes of a fault of the block (R289). Taking one is a next state (R287), not a stop
of the model. -/
inductive FaultCode
  | illegalCommand
  | badLength
  | misaligned
  | outOfRange
  | writeProtect
  | allocOrder
  | arenaFull
deriving DecidableEq, Repr

/-- What the host does between two moments (R73), each action atomic and one step. -/
inductive HostAction
  /-- issue a command through the command port (R90) -/
  | issue (d : Descriptor)
  /-- reset (R310) -/
  | reset
  /-- read a register by number (R24) -/
  | readReg (number : Nat)
  /-- read `count` bytes of the arena from an offset on -/
  | readMem (offset count : Nat)
  /-- write bytes to the arena from an offset on -/
  | writeMem (offset : Nat) (bytes : List Byte)
deriving DecidableEq, Repr

/-- What the last host read returned. -/
inductive HostReply
  /-- no read yet -/
  | nothing
  /-- the 32 bits of a register read (R24) -/
  | reg (value : Word)
  /-- the bytes of an arena read, lowest offset first (R73) -/
  | bytes (data : List Byte)
deriving DecidableEq, Repr

/-- Why the model stops with a fault. The block itself never stops: its faults are next states. -/
inductive Fault
  /-- Raised by `step` where the parameter record is not well formed: such a record has no instance
  (R9, R283). Safe: no machine is claimed to exist. -/
  | noInstance
deriving DecidableEq, Repr

/-- Why a command is refused: one name per precondition of R284, whose violation is "undefined
behavior by design" and which "a model treats as `refuse`". Every one is safe: the block goes on
where the model stops, so nothing is claimed of it. -/
inductive Refusal
  /-- exec's arm of an instruction that has no meaning yet -/
  | notModelled (mnemonic : String)
  /-- any command that reads a byte with no specified value (U9); safe -/
  | unwrittenByte
  /-- any command that reads a limb slot with a bit at or above `w` set (U10); safe -/
  | malformedSlot
  /-- SUBPOS with `x < y` (U1); safe -/
  | subposBorrows
  /-- REDUCE with `x >= 4p` (U2); safe -/
  | reduceBound
  /-- MUL or SQR with `y + p > R` or `x*y >= p*R` (U3); safe -/
  | mulBound
  /-- LSHIFT with `x >= 2p` (U4); safe -/
  | lshiftBound
  /-- INV with `x >= 2p` or `x mod p = 0` (U5); safe -/
  | invOperand
  /-- MAKEODD with `x = 0` (U6); safe -/
  | makeoddZero
  /-- BATCHINV with overlapping arrays (U7); safe -/
  | batchinvOverlap
  /-- BATCHINV with an element `>= 2p` or zero modulo `p` (U7); safe -/
  | batchinvOperand
  /-- SQRT with `x >= 2p` (U8); safe -/
  | sqrtBound
  /-- a decomposer command with `s >= q` (U14); safe -/
  | scalarBound
  /-- DECOMPOSE_GEN with `lam = 0` or `lam >= q` (U15); safe -/
  | lambdaBound
  /-- ADDAFFINE with a coordinate or `d` that is `>= 2p` (U16); safe -/
  | addaffineBound
  /-- ADDAFFINE with `out` overlapping `P2` (U17); safe -/
  | addaffineOverlap
  /-- ENDO with `x >= 2p` (U18); safe -/
  | endoBound
  /-- FROM_PACKED of a value `>= p` (U19); safe -/
  | packedBound
  /-- TO_PACKED with `a >= 4p` (U20); safe -/
  | unpackBound
deriving DecidableEq, Repr

/-- The MODEL's: what picks the free values a host read returns (log 5). Each part only tells the
free values of different moments apart; none is a value the host sees. -/
structure FreeChoice where
  /-- resets so far: each leaves every byte at or above `CT_END` unspecified anew (R310, R312) -/
  resets : Nat
  /-- how often each byte became unspecified since the last reset (R33) -/
  renewals : Renewals
  /-- host reads out of range so far (U22) -/
  strayReads : Nat
deriving DecidableEq, Repr

/-- The architectural state (R22) with the instance's parameter record and the model's own fields
for the host. -/
structure State where
  /-- the parameter record of the instance (R7, R23); no step changes it (log 1) -/
  cfg : Config
  /-- the arena: its written bytes (R22, R33) -/
  mem : Memory
  /-- STATUS.OK (R25) -/
  ok : Bool
  /-- STATUS.CB (R26) -/
  cb : Bool
  /-- STATUS.FAULTED (R28) -/
  faulted : Bool
  /-- STATUS.ERR (R28) -/
  err : BitVec 8
  /-- RES (R27) -/
  res : Word
  /-- FAULTINFO (R288) -/
  faultInfo : Word
  /-- BASE (R29), as a number up to `ARENA_BYTES`; the host reads its low 32 bits (log 8) -/
  base : Nat
  /-- OFFSET (R29), as a number up to `ARENA_BYTES`; the host reads its low 32 bits (log 8) -/
  offset : Nat
  /-- the MODEL's: the host's next actions, first to come first (R21, R73; log 3) -/
  pending : List HostAction
  /-- the MODEL's: what the last host read returned (log 4) -/
  reply : HostReply
  /-- the MODEL's: picks the free bytes of host reads (log 5) -/
  free : FreeChoice
deriving DecidableEq, Repr

/-- An instance right after reset (R310, R311): the registers zero, BASE and OFFSET at `CT_END`, the
constant tables in place, every other byte unspecified, and nothing pending. -/
def State.resetOf (c : Config) : State where
  cfg := c
  mem := []
  ok := false
  cb := false
  faulted := false
  err := 0
  res := 0
  faultInfo := 0
  base := c.tableEnd
  offset := c.tableEnd
  pending := []
  reply := .nothing
  free := ⟨0, [], 0⟩

/-- The default instance BLS32 (R10) right after reset. -/
def State.reset : State := State.resetOf bls32

end Sys2Proof.Machine
end

