-- ==== Sys2Proof/Machine/Ops.lean ====
section
/-! DEFINITION. The named operations over the arena and the registers: reading and writing bytes
(20_memory.md R64), making bytes unspecified (10_state.md R33), taking a fault (60_exceptions.md
R287) and the only way out of it, reset (R291, R310). -/

namespace Sys2Proof.Machine

/-- `Mem[a]`, or `none` where the byte has no specified value (R33). -/
def State.byteAt (s : State) (a : Nat) : Option Byte := Memory.read s.cfg s.mem a

/-- `MemRead(a, k)` (R64), or `none` where one of the bytes has no specified value. -/
def State.memRead (s : State) : (a k : Nat) → Option Nat
  | _, 0 => some 0
  | a, k + 1 =>
    match s.byteAt a with
    | none => none
    | some b =>
      match s.memRead (a + 1) k with
      | none => none
      | some v => some (b.toNat + 256 * v)

/-- Write consecutive bytes of the arena. -/
def State.writeBytes (s : State) (a : Nat) (bs : List Byte) : State :=
  { s with mem := Memory.writeBytes s.cfg s.mem a bs }

/-- `MemWrite(a, k, v)` (R64). -/
def State.memWrite (s : State) (a k v : Nat) : State := s.writeBytes a (bytesOf k v)

/-- The `k` bytes from `a` on become unspecified, as if never written (R33, U11 to U13). Only these
bytes get a new free value (20_memory.md R70). -/
def State.forget (s : State) (a k : Nat) : State :=
  { s with
    mem := Memory.forget s.mem a k
    free := { s.free with renewals := Renewals.bumpRange s.free.renewals a k } }

/-- `RES <- v` (R27); the register keeps 32 bits. -/
def State.setRes (s : State) (v : Nat) : State := { s with res := BitVec.ofNat 32 v }

/-- The fault codes of R289, `ERR`. -/
def errCode : FaultCode → BitVec 8
  | .illegalCommand => 1
  | .badLength => 2
  | .misaligned => 3
  | .outOfRange => 4
  | .writeProtect => 5
  | .allocOrder => 6
  | .arenaFull => 7

/-- `raise Fault(code, info)` (R287): three fields written, nothing else. -/
def State.raise (s : State) (code : FaultCode) (info : Nat) : State :=
  { s with faulted := true, err := errCode code, faultInfo := BitVec.ofNat 32 info }

/-- Reset by the host (R310), the only way out of the faulted state (R291): every register at its
reset value, the constant tables in place, every byte at or above `CT_END` unspecified, whatever
it held (R312), with a new free value for each. The parameter record and the host's own fields stay
(log 18). -/
def State.hostReset (s : State) : State :=
  { State.resetOf s.cfg with
    pending := s.pending
    reply := s.reply
    free := { s.free with resets := s.free.resets + 1, renewals := [] } }

end Sys2Proof.Machine
end

