-- ==== Sys2Proof/Machine/Flags.lean ====
section
/-! DEFINITION. The status flags (10_state.md R24 to R26), the carry and borrow chains that
compute CB (40_field_engine.md R125, R126), the comparisons that compute OK (R122 to R124), and
the registers as the host reads them. -/

namespace Sys2Proof.Machine

/-- `OK <- b` (R25). -/
def State.setOk (s : State) (b : Bool) : State := { s with ok := b }

/-- `CB <- b` (R26). -/
def State.setCb (s : State) (b : Bool) : State := { s with cb := b }

/-- The limb loop of ADD (R125): the sum's limbs and the carry out, 0 or 1. -/
def addLimbs (w : Nat) : (x y : List Nat) → (carry : Nat) → List Nat × Nat
  | x :: xs, y :: ys, c =>
    let r := addLimbs w xs ys ((x + y + c) / 2 ^ w)
    ((x + y + c) % 2 ^ w :: r.1, r.2)
  | _, _, c => ([], c)

/-- The limb loop of SUB (R126): the difference's limbs and the borrow out, 0 or 1. -/
def subLimbs (w : Nat) : (x y : List Nat) → (borrow : Nat) → List Nat × Nat
  | x :: xs, y :: ys, b =>
    let r := subLimbs w xs ys (if x < y + b then 1 else 0)
    ((x + 2 ^ w - (y + b)) % 2 ^ w :: r.1, r.2)
  | _, _, b => ([], b)

/-- ISZERO on limbs (R122): every limb is zero. -/
def zeroLimbs (x : List Nat) : Bool := x.all (· == 0)

/-- ISEQUAL on limbs (R123): all limbs match. -/
def equalLimbs : (x y : List Nat) → Bool
  | x :: xs, y :: ys => x == y && equalLimbs xs ys
  | [], [] => true
  | _, _ => false

/-- The limb procedure of ISGREATER (R124) on limbs most significant first. -/
def greaterFromTop : (x y : List Nat) → Bool
  | x :: xs, y :: ys => if x > y then true else if x < y then false else greaterFromTop xs ys
  | _, _ => false

/-- ISGREATER on limbs (R124): strictly greater. -/
def greaterLimbs (x y : List Nat) : Bool := greaterFromTop x.reverse y.reverse

/-- The half-length test of the decomposer commands (R214): both magnitudes below `2^HB`. -/
def withinHalf (c : Config) (s0 s1 : Int) : Bool :=
  decide (s0.natAbs < 2 ^ c.halfBits) && decide (s1.natAbs < 2 ^ c.halfBits)

/-- The STATUS word (R24): bit 0 OK, bit 1 CB, bit 2 FAULTED, bits 15:8 ERR, the rest zero. -/
def State.statusWord (s : State) : Word :=
  (0#16 ++ s.err ++ 0#5 ++ BitVec.ofBool s.faulted ++ BitVec.ofBool s.cb ++ BitVec.ofBool s.ok : Word)

/-- A register as the host reads it by number (R24); any other number reads 0. -/
def State.readReg (s : State) : (number : Nat) → Word
  | 0 => s.statusWord
  | 1 => s.res
  | 2 => s.faultInfo
  | 3 => BitVec.ofNat 32 s.base
  | 4 => BitVec.ofNat 32 s.offset
  | _ => 0

end Sys2Proof.Machine
end

