-- ==== Sys2Proof/Machine/Operands.lean ====
section
/-! DEFINITION. Every operand form of 30_encoding.md R94 with its size and alignment
(20_memory.md R67, 30_encoding.md R95), reading and writing it (20_memory.md R65, R66), and the
checks every command makes before it touches anything (60_exceptions.md R289). -/

namespace Sys2Proof.Machine

/-- A pointer operand as the checks see it (R67, R94): the operand word, the size in bytes of what
it points at, whether it needs alignment 4 (a byte string does not), and whether the command
writes it (`out`, `io`, `scr`). -/
structure Operand where
  ptr : Nat
  size : Nat
  aligned : Bool
  written : Bool
deriving DecidableEq, Repr

/-- An `in` element (R67). -/
def inElem (c : Config) (X : Ctx) (p : Word) : Operand := ⟨p.toNat, c.elemBytes X, true, false⟩

/-- An `out` or `io` element (R67). -/
def outElem (c : Config) (X : Ctx) (p : Word) : Operand := ⟨p.toNat, c.elemBytes X, true, true⟩

/-- An `in` array of `m` elements (R67). -/
def inArray (c : Config) (X : Ctx) (p m : Word) : Operand :=
  ⟨p.toNat, m.toNat * c.elemBytes X, true, false⟩

/-- An `out` array of `m` elements (R67). -/
def outArray (c : Config) (X : Ctx) (p m : Word) : Operand :=
  ⟨p.toNat, m.toNat * c.elemBytes X, true, true⟩

/-- A scratch operand of `k` elements (R67, R95). -/
def scratchElems (c : Config) (X : Ctx) (k : Nat) (p : Word) : Operand :=
  ⟨p.toNat, k * c.elemBytes X, true, true⟩

/-- An `in` point (R67): two elements of context F. -/
def inPoint (c : Config) (p : Word) : Operand := ⟨p.toNat, 2 * c.elemBytes .F, true, false⟩

/-- An `out` point (R67). -/
def outPoint (c : Config) (p : Word) : Operand := ⟨p.toNat, 2 * c.elemBytes .F, true, true⟩

/-- An `in` byte string (R67), alignment 1. -/
def inBytes (c : Config) (X : Ctx) (p : Word) : Operand := ⟨p.toNat, c.packedBytes X, false, false⟩

/-- An `out` byte string (R67), alignment 1. -/
def outBytes (c : Config) (X : Ctx) (p : Word) : Operand := ⟨p.toNat, c.packedBytes X, false, true⟩

/-- The pointer operands of a command, in the order A, B, C, D, E (R94). Immediates are none. -/
def operandsOf (c : Config) : Instr → List Operand
  | .iszero X x => [inElem c X x]
  | .isequal X x y => [inElem c X x, inElem c X y]
  | .isgreater X x y => [inElem c X x, inElem c X y]
  | .add X out x y => [outElem c X out, inElem c X x, inElem c X y]
  | .sub X out x y => [outElem c X out, inElem c X x, inElem c X y]
  | .subpos X out x y => [outElem c X out, inElem c X x, inElem c X y]
  | .reduce X x => [outElem c X x]
  | .copy X out x => [outElem c X out, inElem c X x]
  | .mul X out x y => [outElem c X out, inElem c X x, inElem c X y]
  | .sqr X out x => [outElem c X out, inElem c X x]
  | .lshift X out x _ => [outElem c X out, inElem c X x]
  | .inv X out x => [outElem c X out, inElem c X x]
  | .makeodd X x => [outElem c X x]
  | .batchinv X out x m => [outArray c X out m, inArray c X x m]
  | .sqrt X scratch out x => [scratchElems c X 4 scratch, outElem c X out, inElem c X x]
  | .decompose out0 out1 sc => [outElem c .S out0, outElem c .S out1, inElem c .S sc]
  | .decomposeNomsb out0 out1 sc => [outElem c .S out0, outElem c .S out1, inElem c .S sc]
  | .decomposeGen out0 out1 sc lam =>
    [outElem c .S out0, outElem c .S out1, inElem c .S sc, inElem c .S lam]
  | .addaffine scratch out p1 p2 d =>
    [scratchElems c .F 2 scratch, outPoint c out, inPoint c p1, inPoint c p2, inElem c .F d]
  | .endo out p => [outPoint c out, inPoint c p]
  | .allocStable _ _ => []
  | .allocScratch _ _ => []
  | .resetScratch => []
  | .fromPacked X elem bytes _ => [outElem c X elem, inBytes c X bytes]
  | .toPacked X bytes elem _ => [outBytes c X bytes, inElem c X elem]

/-- Check 2 of R289: the codecs' `len` is `PB` of the command's context. -/
def lengthFault (c : Config) : Instr → Option (FaultCode × Nat)
  | .fromPacked X _ _ len =>
    if len.toNat = c.packedBytes X then none else some (.badLength, len.toNat)
  | .toPacked X _ _ len =>
    if len.toNat = c.packedBytes X then none else some (.badLength, len.toNat)
  | _ => none

/-- Check 3 of R289 for one operand. -/
def Operand.misaligned (o : Operand) : Bool := o.aligned && o.ptr % 4 != 0

/-- Check 4 of R289 for one operand; the sum does not wrap (R61). -/
def Operand.outOfRange (c : Config) (o : Operand) : Bool := decide (o.ptr + o.size > c.arenaBytes)

/-- Check 5 of R289 for one operand. -/
def Operand.writeProtected (c : Config) (o : Operand) : Bool :=
  o.written && decide (o.size > 0) && decide (o.ptr < c.tableEnd)

/-- Checks 3, 4 and 5 of R289, each made for all operands before the next for any; `info` is the
first failing operand word (R288). -/
def operandFault (c : Config) (ops : List Operand) : Option (FaultCode × Nat) :=
  match ops.find? (·.misaligned) with
  | some o => some (.misaligned, o.ptr)
  | none =>
    match ops.find? (·.outOfRange c) with
    | some o => some (.outOfRange, o.ptr)
    | none =>
      match ops.find? (·.writeProtected c) with
      | some o => some (.writeProtect, o.ptr)
      | none => none

/-- Checks 6 and 7 of R289, the only ones that look at a register (R263). -/
def allocFault (s : State) : Instr → Option (FaultCode × Nat)
  | .allocStable X k =>
    if s.offset ≠ s.base then some (.allocOrder, s.offset)
    else if s.base + k.toNat * s.cfg.elemBytes X > s.cfg.arenaBytes then some (.arenaFull, k.toNat)
    else none
  | .allocScratch X k =>
    if s.offset + k.toNat * s.cfg.elemBytes X > s.cfg.arenaBytes then some (.arenaFull, k.toNat)
    else none
  | _ => none

/-- The first check of R289 that a decoded command fails (2 to 7; check 1 is the decoder's), with
its `info`. -/
def faultOf (s : State) (i : Instr) : Option (FaultCode × Nat) :=
  match lengthFault s.cfg i with
  | some f => some f
  | none =>
    match operandFault s.cfg (operandsOf s.cfg i) with
    | some f => some f
    | none => allocFault s i

/-- Issuing a decoded command (R281): ignored while faulted; else the first failing check raises its
fault; else the command's rule, which is refused where a precondition does not hold (R284). -/
def State.command (s : State) (i : Instr) (body : Except Refusal State) :
    Host.Outcome State Fault Refusal :=
  if s.faulted then .next s
  else
    match faultOf s i with
    | some f => .next (s.raise f.1 f.2)
    | none =>
      match body with
      | .ok t => .next t
      | .error r => .refused r

/-- A precondition of a rule (R284): go on, or refuse by name. -/
def need (b : Bool) (r : Refusal) : Except Refusal Unit := if b then .ok () else .error r

/-- A limb slot (R65): four bytes, all specified (U9), with no bit at or above `w` set (U10). -/
def State.readSlot (s : State) (w a : Nat) : Except Refusal Nat :=
  match s.memRead a 4 with
  | none => .error .unwrittenByte
  | some v => if v < 2 ^ w then .ok v else .error .malformedSlot

/-- `n` consecutive limb slots, limb 0 first (R66). -/
def State.readSlots (s : State) (w : Nat) : (n a : Nat) → Except Refusal (List Nat)
  | 0, _ => .ok []
  | n + 1, a =>
    match s.readSlot w a with
    | .error r => .error r
    | .ok x =>
      match s.readSlots w n (a + 4) with
      | .error r => .error r
      | .ok xs => .ok (x :: xs)

/-- The limbs of the element of a context at an offset (R66). -/
def State.readLimbs (s : State) (X : Ctx) (a : Nat) : Except Refusal (List Nat) :=
  s.readSlots (s.cfg.limbBits X) (s.cfg.limbs X) a

/-- `ElemRead_X(a)` (R15, R66). -/
def State.readElem (s : State) (X : Ctx) (a : Nat) : Except Refusal Nat :=
  match s.readLimbs X a with
  | .error r => .error r
  | .ok xs => .ok (limbsVal (s.cfg.limbBits X) xs)

/-- Write limbs as 4-byte slots, limb 0 first (R65, R66). -/
def State.writeLimbs (s : State) (a : Nat) (xs : List Nat) : State :=
  s.writeBytes a (xs.flatMap (bytesOf 4))

/-- `ElemWrite_X(a, v)` for `v < R` (R15, R66): every slot gets bits 31:w zero. -/
def State.writeElem (s : State) (X : Ctx) (a v : Nat) : State :=
  s.writeLimbs a (limbsOf (s.cfg.limbBits X) (s.cfg.limbs X) v)

/-- The `m` elements of an array, element `i` at `a + i*EB` (R67). -/
def State.readArray (s : State) (X : Ctx) : (m a : Nat) → Except Refusal (List Nat)
  | 0, _ => .ok []
  | m + 1, a =>
    match s.readElem X a with
    | .error r => .error r
    | .ok v =>
      match s.readArray X m (a + s.cfg.elemBytes X) with
      | .error r => .error r
      | .ok vs => .ok (v :: vs)

/-- Write the elements of an array, element `i` at `a + i*EB` (R67). -/
def State.writeArray (s : State) (X : Ctx) : (a : Nat) → (vs : List Nat) → State
  | _, [] => s
  | a, v :: vs => State.writeArray (s.writeElem X a v) X (a + s.cfg.elemBytes X) vs

/-- `MemRead` of a byte string as a command reads it (R259): every byte specified (U9). -/
def State.readPacked (s : State) (a k : Nat) : Except Refusal Nat :=
  match s.memRead a k with
  | none => .error .unwrittenByte
  | some v => .ok v

/-- The overlap of the intervals `[a, a+k)` and `[b, b+k)` becomes unspecified (U11); nothing
happens where they are disjoint. -/
def State.forgetOverlap (s : State) (a b k : Nat) : State :=
  if max a b < min a b + k then s.forget (max a b) (min a b + k - max a b) else s

end Sys2Proof.Machine
end

