-- ==== Sys2Proof/Machine/Arena.lean ====
section
/-! DEFINITION. MemoryArena and LimbLayout commands ALLOC_STABLE, ALLOC_SCRATCH, RESET_SCRATCH,
FROM_PACKED, TO_PACKED (46_arena_and_codecs.md). The faults of the allocator and of the codecs are
checks of `faultOf` (60_exceptions.md R289). -/

namespace Sys2Proof.Machine

/-- ALLOC_STABLE (R256): `RES` gets the old `BASE`; `BASE` and `OFFSET` move past the allocation. -/
def execAllocStable (X : Ctx) (k : Word) (s : State) : Host.Outcome State Fault Refusal :=
  s.command (.allocStable X k) (.ok
    { s.setRes s.base with
      base := s.base + k.toNat * s.cfg.elemBytes X
      offset := s.base + k.toNat * s.cfg.elemBytes X })

/-- ALLOC_SCRATCH (R257): `RES` gets the old `OFFSET`, which moves past the allocation. -/
def execAllocScratch (X : Ctx) (k : Word) (s : State) : Host.Outcome State Fault Refusal :=
  s.command (.allocScratch X k) (.ok
    { s.setRes s.offset with offset := s.offset + k.toNat * s.cfg.elemBytes X })

/-- RESET_SCRATCH (R258): `OFFSET <- BASE`; no byte is erased or marked. -/
def execResetScratch (s : State) : Host.Outcome State Fault Refusal :=
  s.command .resetScratch (.ok { s with offset := s.base })

/-- FROM_PACKED (R259): the packed value, below `p`, into Montgomery form. -/
def execFromPacked (X : Ctx) (elem bytes len : Word) (s : State) :
    Host.Outcome State Fault Refusal :=
  s.command (.fromPacked X elem bytes len) do
    let v ← s.readPacked bytes.toNat (s.cfg.packedBytes X)
    need (v < s.cfg.modulus X) .packedBound
    .ok (s.writeElem X elem.toNat (s.cfg.fmul X v (s.cfg.r2 X)))

/-- TO_PACKED (R260): an element below `4p`, reduced and out of Montgomery form. -/
def execToPacked (X : Ctx) (bytes elem len : Word) (s : State) :
    Host.Outcome State Fault Refusal :=
  s.command (.toPacked X bytes elem len) do
    let a ← s.readElem X elem.toNat
    need (a < 4 * s.cfg.modulus X) .unpackBound
    .ok (s.memWrite bytes.toNat (s.cfg.packedBytes X) (s.cfg.fmul X (a % s.cfg.modulus X) 1))

end Sys2Proof.Machine
end

