-- ==== Sys2Proof/Machine/Curve.lean ====
section
/-! DEFINITION. CurveOps commands ADDAFFINE, ENDO (45_curve_ops.md), in context F. -/

namespace Sys2Proof.Machine

/-- The formula of ADDAFFINE on canonical values (R241): slope, `x3`, `y3`. A total function: the
block sees no degenerate case (R243). -/
def addAffineValue (c : Config) (x1 y1 x2 y2 d : Nat) : Nat × Nat :=
  let m := c.fmul .F d (c.fsub .F y2 y1)
  let x3 := c.fsub .F (c.fsub .F (c.fsqr .F m) x1) x2
  (x3, c.fsub .F (c.fmul .F m (c.fsub .F x1 x3)) y1)

/-- ADDAFFINE (R241, R242): `out` may overlap `P1` but not `P2`; the scratch bytes are unspecified
afterwards, an overlap of `out` with them (U11). -/
def execAddaffine (scratch out p1 p2 d : Word) (s : State) : Host.Outcome State Fault Refusal :=
  s.command (.addaffine scratch out p1 p2 d) do
    let EB := s.cfg.elemBytes .F
    let m := s.cfg.modulus .F
    need (out.toNat + 2 * EB ≤ p2.toNat || p2.toNat + 2 * EB ≤ out.toNat) .addaffineOverlap
    let x1 ← s.readElem .F p1.toNat
    let y1 ← s.readElem .F (p1.toNat + EB)
    let x2 ← s.readElem .F p2.toNat
    let y2 ← s.readElem .F (p2.toNat + EB)
    let dv ← s.readElem .F d.toNat
    need (x1 < 2 * m && y1 < 2 * m && x2 < 2 * m && y2 < 2 * m && dv < 2 * m) .addaffineBound
    let r := addAffineValue s.cfg (s.cfg.canon .F x1) (s.cfg.canon .F y1) (s.cfg.canon .F x2)
      (s.cfg.canon .F y2) (s.cfg.canon .F dv)
    .ok (((s.writeElem .F out.toNat r.1).writeElem .F (out.toNat + EB) r.2).forget
      scratch.toNat (2 * EB))

/-- ENDO (R246): `x` times `beta`, canonical; `y` copied, not reduced. -/
def execEndo (out p : Word) (s : State) : Host.Outcome State Fault Refusal :=
  s.command (.endo out p) do
    let EB := s.cfg.elemBytes .F
    let x ← s.readElem .F p.toNat
    let y ← s.readElem .F (p.toNat + EB)
    need (x < 2 * s.cfg.modulus .F) .endoBound
    let beta ← s.readElem .F (s.cfg.entryPtr .F 10)
    .ok ((s.writeElem .F out.toNat (s.cfg.fmul .F beta (s.cfg.canon .F x))).writeElem .F
      (out.toNat + EB) y)

end Sys2Proof.Machine
end

