-- ==== Sys2Proof/Machine/Decomposer.lean ====
section
/-! DEFINITION. ScalarDecomposer (GLV) commands DECOMPOSE, DECOMPOSE_NOMSB, DECOMPOSE_GEN
(44_scalar_decomposer.md), all in context S. -/

namespace Sys2Proof.Machine

/-- `(s0, s1) = (s - c1*a1 - c2*a2, -c1*b1 - c2*b2)` (R214). -/
def splitScalar (v : Basis) (sc : Nat) (c1 c2 : Int) : Int × Int :=
  ((sc : Int) - c1 * v.a1 - c2 * v.a2, -c1 * v.b1 - c2 * v.b2)

/-- The coefficients of DECOMPOSE (R214): multiply, add the rounding bit, shift. -/
def splitRounded (c : Config) (sc : Nat) : Int × Int :=
  splitScalar c.glvBasis sc
    (c.glvBasis.e1 * ((sc * c.g1 + 2 ^ (c.barrettShift - 1)) / 2 ^ c.barrettShift : Nat))
    (c.glvBasis.e2 * ((sc * c.g2 + 2 ^ (c.barrettShift - 1)) / 2 ^ c.barrettShift : Nat))

/-- The coefficients of DECOMPOSE_NOMSB (R225): truncation, no rounding bit. -/
def splitTruncated (c : Config) (sc : Nat) : Int × Int :=
  splitScalar c.glvBasis sc
    (c.glvBasis.e1 * (sc * c.g1 / 2 ^ c.barrettShift : Nat))
    (c.glvBasis.e2 * (sc * c.g2 / 2 ^ c.barrettShift : Nat))

/-- The coefficients of DECOMPOSE_GEN (R230): the basis of `(q, lam)` computed now, exact rounding
to nearest. -/
def splitGeneral (c : Config) (sc lam : Nat) : Int × Int :=
  let v := basis c.q lam
  splitScalar v sc
    (v.e1 * ((2 * sc * v.b2.natAbs + c.q) / (2 * c.q) : Nat))
    (v.e2 * ((2 * sc * v.b1.natAbs + c.q) / (2 * c.q) : Nat))

/-- The two writes and `OK` (R214, R215): two's complement in `K` bits, `OK` the half-length test;
an overlap of the two outputs is unspecified (U11). -/
def State.writeSplit (s : State) (out0 out1 : Nat) (v : Int × Int) : State :=
  ((((s.writeElem .S out0 (twos (s.cfg.radixBits .S) v.1)).writeElem .S out1
    (twos (s.cfg.radixBits .S) v.2)).forgetOverlap out0 out1 (s.cfg.elemBytes .S)).setOk
      (withinHalf s.cfg v.1 v.2))

/-- DECOMPOSE (R214). -/
def execDecompose (out0 out1 sc : Word) (s : State) : Host.Outcome State Fault Refusal :=
  s.command (.decompose out0 out1 sc) do
    let v ← s.readElem .S sc.toNat
    need (v < s.cfg.q) .scalarBound
    .ok (s.writeSplit out0.toNat out1.toNat (splitRounded s.cfg v))

/-- DECOMPOSE_NOMSB (R225). -/
def execDecomposeNomsb (out0 out1 sc : Word) (s : State) : Host.Outcome State Fault Refusal :=
  s.command (.decomposeNomsb out0 out1 sc) do
    let v ← s.readElem .S sc.toNat
    need (v < s.cfg.q) .scalarBound
    .ok (s.writeSplit out0.toNat out1.toNat (splitTruncated s.cfg v))

/-- DECOMPOSE_GEN (R230): the eigenvalue from the arena. -/
def execDecomposeGen (out0 out1 sc lam : Word) (s : State) : Host.Outcome State Fault Refusal :=
  s.command (.decomposeGen out0 out1 sc lam) do
    let v ← s.readElem .S sc.toNat
    let l ← s.readElem .S lam.toNat
    need (v < s.cfg.q) .scalarBound
    need (0 < l && l < s.cfg.q) .lambdaBound
    .ok (s.writeSplit out0.toNat out1.toNat (splitGeneral s.cfg v l))

end Sys2Proof.Machine
end

