-- ==== Sys2Proof/Machine/FieldEngine.lean ====
section
/-! DEFINITION. FieldEngine commands ISZERO, ISEQUAL, ISGREATER, ADD, SUB, SUBPOS, REDUCE, COPY
(40_field_engine.md). -/

namespace Sys2Proof.Machine

/-- ISZERO (R122): `OK` on the stored number, not its residue. -/
def execIszero (X : Ctx) (x : Word) (s : State) : Host.Outcome State Fault Refusal :=
  s.command (.iszero X x) do
    let xs ← s.readLimbs X x.toNat
    .ok (s.setOk (zeroLimbs xs))

/-- ISEQUAL (R123): `OK` on the stored numbers. -/
def execIsequal (X : Ctx) (x y : Word) (s : State) : Host.Outcome State Fault Refusal :=
  s.command (.isequal X x y) do
    let xs ← s.readLimbs X x.toNat
    let ys ← s.readLimbs X y.toNat
    .ok (s.setOk (equalLimbs xs ys))

/-- ISGREATER (R124): `OK` iff strictly greater. -/
def execIsgreater (X : Ctx) (x y : Word) (s : State) : Host.Outcome State Fault Refusal :=
  s.command (.isgreater X x y) do
    let xs ← s.readLimbs X x.toNat
    let ys ← s.readLimbs X y.toNat
    .ok (s.setOk (greaterLimbs xs ys))

/-- ADD (R125): the plain sum modulo `2^K`, the carry in `CB`. -/
def execAdd (X : Ctx) (out x y : Word) (s : State) : Host.Outcome State Fault Refusal :=
  s.command (.add X out x y) do
    let xs ← s.readLimbs X x.toNat
    let ys ← s.readLimbs X y.toNat
    let r := addLimbs (s.cfg.limbBits X) xs ys 0
    .ok ((s.writeLimbs out.toNat r.1).setCb (r.2 == 1))

/-- SUB (R126): the difference modulo `2^K`, the borrow in `CB`. -/
def execSub (X : Ctx) (out x y : Word) (s : State) : Host.Outcome State Fault Refusal :=
  s.command (.sub X out x y) do
    let xs ← s.readLimbs X x.toNat
    let ys ← s.readLimbs X y.toNat
    let r := subLimbs (s.cfg.limbBits X) xs ys 0
    .ok ((s.writeLimbs out.toNat r.1).setCb (r.2 == 1))

/-- SUBPOS (R127): the difference of `x >= y`; `CB` is kept. -/
def execSubpos (X : Ctx) (out x y : Word) (s : State) : Host.Outcome State Fault Refusal :=
  s.command (.subpos X out x y) do
    let xv ← s.readElem X x.toNat
    let yv ← s.readElem X y.toNat
    need (yv ≤ xv) .subposBorrows
    .ok (s.writeElem X out.toNat (xv - yv))

/-- The loop of REDUCE (R128): subtract the modulus until a trial subtraction borrows; `c = 4`
trials are all the precondition `x < 4p` needs. -/
def reduceLimbs (w : Nat) (p : List Nat) : (trials : Nat) → (x : List Nat) → List Nat
  | 0, x => x
  | n + 1, x =>
    let r := subLimbs w x p 0
    if r.2 = 1 then x else reduceLimbs w p n r.1

/-- REDUCE (R128, R129): in place, to the canonical value; no flag. -/
def execReduce (X : Ctx) (x : Word) (s : State) : Host.Outcome State Fault Refusal :=
  s.command (.reduce X x) do
    let xs ← s.readLimbs X x.toNat
    need (limbsVal (s.cfg.limbBits X) xs < 4 * s.cfg.modulus X) .reduceBound
    let ps ← s.readLimbs X (s.cfg.entryPtr X 2)
    .ok (s.writeLimbs x.toNat (reduceLimbs (s.cfg.limbBits X) ps 4 xs))

/-- COPY (R131): limb-wise, not reduced. -/
def execCopy (X : Ctx) (out x : Word) (s : State) : Host.Outcome State Fault Refusal :=
  s.command (.copy X out x) do
    let xs ← s.readLimbs X x.toNat
    .ok (s.writeLimbs out.toNat xs)

end Sys2Proof.Machine
end

