-- ==== Sys2Proof/Machine/Inverter.lean ====
section
/-! DEFINITION. Inverter commands INV, MAKEODD, BATCHINV (42_inverter.md), by the procedures of
R173 and R182. The results R171 and R181 are normative; statements relate the two. -/

namespace Sys2Proof.Machine

/-- The loop of INV (R173) on `(u, v, r, s, k)`, returning `(s, k)` once `u = v`. -/
def invLoop : (fuel : Nat) → (u v r s k : Nat) → Nat × Nat
  | 0, _, _, _, s, k => (s, k)
  | fuel + 1, u, v, r, s, k =>
    if u = v then (s, k)
    else if u > v then
      let z := tz (u - v)
      invLoop fuel ((u - v) / 2 ^ z) v (r + s) (s * 2 ^ z) (k + z)
    else
      let z := tz (v - u)
      invLoop fuel u ((v - u) / 2 ^ z) (r * 2 ^ z) (s + r) (k + z)

/-- The value INV writes for a canonical nonzero `a` (R173): the loop, which takes at most
`KI - 1` steps (R174), then `KI - k` doublings and one multiplication by `INVC`. -/
def invValue (c : Config) (X : Ctx) (a : Nat) : Nat :=
  let z := tz a
  let e := invLoop (c.invTarget X) (c.modulus X) (a / 2 ^ z) 0 1 z
  c.fmul X (c.lshiftValue X e.1 (c.invTarget X - e.2)) (c.invCorrection X)

/-- The operand condition of INV and BATCHINV (R171, R181): `x < 2p` and `x mod p != 0`. -/
def invertible (c : Config) (X : Ctx) (x : Nat) : Bool :=
  x < 2 * c.modulus X && x % c.modulus X != 0

/-- INV (R171, R173). -/
def execInv (X : Ctx) (out x : Word) (s : State) : Host.Outcome State Fault Refusal :=
  s.command (.inv X out x) do
    let xv ← s.readElem X x.toNat
    need (invertible s.cfg X xv) .invOperand
    .ok (s.writeElem X out.toNat (invValue s.cfg X (s.cfg.canon X xv)))

/-- MAKEODD (R176): in place on the stored number, the count to `RES`. -/
def execMakeodd (X : Ctx) (x : Word) (s : State) : Host.Outcome State Fault Refusal :=
  s.command (.makeodd X x) do
    let xv ← s.readElem X x.toNat
    need (xv != 0) .makeoddZero
    .ok ((s.writeElem X x.toNat (xv / 2 ^ tz xv)).setRes (tz xv))

/-- The running products of R182 after a first product `acc`. -/
def runningProducts (c : Config) (X : Ctx) : (acc : Nat) → (xs : List Nat) → List Nat
  | _, [] => []
  | acc, x :: xs => c.fmul X acc x :: runningProducts c X (c.fmul X acc x) xs

/-- The backward walk of R182: from the running inverse `I`, the factors `x[m-1] .. x[1]` and the
products `P[m-2] .. P[0]`, the results `out[m-1] .. out[0]`. -/
def peelInverses (c : Config) (X : Ctx) : (I : Nat) → (xs ps : List Nat) → List Nat
  | I, x :: xs, p :: ps => c.fmul X I p :: peelInverses c X (c.fmul X I x) xs ps
  | I, _, _ => [I]

/-- The values BATCHINV writes for canonical nonzero elements, by its procedure (R182): running
products, one inversion, the backward walk. -/
def batchInvValues (c : Config) (X : Ctx) : (xs : List Nat) → List Nat
  | [] => []
  | x :: xs =>
    let ps := x :: runningProducts c X x xs
    (peelInverses c X (invValue c X (ps.getLastD x)) xs.reverse ps.dropLast.reverse).reverse

/-- BATCHINV (R181, R182): disjoint arrays of `m` elements; `m = 0` reads and writes nothing. -/
def execBatchinv (X : Ctx) (out x m : Word) (s : State) : Host.Outcome State Fault Refusal :=
  s.command (.batchinv X out x m) do
    let size := m.toNat * s.cfg.elemBytes X
    need (out.toNat + size ≤ x.toNat || x.toNat + size ≤ out.toNat) .batchinvOverlap
    let xs ← s.readArray X m.toNat x.toNat
    need (xs.all (invertible s.cfg X)) .batchinvOperand
    .ok (s.writeArray X out.toNat (batchInvValues s.cfg X (xs.map (s.cfg.canon X))))

end Sys2Proof.Machine
end

