-- ==== Sys2Proof/Machine/Montgomery.lean ====
section
/-! DEFINITION. MontgomeryMultiplier commands MUL, SQR, LSHIFT (41_montgomery_multiplier.md). -/

namespace Sys2Proof.Machine

/-- The preconditions of the multiplier (R151, R153): `y + p <= R` and `x*y < p*R`. -/
def mulBoundOk (c : Config) (X : Ctx) (x y : Nat) : Bool :=
  y + c.modulus X ≤ c.radix X && x * y < c.modulus X * c.radix X

/-- MUL (R151): the one number below `2p` the limb algorithm gives, not reduced. -/
def execMul (X : Ctx) (out x y : Word) (s : State) : Host.Outcome State Fault Refusal :=
  s.command (.mul X out x y) do
    let xv ← s.readElem X x.toNat
    let yv ← s.readElem X y.toNat
    need (mulBoundOk s.cfg X xv yv) .mulBound
    .ok (s.writeElem X out.toNat (s.cfg.mulValue X xv yv))

/-- SQR (R155): MUL with `y = x`. -/
def execSqr (X : Ctx) (out x : Word) (s : State) : Host.Outcome State Fault Refusal :=
  s.command (.sqr X out x) do
    let xv ← s.readElem X x.toNat
    need (mulBoundOk s.cfg X xv xv) .mulBound
    .ok (s.writeElem X out.toNat (s.cfg.mulValue X xv xv))

/-- LSHIFT (R156): `k` modular doublings of a value below `2p`; `k` is the whole 32-bit
immediate. -/
def execLshift (X : Ctx) (out x k : Word) (s : State) : Host.Outcome State Fault Refusal :=
  s.command (.lshift X out x k) do
    let xv ← s.readElem X x.toNat
    need (xv < 2 * s.cfg.modulus X) .lshiftBound
    .ok (s.writeElem X out.toNat (s.cfg.lshiftValue X xv k.toNat))

end Sys2Proof.Machine
end

