-- ==== Sys2Proof/Machine/SquareRoot.lean ====
section
/-! DEFINITION. SquareRootSolver command SQRT (43_square_root.md). -/

namespace Sys2Proof.Machine

/-- The search of R192 for the least `i` with `t^(2^i) = 1`: `left` candidates remain after `i`
squarings gave `s`. -/
def findOrder (c : Config) (X : Ctx) : (left : Nat) → (s i : Nat) → Option Nat
  | 0, _, _ => none
  | left + 1, s, i =>
    if c.fsqr X s = c.mont X 1 then some (i + 1) else findOrder c X left (c.fsqr X s) (i + 1)

/-- `n` squarings. -/
def sqrTimes (c : Config) (X : Ctx) : (n : Nat) → (b : Nat) → Nat
  | 0, b => b
  | n + 1, b => sqrTimes c X n (c.fsqr X b)

/-- The loop of SQRT (R192) on `(t, r, c, M)`: a root, or `none` for a non-residue. It takes at
most `S` rounds (R195), `M` falling each time. -/
def sqrtLoop (c : Config) (X : Ctx) : (fuel : Nat) → (t r g M : Nat) → Option Nat
  | 0, _, _, _, _ => none
  | fuel + 1, t, r, g, M =>
    if t = 0 then some r
    else if t = c.mont X 1 then some r
    else
      match findOrder c X (M - 1) t 0 with
      | none => none
      | some i =>
        let b := sqrTimes c X (M - i - 1) g
        let g' := c.fsqr X b
        sqrtLoop c X fuel (c.fmul X t g') (c.fmul X r b) g' i

/-- SQRT of a canonical `a` with the working copy `g` of SQRT_C (R192). -/
def sqrtValue (c : Config) (X : Ctx) (g a : Nat) : Option Nat :=
  sqrtLoop c X (c.sqrtS X) (c.power X a (c.sqrtT X)) (c.power X a ((c.sqrtT X + 1) / 2)) g
    (c.sqrtS X)

/-- SQRT (R192, R193): the root and `OK = 1`, or `OK = 0` and an unspecified `out`; the scratch
bytes are unspecified afterwards in both cases (R194), an overlap of the two with them (U11). -/
def execSqrt (X : Ctx) (scratch out x : Word) (s : State) : Host.Outcome State Fault Refusal :=
  s.command (.sqrt X scratch out x) do
    let xv ← s.readElem X x.toNat
    need (xv < 2 * s.cfg.modulus X) .sqrtBound
    let g ← s.readElem X (s.cfg.entryPtr X 9)
    match sqrtValue s.cfg X g (s.cfg.canon X xv) with
    | some r =>
      .ok (((s.writeElem X out.toNat r).forget scratch.toNat (4 * s.cfg.elemBytes X)).setOk true)
    | none =>
      .ok (((s.forget out.toNat (s.cfg.elemBytes X)).forget scratch.toNat
        (4 * s.cfg.elemBytes X)).setOk false)

end Sys2Proof.Machine
end

