-- ==== Sys2Proof/Machine/Dispatch.lean ====
section
/-! DEFINITION. One arm per command, each a direct call of its meaning. -/

namespace Sys2Proof.Machine

def exec (i : Instr) (s : State) : Host.Outcome State Fault Refusal :=
  match i with
  | .iszero X x => Sys2Proof.Machine.execIszero X x s
  | .isequal X x y => Sys2Proof.Machine.execIsequal X x y s
  | .isgreater X x y => Sys2Proof.Machine.execIsgreater X x y s
  | .add X out x y => Sys2Proof.Machine.execAdd X out x y s
  | .sub X out x y => Sys2Proof.Machine.execSub X out x y s
  | .subpos X out x y => Sys2Proof.Machine.execSubpos X out x y s
  | .reduce X x => Sys2Proof.Machine.execReduce X x s
  | .copy X out x => Sys2Proof.Machine.execCopy X out x s
  | .mul X out x y => Sys2Proof.Machine.execMul X out x y s
  | .sqr X out x => Sys2Proof.Machine.execSqr X out x s
  | .lshift X out x k => Sys2Proof.Machine.execLshift X out x k s
  | .inv X out x => Sys2Proof.Machine.execInv X out x s
  | .makeodd X x => Sys2Proof.Machine.execMakeodd X x s
  | .batchinv X out x m => Sys2Proof.Machine.execBatchinv X out x m s
  | .sqrt X scratch out x => Sys2Proof.Machine.execSqrt X scratch out x s
  | .decompose out0 out1 sc => Sys2Proof.Machine.execDecompose out0 out1 sc s
  | .decomposeNomsb out0 out1 sc => Sys2Proof.Machine.execDecomposeNomsb out0 out1 sc s
  | .decomposeGen out0 out1 sc lam => Sys2Proof.Machine.execDecomposeGen out0 out1 sc lam s
  | .addaffine scratch out p1 p2 d => Sys2Proof.Machine.execAddaffine scratch out p1 p2 d s
  | .endo out p => Sys2Proof.Machine.execEndo out p s
  | .allocStable X k => Sys2Proof.Machine.execAllocStable X k s
  | .allocScratch X k => Sys2Proof.Machine.execAllocScratch X k s
  | .resetScratch => Sys2Proof.Machine.execResetScratch s
  | .fromPacked X elem bytes len => Sys2Proof.Machine.execFromPacked X elem bytes len s
  | .toPacked X bytes elem len => Sys2Proof.Machine.execToPacked X bytes elem len s

end Sys2Proof.Machine
end

