-- ==== Sys2Proof/Machine/HostPort.lean ====
section
/-! DEFINITION. The host's actions (20_memory.md R73): issuing a descriptor (30_encoding.md R98,
60_exceptions.md R281), reading a register, reading and writing the arena. Reset is
`State.hostReset`. -/

namespace Sys2Proof.Machine

/-- Issue a descriptor (R281): while faulted nothing happens and it is not decoded (R287); an
illegal one takes `Fault(ILLEGAL_COMMAND, W0)` (R97, check 1 of R289); else its command runs. -/
def issue (d : Descriptor) (s : State) : Host.Outcome State Fault Refusal :=
  if s.faulted then .next s
  else
    match decode d with
    | .ok i => exec i s
    | .error _ => .next (s.raise .illegalCommand d.w0.toNat)

/-- A host register read (R24, R73): no side effect but the returned word. -/
def State.hostReadReg (s : State) (number : Nat) : State :=
  { s with reply := .reg (s.readReg number) }

/-- What a host read in range returns for the byte at an offset (R73): what the arena holds, or the
byte's free value where that is unspecified (U9). It is the same until the byte is written or
becomes unspecified anew (R70). -/
def State.hostByte (s : State) (a : Nat) : Byte :=
  (s.byteAt a).getD (Config.freeByte s.free.resets (Renewals.count a s.free.renewals) a)

/-- A host arena read (R73): `count` bytes from an offset on, with no side effect (R70). An access
that leaves the arena returns unspecified data throughout (U22, log 17), new at every such read. -/
def State.hostReadMem (s : State) (offset count : Nat) : State :=
  { s with
    reply := .bytes ((List.range count).map fun i =>
      if offset + count ≤ s.cfg.arenaBytes then s.hostByte (offset + i)
      else Config.strayByte s.free.strayReads (offset + i))
    free :=
      if offset + count ≤ s.cfg.arenaBytes then s.free
      else { s.free with strayReads := s.free.strayReads + 1 } }

/-- A host arena write (R73): dropped whole where a byte of it lies below `CT_END` (R69) or outside
the arena (R73, U22). -/
def State.hostWriteMem (s : State) (offset : Nat) (bytes : List Byte) : State :=
  if s.cfg.tableEnd ≤ offset ∧ offset + bytes.length ≤ s.cfg.arenaBytes then
    s.writeBytes offset bytes
  else s

/-- What one host action does (R73). -/
def perform (a : HostAction) (s : State) : Host.Outcome State Fault Refusal :=
  match a with
  | .issue d => issue d s
  | .reset => .next s.hostReset
  | .readReg number => .next (s.hostReadReg number)
  | .readMem offset count => .next (s.hostReadMem offset count)
  | .writeMem offset bytes => .next (s.hostWriteMem offset bytes)

end Sys2Proof.Machine
end

