-- ==== Sys2Proof/WellFormed.lean ====
section
/-! DEFINITION. What is well formed: a parameter record (00_scope.md R9) and a command descriptor
(30_encoding.md R97), each check by name. Every term of `Instr` is a well-formed command: its
constructors have a field only where R92 and R94 leave one free. -/

namespace Sys2Proof

/-- `1 <= w_X <= 32` (R7). -/
def Config.limbBitsOk (c : Config) (X : Ctx) : Bool := 1 ≤ c.limbBits X && c.limbBits X ≤ 32

/-- An odd modulus above 1 (R9: "an even modulus (no mu_X exists)"); primality is the builder's
obligation and is not tested (R9). -/
def Config.modulusOk (c : Config) (X : Ctx) : Bool := 3 ≤ c.modulus X && c.modulus X % 2 == 1

/-- `n_X <= NMAX` (R9). -/
def Config.limbCountOk (c : Config) (X : Ctx) : Bool := c.limbs X ≤ c.nmax

/-- `1 < lambda < q` and `lambda^3 mod q = 1` (R7). -/
def Config.lambdaOk (c : Config) : Bool := 1 < c.lambda && c.lambda < c.q && c.lambda ^ 3 % c.q == 1

/-- `1 < beta < p` and `beta^3 mod p = 1` (R7). -/
def Config.betaOk (c : Config) : Bool := 1 < c.beta && c.beta < c.p && c.beta ^ 3 % c.p == 1

/-- `ARENA_BYTES` is a multiple of 4 with `CT_END <= ARENA_BYTES <= 2^32` (R62). -/
def Config.arenaOk (c : Config) : Bool :=
  c.arenaBytes % 4 == 0 && c.tableEnd ≤ c.arenaBytes && c.arenaBytes ≤ 2 ^ 32

/-- `ceil(bl_S / 2) + GLV_EPS <= K_S - 2` (R7, R212). -/
def Config.slackOk (c : Config) : Bool := c.halfBits + 2 ≤ c.radixBits .S

/-- The checks of a parameter record that the block's construction makes (R9). An ill-formed record
has no instance (R283). -/
def Config.wf (c : Config) : Bool :=
  c.limbBitsOk .F && c.limbBitsOk .S && c.modulusOk .F && c.modulusOk .S &&
  c.limbCountOk .F && c.limbCountOk .S && c.lambdaOk && c.betaOk && c.arenaOk && c.slackOk

/-- Both moduli are prime (R9, U23): the hypothesis a statement about inverses or square roots
carries. -/
def Config.PrimeModuli (c : Config) : Prop := Nat.Prime c.p ∧ Nat.Prime c.q

/-- The `opcode` field `W0[7:0]` (R91). -/
def Descriptor.opcode (d : Descriptor) : Nat := d.w0.toNat % 256

/-- The `ctx` field `W0[8]` (R91): 0 is F, 1 is S. -/
def Descriptor.ctx (d : Descriptor) : Ctx := if d.w0.toNat / 256 % 2 = 0 then .F else .S

/-- The reserved field `W0[31:9]` (R91). -/
def Descriptor.reserved (d : Descriptor) : Nat := d.w0.toNat / 512

/-- R97 (a): the opcode is one of the assigned values of R96. -/
def Descriptor.opcodeAssigned (d : Descriptor) : Bool :=
  (0x01 ≤ d.opcode && d.opcode ≤ 0x08) || (0x10 ≤ d.opcode && d.opcode ≤ 0x12) ||
  (0x20 ≤ d.opcode && d.opcode ≤ 0x22) || d.opcode == 0x30 ||
  (0x40 ≤ d.opcode && d.opcode ≤ 0x42) || (0x50 ≤ d.opcode && d.opcode ≤ 0x51) ||
  (0x60 ≤ d.opcode && d.opcode ≤ 0x64)

/-- R97 (b): `W0` bits 31:9 are zero. -/
def Descriptor.reservedZero (d : Descriptor) : Bool := d.reserved == 0

/-- R97 (c): `ctx` is the value R92 requires: 1 for the decomposer commands, 0 for the curve
commands and RESET_SCRATCH, any for the others. -/
def Descriptor.contextOk (d : Descriptor) : Bool :=
  if 0x40 ≤ d.opcode && d.opcode ≤ 0x42 then d.ctx == .S
  else if (0x50 ≤ d.opcode && d.opcode ≤ 0x51) || d.opcode == 0x62 then d.ctx == .F
  else true

/-- How many operand words R94 gives the opcode. -/
def Descriptor.operandCount (d : Descriptor) : Nat :=
  if d.opcode = 0x62 then 0
  else if d.opcode ∈ [0x01, 0x07, 0x21, 0x60, 0x61] then 1
  else if d.opcode ∈ [0x02, 0x03, 0x08, 0x11, 0x20, 0x51] then 2
  else if d.opcode = 0x42 then 4
  else if d.opcode = 0x50 then 5
  else 3

/-- R97 (d): an operand word that R94 marks `-` is zero. -/
def Descriptor.unusedZero (d : Descriptor) : Bool :=
  ([d.w1, d.w2, d.w3, d.w4, d.w5].drop d.operandCount).all (· == 0#32)

/-- A legal descriptor (R97). -/
def Descriptor.legal (d : Descriptor) : Bool :=
  d.opcodeAssigned && d.reservedZero && d.contextOk && d.unusedZero

end Sys2Proof
end

