-- ==== Sys2Proof/Machine/Step.lean ====
section
/-! DEFINITION. One step: the host's next action takes its place in the total order (20_memory.md
R72). The block fetches nothing (10_state.md R21): with nothing pending it is idle and holds its
state (60_exceptions.md R297). -/

namespace Sys2Proof.Machine

/-- One step of an instance. A parameter record that is not well formed has no instance (R283). -/
def step (s : State) : Host.Outcome State Fault Refusal :=
  if s.cfg.wf then
    match s.pending with
    | [] => .next s
    | a :: rest => perform a { s with pending := rest }
  else .fault .noInstance

/-- `s` with the instruction of bits `w` (numbered as the opcode table numbers them, every bit at or
above `nbits` zero) as the host's next action, so that the next step issues it (log 3). -/
def State.withFetchWord (s : State) (nbits w : Nat) : State :=
  { s with pending := .issue (Descriptor.ofNat (w % 2 ^ nbits)) :: s.pending }

end Sys2Proof.Machine
end

