-- ==== Sys2Proof/Machine/Pseudo.lean ====
section
/-! DEFINITION. The pseudo-instructions of 30_encoding.md R100 as the command sequences they expand
to, and running a sequence. -/

namespace Sys2Proof.Machine

/-- The operand word `C_c(NAME)` of a constant-table entry (R99). -/
def entryWord (c : Config) (X : Ctx) (e : Nat) : Word := BitVec.ofNat 32 (c.entryPtr X e)

/-- `TOMONT out, x` (R100): into Montgomery form. -/
def tomont (c : Config) (X : Ctx) (out x : Word) : List Instr :=
  [.mul X out x (entryWord c X 4), .reduce X out]

/-- `FROMMONT out, x` (R100): out of Montgomery form. -/
def frommont (c : Config) (X : Ctx) (out x : Word) : List Instr :=
  [.mul X out x (entryWord c X 1), .reduce X out]

/-- `MODADD out, x, y` (R100). -/
def modadd (X : Ctx) (out x y : Word) : List Instr := [.add X out x y, .reduce X out]

/-- `MODSUB out, x, y` (R100). -/
def modsub (c : Config) (X : Ctx) (out x y : Word) : List Instr :=
  [.add X out x (entryWord c X 2), .subpos X out out y, .reduce X out]

/-- `MODDBL out, x` (R100). -/
def moddbl (X : Ctx) (out x : Word) : List Instr := [.add X out x x, .reduce X out]

/-- Execute commands in order, stopping where one is refused. -/
def execAll : List Instr → State → Host.Outcome State Fault Refusal
  | [], s => .next s
  | i :: is, s =>
    match exec i s with
    | .next t => execAll is t
    | .fault f => .fault f
    | .refused r => .refused r

end Sys2Proof.Machine
end

