-- ==== Sys2Proof/Safety.lean ====
section
/-! DEFINITION. The words claims are written in: what an operand holds, the arena after an element
was laid in it, a state the machine can be in (`State.Inv`), a command that is ready to run. Each
is written from the layout rules of 20_memory.md, not from the functions that read and write. -/

namespace Sys2Proof

/-- A pointer at `size` bytes with alignment 4 that passes the checks of an `in` operand (R68). -/
abbrev Config.Readable (c : Config) (a size : Nat) : Prop := a % 4 = 0 ∧ a + size ≤ c.arenaBytes

/-- A pointer at `size` bytes with alignment 4 that passes the checks of a written operand (R68,
R69). -/
abbrev Config.Writable (c : Config) (a size : Nat) : Prop :=
  a % 4 = 0 ∧ a + size ≤ c.arenaBytes ∧ c.tableEnd ≤ a

end Sys2Proof

namespace Sys2Proof.Machine

/-- Byte `i` of an element with the number `v` (R64 to R66): byte `i mod 4` of limb `i / 4`. -/
def elemByte (c : Config) (X : Ctx) (v i : Nat) : Byte :=
  BitVec.ofNat 8 (v / 2 ^ (i / 4 * c.limbBits X) % 2 ^ c.limbBits X / 256 ^ (i % 4))

/-- The element of context `X` at offset `a` holds the number `v` (R66). -/
abbrev State.HoldsElem (s : State) (X : Ctx) (a v : Nat) : Prop :=
  v < s.cfg.radix X ∧ ∀ i < s.cfg.elemBytes X, s.byteAt (a + i) = some (elemByte s.cfg X v i)

/-- The `k` bytes at offset `a` hold the little-endian number `v` (R64). -/
abbrev State.HoldsBytes (s : State) (a k v : Nat) : Prop :=
  v < 256 ^ k ∧ ∀ i < k, s.byteAt (a + i) = some (BitVec.ofNat 8 (v / 256 ^ i))

/-- The array at offset `a` holds the numbers `vs`, element `i` at `a + i*EB` (R67). -/
abbrev State.HoldsArray (s : State) (X : Ctx) (a : Nat) (vs : List Nat) : Prop :=
  ∀ i < vs.length, s.HoldsElem X (a + i * s.cfg.elemBytes X) (vs.getD i 0)

/-- An arena `f` with the element `v` laid at `ptr` (R66). -/
def withElem (c : Config) (X : Ctx) (ptr v : Nat) (f : Nat → Option Byte) (a : Nat) : Option Byte :=
  if ptr ≤ a ∧ a < ptr + c.elemBytes X then some (elemByte c X v (a - ptr)) else f a

/-- An arena `f` with the `k` bytes of `v` laid at `ptr` (R64). -/
def withBytes (ptr k v : Nat) (f : Nat → Option Byte) (a : Nat) : Option Byte :=
  if ptr ≤ a ∧ a < ptr + k then some (BitVec.ofNat 8 (v / 256 ^ (a - ptr))) else f a

/-- An arena `f` whose `k` bytes from `ptr` on are unspecified (R33). -/
def withUnspecified (ptr k : Nat) (f : Nat → Option Byte) (a : Nat) : Option Byte :=
  if ptr ≤ a ∧ a < ptr + k then none else f a

/-- An arena `f` whose bytes in both `[p, p+k)` and `[q, q+k)` are unspecified (R71, U11). -/
def withOverlap (p q k : Nat) (f : Nat → Option Byte) (a : Nat) : Option Byte :=
  if (p ≤ a ∧ a < p + k) ∧ (q ≤ a ∧ a < q + k) then none else f a

/-- An arena `f` with the elements `vs` laid from `ptr` on (R67). -/
def withArray (c : Config) (X : Ctx) (ptr : Nat) (vs : List Nat) (f : Nat → Option Byte) (a : Nat) :
    Option Byte :=
  if ptr ≤ a ∧ a < ptr + vs.length * c.elemBytes X then
    some (elemByte c X (vs.getD ((a - ptr) / c.elemBytes X) 0) ((a - ptr) % c.elemBytes X))
  else f a

/-- A state an instance can be in: a well-formed parameter record (R9), the arena in its canonical
form with written bytes only where writing is allowed (R69), the allocator's invariant (R29), ERR
and FAULTINFO as R28 and R289 say, and the model's own counts of renewed free values in their
canonical form (log 5). -/
abbrev State.Inv (s : State) : Prop :=
  s.cfg.wf = true ∧ Memory.wf s.cfg s.mem = true ∧ Memory.inRange s.cfg s.mem = true ∧
  s.cfg.tableEnd ≤ s.base ∧ s.base ≤ s.offset ∧ s.offset ≤ s.cfg.arenaBytes ∧
  s.base % 4 = 0 ∧ s.offset % 4 = 0 ∧
  (s.faulted = false → s.err = 0#8 ∧ s.faultInfo = 0#32) ∧
  (s.faulted = true → 1#8 ≤ s.err ∧ s.err ≤ 7#8) ∧
  Renewals.wf s.free.renewals = true

/-- A state an instance can be in that is not faulted: the next command is decoded and run
(R281). -/
abbrev State.Ready (s : State) : Prop := s.Inv ∧ s.faulted = false

/-- Two intervals of `k` and `l` bytes share no byte. -/
abbrev Apart (a k b l : Nat) : Prop := a + k ≤ b ∨ b + l ≤ a

/-- The operands a command reads (R94): the `in` ones, and the in-place ones of REDUCE and
MAKEODD. -/
def inputsOf (c : Config) (i : Instr) : List Operand :=
  match i with
  | .reduce X x => [outElem c X x]
  | .makeodd X x => [outElem c X x]
  | _ => (operandsOf c i).filter fun o => !o.written

/-- The context a command works in (R92). -/
def ctxOf : Instr → Ctx
  | .iszero X .. | .isequal X .. | .isgreater X .. | .add X .. | .sub X .. | .subpos X ..
  | .reduce X .. | .copy X .. | .mul X .. | .sqr X .. | .lshift X .. | .inv X .. | .makeodd X ..
  | .batchinv X .. | .sqrt X .. | .allocStable X .. | .allocScratch X .. | .fromPacked X ..
  | .toPacked X .. => X
  | .decompose .. | .decomposeNomsb .. | .decomposeGen .. => .S
  | .addaffine .. | .endo .. | .resetScratch => .F

/-- The commands that write `OK` (R25). -/
def writesOk : Instr → Bool
  | .iszero .. | .isequal .. | .isgreater .. | .sqrt .. | .decompose .. | .decomposeNomsb ..
  | .decomposeGen .. => true
  | _ => false

/-- The commands that write `CB` (R26). -/
def writesCb : Instr → Bool
  | .add .. | .sub .. => true
  | _ => false

/-- The commands that write `RES` (R27). -/
def writesRes : Instr → Bool
  | .makeodd .. | .allocStable .. | .allocScratch .. => true
  | _ => false

/-- The command that writes `BASE` (R22, R29). -/
def writesBase : Instr → Bool
  | .allocStable .. => true
  | _ => false

/-- The commands that write `OFFSET` (R22, R29). -/
def writesOffset : Instr → Bool
  | .allocStable .. | .allocScratch .. | .resetScratch => true
  | _ => false

end Sys2Proof.Machine
end

