-- ==== Sys2Proof/Certificates/Slice0/Obligations.lean ====
section
/-! DEFINITION. The statements for the provers. Each says which rule of spec/ it formalises. A
statement about a command takes a state the machine can be in (`State.Ready`), operands that pass
the pointer checks (`Config.Readable`, `Config.Writable`) and inputs that hold numbers
(`State.HoldsElem`); it gives the whole next state: `t = { s with ... }` names every field that may
change, and the arena is given at every offset. -/

open Sys2Proof Sys2Proof.Machine

/-! ### Encoding -/

/-- R90, R91, R94: the 24 bytes of a command, whatever follows them, decode to that command. -/
def Obligations.DecodeBytesOfEncodeBytes : Prop :=
  ∀ (i : Instr) (rest : List Byte), decodeBytes (encodeBytes i ++ rest) = .ok (i, rest)

/-- R91 to R94: the decoder accepts a descriptor exactly for the one command whose encoding it
is. -/
def Obligations.DecodeAcceptsExactlyEncodings : Prop :=
  ∀ (d : Descriptor) (i : Instr), decode d = .ok i ↔ d = encode i

/-- Words the spec writes out (R99, R290) decode to the commands it says they are. -/
def Obligations.SpecWordsDecode : Prop :=
  decode ⟨0x00000010, 184, 176, 32, 0, 0⟩ = .ok (.mul .F 184 176 32) ∧
  decode ⟨0x00000004, 0xB2, 0xB0, 0x7D0, 0, 0⟩ = .ok (.add .F 178 176 2000) ∧
  decode ⟨0x00000108, 0xAC, 0, 0, 0, 0⟩ = .ok (.copy .S 172 0) ∧
  decode ⟨0x00000030, 0xA0, 0xC8, 0x18, 0, 0⟩ = .ok (.sqrt .F 160 200 24) ∧
  decode ⟨0x00000063, 2, 0x3FD, 2, 0, 0⟩ = .ok (.fromPacked .F 2 1021 2) ∧
  decode ⟨0x00000064, 0xAF, 0x18, 1, 0, 0⟩ = .ok (.toPacked .F 175 24 1) ∧
  decode ⟨0x00000022, 0x404, 0x400, 0, 0, 0⟩ = .ok (.batchinv .F 1028 1024 0) ∧
  decode ⟨0x00000210, 0xB8, 0xB0, 0x20, 0, 0⟩ = .error .reservedBits ∧
  decode ⟨0x00000040, 0xB0, 0xB8, 0xC0, 0, 0⟩ = .error .wrongContext ∧
  decode ⟨0x00000001, 0xB0, 4, 0, 0, 0⟩ = .error .unusedOperand ∧
  decode ⟨0x00000009, 0xB0, 0, 0, 0, 0⟩ = .error .unassignedOpcode

/-- R97: a descriptor that breaks a clause of the rule takes `Fault(ILLEGAL_COMMAND, W0)` with no
other effect; every other descriptor is a command and is executed. -/
def Obligations.IllegalDescriptorsFault : Prop :=
  (∀ (s : State) (d : Descriptor), s.faulted = false → d.legal = false →
    issue d s = .next { s with faulted := true, err := 1, faultInfo := d.w0 }) ∧
  (∀ d : Descriptor, d.legal = true → ∃ i, decode d = .ok i ∧ ∀ s, issue d s = exec i s) ∧
  (⟨0, 0, 0, 0, 0, 0⟩ : Descriptor).legal = false

/-! ### Steps, faults and reset -/

/-- R72, R73, R281: where the host's next action is to issue a descriptor that decodes to `i`, the
step is `exec i` on the state without that action; and a table word placed by `withFetchWord` runs
as the instruction the decoder reads from it. That the host's actions stand in a queue in the state
is the model's choice (log 3). -/
def Obligations.StepRunsTheDecodedCommand : Prop :=
  (∀ (s : State) (d : Descriptor) (rest : List HostAction) (i : Instr),
    s.cfg.wf = true → s.pending = .issue d :: rest → decode d = .ok i →
    step s = exec i { s with pending := rest }) ∧
  (∀ (s : State) (nbits w : Nat) (i : Instr),
    s.cfg.wf = true → decodeTableWord nbits w = some i →
    step (s.withFetchWord nbits w) = exec i s)

/-- R297, R283: with nothing pending the block is idle and holds its state; a record that is not
well formed has no instance (the model's stop `noInstance`, log 2; the queue is the model's,
log 3). -/
def Obligations.IdleHoldsState : Prop :=
  (∀ s : State, s.cfg.wf = true → s.pending = [] → step s = .next s) ∧
  (∀ s : State, s.cfg.wf = false → step s = .fault .noInstance)

/-- R287: a fault writes FAULTED, ERR and FAULTINFO and nothing else; while FAULTED is 1 issuing
does nothing at all; no host action but reset changes the three, and reset clears them. -/
def Obligations.FaultEntryAndStickiness : Prop :=
  (∀ (s : State) (i : Instr) (code : FaultCode) (info : Nat), s.faulted = false →
    faultOf s i = some (code, info) →
    exec i s = .next { s with
      faulted := true, err := errCode code, faultInfo := BitVec.ofNat 32 info }) ∧
  (∀ (s : State) (i : Instr), s.faulted = true → exec i s = .next s) ∧
  (∀ (s : State) (d : Descriptor), s.faulted = true → issue d s = .next s) ∧
  (∀ (s t : State) (a : HostAction), s.faulted = true → a ≠ .reset → perform a s = .next t →
    t.faulted = true ∧ t.err = s.err ∧ t.faultInfo = s.faultInfo) ∧
  (∀ s t : State, perform .reset s = .next t →
    t.faulted = false ∧ t.err = 0 ∧ t.faultInfo = 0)

/-- R289, R290: the first check that fails, in the order of the table, gives the one fault of a
command: the illegal descriptor, the codec length, the first misaligned operand, the first operand
out of range once all are aligned, the first write-protected operand once all are in range, then
the allocator's checks. -/
def Obligations.ChecksInOrder : Prop :=
  ∀ (s : State) (d : Descriptor), s.faulted = false →
    (d.legal = false →
      issue d s = .next { s with faulted := true, err := 1, faultInfo := d.w0 }) ∧
    ∀ i : Instr, decode d = .ok i →
      (∀ (X : Ctx) (a b len : Word), (i = .fromPacked X a b len ∨ i = .toPacked X a b len) →
        len.toNat ≠ s.cfg.packedBytes X →
        issue d s = .next { s with faulted := true, err := 2, faultInfo := len }) ∧
      ((∀ (X : Ctx) (a b len : Word), (i = .fromPacked X a b len ∨ i = .toPacked X a b len) →
          len.toNat = s.cfg.packedBytes X) →
        (∀ (pre : List Operand) (o : Operand) (post : List Operand),
          operandsOf s.cfg i = pre ++ o :: post →
          (∀ x ∈ pre, x.aligned = true → x.ptr % 4 = 0) →
          o.aligned = true → o.ptr % 4 ≠ 0 →
          issue d s = .next
            { s with faulted := true, err := 3, faultInfo := BitVec.ofNat 32 o.ptr }) ∧
        ((∀ x ∈ operandsOf s.cfg i, x.aligned = true → x.ptr % 4 = 0) →
          (∀ (pre : List Operand) (o : Operand) (post : List Operand),
          operandsOf s.cfg i = pre ++ o :: post →
            (∀ x ∈ pre, x.ptr + x.size ≤ s.cfg.arenaBytes) →
            s.cfg.arenaBytes < o.ptr + o.size →
            issue d s = .next
              { s with faulted := true, err := 4, faultInfo := BitVec.ofNat 32 o.ptr }) ∧
          ((∀ x ∈ operandsOf s.cfg i, x.ptr + x.size ≤ s.cfg.arenaBytes) →
            (∀ (pre : List Operand) (o : Operand) (post : List Operand),
          operandsOf s.cfg i = pre ++ o :: post →
              (∀ x ∈ pre, x.written = true → 0 < x.size → s.cfg.tableEnd ≤ x.ptr) →
              o.written = true → 0 < o.size → o.ptr < s.cfg.tableEnd →
              issue d s = .next
                { s with faulted := true, err := 5, faultInfo := BitVec.ofNat 32 o.ptr })))) ∧
      (∀ (X : Ctx) (k : Word), i = .allocStable X k → s.offset ≠ s.base →
        issue d s = .next
          { s with faulted := true, err := 6, faultInfo := BitVec.ofNat 32 s.offset }) ∧
      (∀ (X : Ctx) (k : Word), i = .allocStable X k → s.offset = s.base →
        s.cfg.arenaBytes < s.base + k.toNat * s.cfg.elemBytes X →
        issue d s = .next { s with faulted := true, err := 7, faultInfo := k }) ∧
      (∀ (X : Ctx) (k : Word), i = .allocScratch X k →
        s.cfg.arenaBytes < s.offset + k.toNat * s.cfg.elemBytes X →
        issue d s = .next { s with faulted := true, err := 7, faultInfo := k })

/-- R286: no fault depends on the value of any arena byte: a command that faults takes the same
fault whatever the arena holds, and the arena is kept. -/
def Obligations.FaultsIgnoreTheArena : Prop :=
  ∀ (s t : State) (i : Instr) (m : Memory),
    s.faulted = false → exec i s = .next t → t.faulted = true →
    t.mem = s.mem ∧ exec i { s with mem := m } = .next { t with mem := m }

/-- R310, R312: what reset leaves, from every state of an instance, faulted or not (the queue its
action comes from is the model's, log 3). -/
def Obligations.ResetState : Prop :=
  ∀ (s : State) (rest : List HostAction), s.cfg.wf = true → s.pending = .reset :: rest →
    ∃ t, step s = .next t ∧ t.cfg = s.cfg ∧
      t.ok = false ∧ t.cb = false ∧ t.faulted = false ∧ t.err = 0 ∧ t.res = 0 ∧
      t.faultInfo = 0 ∧ t.base = s.cfg.tableEnd ∧ t.offset = s.cfg.tableEnd ∧
      (∀ X e, e < 11 → t.HoldsElem X (s.cfg.entryPtr X e) (s.cfg.tableEntry X e)) ∧
      (∀ a, s.cfg.tableEnd ≤ a → t.byteAt a = none)

/-- R30: the stored integer of every entry of the two constant tables, at its offset, in every
state the machine can be in. -/
def Obligations.ConstantTableEntries : Prop :=
  ∀ s : State, s.Inv → ∀ X : Ctx,
    s.cfg.entryPtr .F 0 = 0 ∧ s.cfg.entryPtr .S 0 = 11 * s.cfg.elemBytes .F ∧
    s.cfg.tableEnd = 11 * s.cfg.elemBytes .F + 11 * s.cfg.elemBytes .S ∧
    (∀ e, s.cfg.entryPtr X e = s.cfg.entryPtr X 0 + e * s.cfg.elemBytes X) ∧
    s.HoldsElem X (s.cfg.entryPtr X 0) 0 ∧
    s.HoldsElem X (s.cfg.entryPtr X 1) 1 ∧
    s.HoldsElem X (s.cfg.entryPtr X 2) (s.cfg.modulus X) ∧
    s.HoldsElem X (s.cfg.entryPtr X 3) (s.cfg.radix X % s.cfg.modulus X) ∧
    s.HoldsElem X (s.cfg.entryPtr X 4) (s.cfg.radix X ^ 2 % s.cfg.modulus X) ∧
    s.HoldsElem X (s.cfg.entryPtr X 5)
      (2 ^ (3 * s.cfg.radixBits X - 2 * s.cfg.bl X) % s.cfg.modulus X) ∧
    s.HoldsElem X (s.cfg.entryPtr X 6) (2 * s.cfg.radix X % s.cfg.modulus X) ∧
    s.HoldsElem X (s.cfg.entryPtr X 7) (4 * s.cfg.radix X % s.cfg.modulus X) ∧
    s.HoldsElem X (s.cfg.entryPtr X 8) (8 * s.cfg.radix X % s.cfg.modulus X) ∧
    s.HoldsElem X (s.cfg.entryPtr X 9)
      (s.cfg.sqrtZ X ^ s.cfg.sqrtT X % s.cfg.modulus X * s.cfg.radix X % s.cfg.modulus X) ∧
    s.HoldsElem .F (s.cfg.entryPtr .F 10) (s.cfg.beta * s.cfg.radix .F % s.cfg.p) ∧
    s.HoldsElem .S (s.cfg.entryPtr .S 10) s.cfg.lambda

/-- R29, R30, R310: the state after reset is one the machine can be in (`State.Inv`), for the
default instance and for every well-formed parameter record. -/
def Obligations.ResetHasInvariant : Prop :=
  State.reset.Inv ∧ ∀ c : Config, c.wf = true → (State.resetOf c).Inv

/-- R28, R29, R69: every step keeps the invariant (the arena canonical, its written bytes above the
tables, `CT_END <= BASE <= OFFSET <= ARENA_BYTES` with both multiples of 4, ERR and FAULTINFO as
R28 says) and the parameter record. The canonical forms of the arena and of the counts behind the
free values are the model's (logs 7 and 5). -/
def Obligations.StepKeepsInvariant : Prop :=
  ∀ s t : State, s.Inv → step s = .next t → t.Inv ∧ t.cfg = s.cfg

/-- R30, R69: no step, of a command or of the host, changes a byte of the constant tables. -/
def Obligations.ConstantTablesNeverChange : Prop :=
  ∀ (s t : State) (a : Nat), s.Inv → step s = .next t → a < s.cfg.tableEnd →
    t.byteAt a = s.byteAt a

/-! ### Ownership of state -/

/-- R25 to R29: only the commands the rules name change OK, CB, RES, BASE and OFFSET; a command that
faults or is ignored changes none of them and no arena byte. -/
def Obligations.RegistersHaveOwners : Prop :=
  ∀ (s t : State) (i : Instr), exec i s = .next t →
    t.cfg = s.cfg ∧ t.pending = s.pending ∧ t.reply = s.reply ∧
    (writesOk i = false → t.ok = s.ok) ∧ (writesCb i = false → t.cb = s.cb) ∧
    (writesRes i = false → t.res = s.res) ∧ (writesBase i = false → t.base = s.base) ∧
    (writesOffset i = false → t.offset = s.offset) ∧
    (t.faulted = true → t.mem = s.mem ∧ t.ok = s.ok ∧ t.cb = s.cb ∧ t.res = s.res ∧
      t.base = s.base ∧ t.offset = s.offset) ∧
    (t.faulted = false → t.err = s.err ∧ t.faultInfo = s.faultInfo ∧ s.faulted = false)

/-- R70, R94: a command changes no arena byte outside its written operands, neither what the arena
holds there nor what the host reads there, an unspecified byte (a free value, log 5) included. -/
def Obligations.OnlyWrittenOperandsChange : Prop :=
  ∀ (s t : State) (i : Instr) (a : Nat), exec i s = .next t →
    (∀ o ∈ operandsOf s.cfg i, o.written = true → ¬(o.ptr ≤ a ∧ a < o.ptr + o.size)) →
    t.byteAt a = s.byteAt a ∧ t.hostByte a = s.hostByte a

/-- R319: no command reads OK, CB or RES: with other values in them it ends in the same way and
leaves the same arena and allocator, and the same value in each of them that it writes. -/
def Obligations.ResultsIgnoreTheFlags : Prop :=
  ∀ (s : State) (i : Instr) (ok cb : Bool) (res : Word),
    (∀ t, exec i s = .next t → ∃ t', exec i { s with ok := ok, cb := cb, res := res } = .next t' ∧
      t' = { t with ok := t'.ok, cb := t'.cb, res := t'.res } ∧
      (t.faulted = false → writesOk i = true → t'.ok = t.ok) ∧
      (t.faulted = false → writesCb i = true → t'.cb = t.cb) ∧
      (t.faulted = false → (∃ X x, i = .makeodd X x) ∨ (∃ X k, i = .allocStable X k) ∨
        (∃ X k, i = .allocScratch X k) → t'.res = t.res) ∧
      (t.faulted = true → t'.ok = ok ∧ t'.cb = cb ∧ t'.res = res)) ∧
    (∀ r, exec i s = .refused r →
      exec i { s with ok := ok, cb := cb, res := res } = .refused r)

/-- R33, R284 (U9): a command that passes its checks and would read a byte nobody has written, or
that was left unspecified, is refused. Which refusal it is where more than one precondition fails is
the model's choice (log 16). -/
def Obligations.UnspecifiedInputsRefused : Prop :=
  ∀ (s : State) (i : Instr) (o : Operand) (k : Nat), s.Ready → faultOf s i = none →
    o ∈ inputsOf s.cfg i → k < o.size → s.byteAt (o.ptr + k) = none →
    ∃ r, exec i s = .refused r

/-- R65, R284 (U10): a command that passes its checks and would read a limb slot with a bit at or
above `w` set is refused (which refusal: log 16). -/
def Obligations.MalformedSlotsRefused : Prop :=
  ∀ (s : State) (i : Instr) (o : Operand) (j v : Nat), s.Ready → faultOf s i = none →
    o ∈ inputsOf s.cfg i → o.aligned = true → 4 * j + 4 ≤ o.size →
    s.HoldsBytes (o.ptr + 4 * j) 4 v → 2 ^ s.cfg.limbBits (ctxOf i) ≤ v →
    ∃ r, exec i s = .refused r

/-! ### FieldEngine -/

/-- R122, R123, R124: the comparisons write `OK` with the test of the stored numbers, strict for
ISGREATER, and nothing else. -/
def Obligations.CompareResults : Prop :=
  ∀ (s : State) (X : Ctx) (x y : Word) (vx vy : Nat), s.Ready →
    s.cfg.Readable x.toNat (s.cfg.elemBytes X) → s.HoldsElem X x.toNat vx →
    exec (.iszero X x) s = .next { s with ok := decide (vx = 0) } ∧
    (s.cfg.Readable y.toNat (s.cfg.elemBytes X) → s.HoldsElem X y.toNat vy →
      exec (.isequal X x y) s = .next { s with ok := decide (vx = vy) } ∧
      exec (.isgreater X x y) s = .next { s with ok := decide (vx > vy) })

/-- R125: ADD writes the sum modulo `2^K` and the carry, and nothing else. -/
def Obligations.AddResult : Prop :=
  ∀ (s : State) (X : Ctx) (out x y : Word) (vx vy : Nat), s.Ready →
    s.cfg.Writable out.toNat (s.cfg.elemBytes X) → s.cfg.Readable x.toNat (s.cfg.elemBytes X) →
    s.cfg.Readable y.toNat (s.cfg.elemBytes X) →
    s.HoldsElem X x.toNat vx → s.HoldsElem X y.toNat vy →
    ∃ t, exec (.add X out x y) s = .next t ∧
      t = { s with mem := t.mem, cb := decide (s.cfg.radix X ≤ vx + vy) } ∧
      ∀ a, t.byteAt a = withElem s.cfg X out.toNat ((vx + vy) % s.cfg.radix X) s.byteAt a

/-- R126: SUB writes the difference modulo `2^K` and the borrow, and nothing else. -/
def Obligations.SubResult : Prop :=
  ∀ (s : State) (X : Ctx) (out x y : Word) (vx vy : Nat), s.Ready →
    s.cfg.Writable out.toNat (s.cfg.elemBytes X) → s.cfg.Readable x.toNat (s.cfg.elemBytes X) →
    s.cfg.Readable y.toNat (s.cfg.elemBytes X) →
    s.HoldsElem X x.toNat vx → s.HoldsElem X y.toNat vy →
    ∃ t, exec (.sub X out x y) s = .next t ∧
      t = { s with mem := t.mem, cb := decide (vx < vy) } ∧
      ∀ a, t.byteAt a =
        withElem s.cfg X out.toNat (if vx < vy then s.cfg.radix X - (vy - vx) else vx - vy)
          s.byteAt a

/-- R127: SUBPOS writes the difference of `x >= y` and nothing else, `CB` kept; with `x < y` it is
outside the specification and refused (U1). -/
def Obligations.SubposResult : Prop :=
  ∀ (s : State) (X : Ctx) (out x y : Word) (vx vy : Nat), s.Ready →
    s.cfg.Writable out.toNat (s.cfg.elemBytes X) → s.cfg.Readable x.toNat (s.cfg.elemBytes X) →
    s.cfg.Readable y.toNat (s.cfg.elemBytes X) →
    s.HoldsElem X x.toNat vx → s.HoldsElem X y.toNat vy →
    (vy ≤ vx → ∃ t, exec (.subpos X out x y) s = .next t ∧ t = { s with mem := t.mem } ∧
      ∀ a, t.byteAt a = withElem s.cfg X out.toNat (vx - vy) s.byteAt a) ∧
    (vx < vy → exec (.subpos X out x y) s = .refused .subposBorrows)

/-- R128, R129: REDUCE leaves the residue in place below `4p` and touches no flag; at or above `4p`
it is refused (U2). -/
def Obligations.ReduceResult : Prop :=
  ∀ (s : State) (X : Ctx) (x : Word) (v : Nat), s.Ready →
    s.cfg.Writable x.toNat (s.cfg.elemBytes X) → s.HoldsElem X x.toNat v →
    (v < 4 * s.cfg.modulus X → ∃ t, exec (.reduce X x) s = .next t ∧ t = { s with mem := t.mem } ∧
      ∀ a, t.byteAt a = withElem s.cfg X x.toNat (v % s.cfg.modulus X) s.byteAt a) ∧
    (4 * s.cfg.modulus X ≤ v → exec (.reduce X x) s = .refused .reduceBound)

/-- R131: COPY writes the number it read, not reduced, and nothing else. -/
def Obligations.CopyResult : Prop :=
  ∀ (s : State) (X : Ctx) (out x : Word) (v : Nat), s.Ready →
    s.cfg.Writable out.toNat (s.cfg.elemBytes X) → s.cfg.Readable x.toNat (s.cfg.elemBytes X) →
    s.HoldsElem X x.toNat v →
    ∃ t, exec (.copy X out x) s = .next t ∧ t = { s with mem := t.mem } ∧
      ∀ a, t.byteAt a = withElem s.cfg X out.toNat v s.byteAt a

/-! ### MontgomeryMultiplier -/

/-- R151, R153: MUL writes the one number `out < 2p` with `out * R = x*y + M*p`, `M` the quotient
digits `(-(x*y) * p^-1) mod R`, not reduced, and nothing else; outside its preconditions it is
refused (U3). -/
def Obligations.MulResult : Prop :=
  ∀ (s : State) (X : Ctx) (out x y : Word) (vx vy : Nat), s.Ready →
    s.cfg.Writable out.toNat (s.cfg.elemBytes X) → s.cfg.Readable x.toNat (s.cfg.elemBytes X) →
    s.cfg.Readable y.toNat (s.cfg.elemBytes X) →
    s.HoldsElem X x.toNat vx → s.HoldsElem X y.toNat vy →
    (vy + s.cfg.modulus X ≤ s.cfg.radix X → vx * vy < s.cfg.modulus X * s.cfg.radix X →
      ∃ t M v, exec (.mul X out x y) s = .next t ∧ t = { s with mem := t.mem } ∧
        M < s.cfg.radix X ∧ v * s.cfg.radix X = vx * vy + M * s.cfg.modulus X ∧
        v < 2 * s.cfg.modulus X ∧
        ∀ a, t.byteAt a = withElem s.cfg X out.toNat v s.byteAt a) ∧
    (s.cfg.radix X < vy + s.cfg.modulus X ∨ s.cfg.modulus X * s.cfg.radix X ≤ vx * vy →
      exec (.mul X out x y) s = .refused .mulBound)

/-- R155: SQR is bit for bit `MUL out, x, x`, in every state, and completes where that product meets
its preconditions. -/
def Obligations.SqrIsMulBySelf : Prop :=
  (∀ (s : State) (X : Ctx) (out x : Word), exec (.sqr X out x) s = exec (.mul X out x x) s) ∧
  ∀ (s : State) (X : Ctx) (out x : Word) (v : Nat), s.Ready →
    s.cfg.Writable out.toNat (s.cfg.elemBytes X) → s.cfg.Readable x.toNat (s.cfg.elemBytes X) →
    s.HoldsElem X x.toNat v →
    (v + s.cfg.modulus X ≤ s.cfg.radix X → v * v < s.cfg.modulus X * s.cfg.radix X →
      ∃ t M u, exec (.sqr X out x) s = .next t ∧ t = { s with mem := t.mem } ∧
        M < s.cfg.radix X ∧ u * s.cfg.radix X = v * v + M * s.cfg.modulus X ∧
        u < 2 * s.cfg.modulus X ∧
        ∀ a, t.byteAt a = withElem s.cfg X out.toNat u s.byteAt a) ∧
    (s.cfg.radix X < v + s.cfg.modulus X ∨ s.cfg.modulus X * s.cfg.radix X ≤ v * v →
      exec (.sqr X out x) s = .refused .mulBound)

/-- R156: LSHIFT writes what `k` modular doublings of `canon(x)` give, which is
`(x * 2^k) mod p`, for every 32-bit `k`, and nothing else; for `x >= 2p` it is refused (U4). -/
def Obligations.LshiftResult : Prop :=
  ∀ (s : State) (X : Ctx) (out x k : Word) (v : Nat), s.Ready →
    s.cfg.Writable out.toNat (s.cfg.elemBytes X) → s.cfg.Readable x.toNat (s.cfg.elemBytes X) →
    s.HoldsElem X x.toNat v →
    (v < 2 * s.cfg.modulus X →
      ∃ t u, exec (.lshift X out x k) s = .next t ∧ t = { s with mem := t.mem } ∧
        u = (fun b => if 2 * b ≥ s.cfg.modulus X then 2 * b - s.cfg.modulus X else 2 * b)^[k.toNat]
          (s.cfg.canon X v) ∧
        u = v * 2 ^ k.toNat % s.cfg.modulus X ∧
        ∀ a, t.byteAt a = withElem s.cfg X out.toNat u s.byteAt a) ∧
    (2 * s.cfg.modulus X ≤ v → exec (.lshift X out x k) s = .refused .lshiftBound)

/-! ### Inverter -/

/-- R171: with a prime modulus INV writes the canonical `out` with `a * out = R^2` modulo `p`, `a`
the residue of `x`, so that `fmul(a, out) = R1`, and nothing else; outside its preconditions it is
refused (U5). -/
def Obligations.InvResult : Prop :=
  ∀ (s : State) (X : Ctx) (out x : Word) (v : Nat), s.Ready → s.cfg.PrimeModuli →
    s.cfg.Writable out.toNat (s.cfg.elemBytes X) → s.cfg.Readable x.toNat (s.cfg.elemBytes X) →
    s.HoldsElem X x.toNat v →
    (v < 2 * s.cfg.modulus X → v % s.cfg.modulus X ≠ 0 →
      ∃ t u, exec (.inv X out x) s = .next t ∧ t = { s with mem := t.mem } ∧
        0 < u ∧ u < s.cfg.modulus X ∧
        v * u % s.cfg.modulus X = s.cfg.radix X ^ 2 % s.cfg.modulus X ∧
        s.cfg.fmul X (s.cfg.canon X v) u = s.cfg.radix X % s.cfg.modulus X ∧
        ∀ a, t.byteAt a = withElem s.cfg X out.toNat u s.byteAt a) ∧
    (2 * s.cfg.modulus X ≤ v ∨ v % s.cfg.modulus X = 0 →
      exec (.inv X out x) s = .refused .invOperand)

/-- R176: MAKEODD strips the trailing zero bits of a nonzero number in place and puts their count in
`RES`, and nothing else; of zero it is refused (U6). -/
def Obligations.MakeoddResult : Prop :=
  ∀ (s : State) (X : Ctx) (x : Word) (v : Nat), s.Ready →
    s.cfg.Writable x.toNat (s.cfg.elemBytes X) → s.HoldsElem X x.toNat v →
    (v ≠ 0 → ∃ t z u, exec (.makeodd X x) s = .next t ∧ v = u * 2 ^ z ∧ u % 2 = 1 ∧
      t = { s with mem := t.mem, res := BitVec.ofNat 32 z } ∧
      ∀ a, t.byteAt a = withElem s.cfg X x.toNat u s.byteAt a) ∧
    (v = 0 → exec (.makeodd X x) s = .refused .makeoddZero)

/-- R181: with a prime modulus BATCHINV writes, element by element, the inverse INV gives, and
nothing else; `m = 0` reads and writes nothing; overlapping arrays or an element that is `>= 2p` or
zero modulo `p` are refused (U7). That the overlap is the refusal named where both fail is the
model's choice (log 16). -/
def Obligations.BatchinvResult : Prop :=
  ∀ (s : State) (X : Ctx) (out x m : Word) (vs : List Nat), s.Ready → s.cfg.PrimeModuli →
    m.toNat = vs.length →
    s.cfg.Readable out.toNat (m.toNat * s.cfg.elemBytes X) →
    (0 < m.toNat → s.cfg.tableEnd ≤ out.toNat) →
    s.cfg.Readable x.toNat (m.toNat * s.cfg.elemBytes X) →
    s.HoldsArray X x.toNat vs →
    (m.toNat = 0 → exec (.batchinv X out x m) s = .next s) ∧
    (Apart out.toNat (m.toNat * s.cfg.elemBytes X) x.toNat (m.toNat * s.cfg.elemBytes X) →
      (∀ v ∈ vs, v < 2 * s.cfg.modulus X ∧ v % s.cfg.modulus X ≠ 0) →
      ∃ t us, exec (.batchinv X out x m) s = .next t ∧ t = { s with mem := t.mem } ∧
        us.length = vs.length ∧
        (∀ j < vs.length, us.getD j 0 < s.cfg.modulus X ∧
          vs.getD j 0 * us.getD j 0 % s.cfg.modulus X =
            s.cfg.radix X ^ 2 % s.cfg.modulus X ∧
          us.getD j 0 = invValue s.cfg X (s.cfg.canon X (vs.getD j 0))) ∧
        ∀ a, t.byteAt a = withArray s.cfg X out.toNat us s.byteAt a) ∧
    (¬Apart out.toNat (m.toNat * s.cfg.elemBytes X) x.toNat (m.toNat * s.cfg.elemBytes X) →
      exec (.batchinv X out x m) s = .refused .batchinvOverlap) ∧
    (Apart out.toNat (m.toNat * s.cfg.elemBytes X) x.toNat (m.toNat * s.cfg.elemBytes X) →
      (∃ v ∈ vs, 2 * s.cfg.modulus X ≤ v ∨ v % s.cfg.modulus X = 0) →
      exec (.batchinv X out x m) s = .refused .batchinvOperand)

/-! ### SquareRootSolver -/

/-- R192, R193, R194: with a prime modulus SQRT of `x < 2p` writes `OK` and a canonical root where
the residue of `x` has one (`r` with `fmul(r, r) = canon(x)`, that is: where the value `x` represents
is a square, log 23), zero included; else `OK = 0` and the bytes of `out` are unspecified; the
scratch bytes are unspecified in both cases; nothing else changes. For `x >= 2p` it is refused
(U8). -/
def Obligations.SqrtResult : Prop :=
  ∀ (s : State) (X : Ctx) (scratch out x : Word) (v : Nat), s.Ready → s.cfg.PrimeModuli →
    s.cfg.Writable scratch.toNat (4 * s.cfg.elemBytes X) →
    s.cfg.Writable out.toNat (s.cfg.elemBytes X) → s.cfg.Readable x.toNat (s.cfg.elemBytes X) →
    s.HoldsElem X x.toNat v →
    (v < 2 * s.cfg.modulus X →
      (∃ r < s.cfg.modulus X, s.cfg.fmul X r r = s.cfg.canon X v) →
      ∃ t u, exec (.sqrt X scratch out x) s = .next t ∧
        t = { s with mem := t.mem, ok := true, free := t.free } ∧
        u < s.cfg.modulus X ∧ s.cfg.fmul X u u = s.cfg.canon X v ∧
        (s.cfg.canon X v = 0 → u = 0) ∧
        ∀ a, t.byteAt a = withUnspecified scratch.toNat (4 * s.cfg.elemBytes X)
          (withElem s.cfg X out.toNat u s.byteAt) a) ∧
    (v < 2 * s.cfg.modulus X →
      ¬(∃ r < s.cfg.modulus X, s.cfg.fmul X r r = s.cfg.canon X v) →
      ∃ t, exec (.sqrt X scratch out x) s = .next t ∧
        t = { s with mem := t.mem, ok := false, free := t.free } ∧
        ∀ a, t.byteAt a = withUnspecified scratch.toNat (4 * s.cfg.elemBytes X)
          (withUnspecified out.toNat (s.cfg.elemBytes X) s.byteAt) a) ∧
    (2 * s.cfg.modulus X ≤ v → exec (.sqrt X scratch out x) s = .refused .sqrtBound)

/-! ### ScalarDecomposer -/

/-- R214, R215: DECOMPOSE of `s < q`: the rounded coefficients, the two signed results in two's
complement of `K` bits, `OK` the half-length test, nothing else; bytes in both outputs are
unspecified (R71). For `s >= q` it is refused (U14). -/
def Obligations.DecomposeResult : Prop :=
  ∀ (s : State) (out0 out1 sc : Word) (v : Nat) (c1 c2 s0 s1 : Int), s.Ready →
    s.cfg.Writable out0.toNat (s.cfg.elemBytes .S) →
    s.cfg.Writable out1.toNat (s.cfg.elemBytes .S) →
    s.cfg.Readable sc.toNat (s.cfg.elemBytes .S) → s.HoldsElem .S sc.toNat v →
    c1 = s.cfg.glvBasis.e1 *
      ((v * s.cfg.g1 + 2 ^ (s.cfg.barrettShift - 1)) / 2 ^ s.cfg.barrettShift : Nat) →
    c2 = s.cfg.glvBasis.e2 *
      ((v * s.cfg.g2 + 2 ^ (s.cfg.barrettShift - 1)) / 2 ^ s.cfg.barrettShift : Nat) →
    s0 = v - c1 * s.cfg.glvBasis.a1 - c2 * s.cfg.glvBasis.a2 →
    s1 = -c1 * s.cfg.glvBasis.b1 - c2 * s.cfg.glvBasis.b2 →
    (v < s.cfg.q → ∃ t, exec (.decompose out0 out1 sc) s = .next t ∧
      t = { s with
        mem := t.mem
        ok := decide (s0.natAbs < 2 ^ s.cfg.halfBits ∧ s1.natAbs < 2 ^ s.cfg.halfBits)
        free := t.free } ∧
      ∀ a, t.byteAt a = withOverlap out0.toNat out1.toNat (s.cfg.elemBytes .S)
        (withElem s.cfg .S out1.toNat (twos (s.cfg.radixBits .S) s1)
          (withElem s.cfg .S out0.toNat (twos (s.cfg.radixBits .S) s0) s.byteAt)) a) ∧
    (s.cfg.q ≤ v → exec (.decompose out0 out1 sc) s = .refused .scalarBound)

/-- R225: DECOMPOSE_NOMSB truncates where DECOMPOSE rounds; the rest is as in R214. That the skipped
`correction` is the rounding bit is the spec's reading (R226, log 20). -/
def Obligations.DecomposeNomsbResult : Prop :=
  ∀ (s : State) (out0 out1 sc : Word) (v : Nat) (c1 c2 s0 s1 : Int), s.Ready →
    s.cfg.Writable out0.toNat (s.cfg.elemBytes .S) →
    s.cfg.Writable out1.toNat (s.cfg.elemBytes .S) →
    s.cfg.Readable sc.toNat (s.cfg.elemBytes .S) → s.HoldsElem .S sc.toNat v →
    c1 = s.cfg.glvBasis.e1 * (v * s.cfg.g1 / 2 ^ s.cfg.barrettShift : Nat) →
    c2 = s.cfg.glvBasis.e2 * (v * s.cfg.g2 / 2 ^ s.cfg.barrettShift : Nat) →
    s0 = v - c1 * s.cfg.glvBasis.a1 - c2 * s.cfg.glvBasis.a2 →
    s1 = -c1 * s.cfg.glvBasis.b1 - c2 * s.cfg.glvBasis.b2 →
    (v < s.cfg.q → ∃ t, exec (.decomposeNomsb out0 out1 sc) s = .next t ∧
      t = { s with
        mem := t.mem
        ok := decide (s0.natAbs < 2 ^ s.cfg.halfBits ∧ s1.natAbs < 2 ^ s.cfg.halfBits)
        free := t.free } ∧
      ∀ a, t.byteAt a = withOverlap out0.toNat out1.toNat (s.cfg.elemBytes .S)
        (withElem s.cfg .S out1.toNat (twos (s.cfg.radixBits .S) s1)
          (withElem s.cfg .S out0.toNat (twos (s.cfg.radixBits .S) s0) s.byteAt)) a) ∧
    (s.cfg.q ≤ v → exec (.decomposeNomsb out0 out1 sc) s = .refused .scalarBound)

/-- R230: DECOMPOSE_GEN computes the basis of `(q, lam)` now and rounds exactly to nearest; the rest
is as in R214. For `s >= q`, or `lam = 0` or `lam >= q`, it is refused (U14, U15). That U14 is the
refusal named where both fail is the model's choice (log 16). -/
def Obligations.DecomposeGenResult : Prop :=
  ∀ (s : State) (out0 out1 sc lam : Word) (v l : Nat) (b : Basis) (c1 c2 s0 s1 : Int), s.Ready →
    s.cfg.Writable out0.toNat (s.cfg.elemBytes .S) →
    s.cfg.Writable out1.toNat (s.cfg.elemBytes .S) →
    s.cfg.Readable sc.toNat (s.cfg.elemBytes .S) → s.HoldsElem .S sc.toNat v →
    s.cfg.Readable lam.toNat (s.cfg.elemBytes .S) → s.HoldsElem .S lam.toNat l →
    b = basis s.cfg.q l →
    c1 = b.e1 * ((2 * v * b.b2.natAbs + s.cfg.q) / (2 * s.cfg.q) : Nat) →
    c2 = b.e2 * ((2 * v * b.b1.natAbs + s.cfg.q) / (2 * s.cfg.q) : Nat) →
    s0 = v - c1 * b.a1 - c2 * b.a2 → s1 = -c1 * b.b1 - c2 * b.b2 →
    (v < s.cfg.q → 0 < l → l < s.cfg.q →
      ∃ t, exec (.decomposeGen out0 out1 sc lam) s = .next t ∧
      t = { s with
        mem := t.mem
        ok := decide (s0.natAbs < 2 ^ s.cfg.halfBits ∧ s1.natAbs < 2 ^ s.cfg.halfBits)
        free := t.free } ∧
      ∀ a, t.byteAt a = withOverlap out0.toNat out1.toNat (s.cfg.elemBytes .S)
        (withElem s.cfg .S out1.toNat (twos (s.cfg.radixBits .S) s1)
          (withElem s.cfg .S out0.toNat (twos (s.cfg.radixBits .S) s0) s.byteAt)) a) ∧
    (s.cfg.q ≤ v → exec (.decomposeGen out0 out1 sc lam) s = .refused .scalarBound) ∧
    (v < s.cfg.q → l = 0 ∨ s.cfg.q ≤ l →
      exec (.decomposeGen out0 out1 sc lam) s = .refused .lambdaBound)

/-! ### CurveOps -/

/-- R241, R242, R243: ADDAFFINE writes the formula's `x3`, `y3` for whatever five values below `2p`
it reads, leaves the scratch bytes unspecified, and changes nothing else; `out` may overlap `P1`
and `d`. Where `out` overlaps `P2`, or a value is `>= 2p`, it is refused (U17, U16). That U17 is the
refusal named where both fail is the model's choice (log 16). -/
def Obligations.AddaffineResult : Prop :=
  ∀ (s : State) (scratch out p1 p2 d : Word) (x1 y1 x2 y2 dv m x3 y3 : Nat), s.Ready →
    s.cfg.Writable scratch.toNat (2 * s.cfg.elemBytes .F) →
    s.cfg.Writable out.toNat (2 * s.cfg.elemBytes .F) →
    s.cfg.Readable p1.toNat (2 * s.cfg.elemBytes .F) →
    s.cfg.Readable p2.toNat (2 * s.cfg.elemBytes .F) →
    s.cfg.Readable d.toNat (s.cfg.elemBytes .F) →
    s.HoldsElem .F p1.toNat x1 → s.HoldsElem .F (p1.toNat + s.cfg.elemBytes .F) y1 →
    s.HoldsElem .F p2.toNat x2 → s.HoldsElem .F (p2.toNat + s.cfg.elemBytes .F) y2 →
    s.HoldsElem .F d.toNat dv →
    m = s.cfg.fmul .F (dv % s.cfg.p) (s.cfg.fsub .F (y2 % s.cfg.p) (y1 % s.cfg.p)) →
    x3 = s.cfg.fsub .F (s.cfg.fsub .F (s.cfg.fsqr .F m) (x1 % s.cfg.p)) (x2 % s.cfg.p) →
    y3 = s.cfg.fsub .F (s.cfg.fmul .F m (s.cfg.fsub .F (x1 % s.cfg.p) x3)) (y1 % s.cfg.p) →
    (Apart out.toNat (2 * s.cfg.elemBytes .F) p2.toNat (2 * s.cfg.elemBytes .F) →
      (∀ v ∈ [x1, y1, x2, y2, dv], v < 2 * s.cfg.p) →
      ∃ t, exec (.addaffine scratch out p1 p2 d) s = .next t ∧
        t = { s with mem := t.mem, free := t.free } ∧ x3 < s.cfg.p ∧ y3 < s.cfg.p ∧
        ∀ a, t.byteAt a = withUnspecified scratch.toNat (2 * s.cfg.elemBytes .F)
          (withElem s.cfg .F (out.toNat + s.cfg.elemBytes .F) y3
            (withElem s.cfg .F out.toNat x3 s.byteAt)) a) ∧
    (¬Apart out.toNat (2 * s.cfg.elemBytes .F) p2.toNat (2 * s.cfg.elemBytes .F) →
      exec (.addaffine scratch out p1 p2 d) s = .refused .addaffineOverlap) ∧
    (Apart out.toNat (2 * s.cfg.elemBytes .F) p2.toNat (2 * s.cfg.elemBytes .F) →
      (∃ v ∈ [x1, y1, x2, y2, dv], 2 * s.cfg.p ≤ v) →
      exec (.addaffine scratch out p1 p2 d) s = .refused .addaffineBound)

/-- R246: ENDO writes `fmul(BETA, canon(x))` and the stored `y` unchanged, and nothing else; for
`x >= 2p` it is refused (U18). -/
def Obligations.EndoResult : Prop :=
  ∀ (s : State) (out p : Word) (x y : Nat), s.Ready →
    s.cfg.Writable out.toNat (2 * s.cfg.elemBytes .F) →
    s.cfg.Readable p.toNat (2 * s.cfg.elemBytes .F) →
    s.HoldsElem .F p.toNat x → s.HoldsElem .F (p.toNat + s.cfg.elemBytes .F) y →
    (x < 2 * s.cfg.p → ∃ t u, exec (.endo out p) s = .next t ∧ t = { s with mem := t.mem } ∧
      u = s.cfg.fmul .F (s.cfg.mont .F s.cfg.beta) (s.cfg.canon .F x) ∧
      u = s.cfg.beta * x % s.cfg.p ∧
      ∀ a, t.byteAt a = withElem s.cfg .F (out.toNat + s.cfg.elemBytes .F) y
        (withElem s.cfg .F out.toNat u s.byteAt) a) ∧
    (2 * s.cfg.p ≤ x → exec (.endo out p) s = .refused .endoBound)

/-! ### MemoryArena and LimbLayout -/

/-- R256: the three outcomes of ALLOC_STABLE, for every `k`. BASE and OFFSET are numbers up to
`ARENA_BYTES` of which RES takes the low 32 bits, the model's reading (log 8). -/
def Obligations.AllocStableResult : Prop :=
  ∀ (s : State) (X : Ctx) (k : Word), s.Ready →
    (s.offset = s.base → s.base + k.toNat * s.cfg.elemBytes X ≤ s.cfg.arenaBytes →
      exec (.allocStable X k) s = .next { s with
        res := BitVec.ofNat 32 s.base
        base := s.base + k.toNat * s.cfg.elemBytes X
        offset := s.base + k.toNat * s.cfg.elemBytes X }) ∧
    (s.offset ≠ s.base → exec (.allocStable X k) s = .next
      { s with faulted := true, err := 6, faultInfo := BitVec.ofNat 32 s.offset }) ∧
    (s.offset = s.base → s.cfg.arenaBytes < s.base + k.toNat * s.cfg.elemBytes X →
      exec (.allocStable X k) s = .next { s with faulted := true, err := 7, faultInfo := k })

/-- R257: the two outcomes of ALLOC_SCRATCH, for every `k`. OFFSET is a number up to `ARENA_BYTES`
of which RES takes the low 32 bits, the model's reading (log 8). -/
def Obligations.AllocScratchResult : Prop :=
  ∀ (s : State) (X : Ctx) (k : Word), s.Ready →
    (s.offset + k.toNat * s.cfg.elemBytes X ≤ s.cfg.arenaBytes →
      exec (.allocScratch X k) s = .next { s with
        res := BitVec.ofNat 32 s.offset
        offset := s.offset + k.toNat * s.cfg.elemBytes X }) ∧
    (s.cfg.arenaBytes < s.offset + k.toNat * s.cfg.elemBytes X →
      exec (.allocScratch X k) s = .next { s with faulted := true, err := 7, faultInfo := k })

/-- R258: RESET_SCRATCH moves OFFSET back to BASE and does nothing else. -/
def Obligations.ResetScratchResult : Prop :=
  ∀ s : State, s.Ready → exec .resetScratch s = .next { s with offset := s.base }

/-- R259: FROM_PACKED of a packed `v < p` writes `(v * R) mod p` and nothing else; a length that is
not `PB` faults before the pointers are looked at; `v >= p` is refused (U19). -/
def Obligations.FromPackedResult : Prop :=
  ∀ (s : State) (X : Ctx) (elem bytes len : Word), s.Ready →
    (len.toNat ≠ s.cfg.packedBytes X → exec (.fromPacked X elem bytes len) s = .next
      { s with faulted := true, err := 2, faultInfo := len }) ∧
    ∀ v, len.toNat = s.cfg.packedBytes X →
      s.cfg.Writable elem.toNat (s.cfg.elemBytes X) →
      bytes.toNat + s.cfg.packedBytes X ≤ s.cfg.arenaBytes →
      s.HoldsBytes bytes.toNat (s.cfg.packedBytes X) v →
      (v < s.cfg.modulus X → ∃ t, exec (.fromPacked X elem bytes len) s = .next t ∧
        t = { s with mem := t.mem } ∧
        ∀ a, t.byteAt a =
          withElem s.cfg X elem.toNat (v * s.cfg.radix X % s.cfg.modulus X) s.byteAt a) ∧
      (s.cfg.modulus X ≤ v → exec (.fromPacked X elem bytes len) s = .refused .packedBound)

/-- R260: TO_PACKED of an element `a < 4p` writes the `PB` bytes of `v < p` with
`v * R = a` modulo `p`, at any alignment, and nothing else; a length that is not `PB` faults before
the pointers are looked at; `a >= 4p` is refused (U20). -/
def Obligations.ToPackedResult : Prop :=
  ∀ (s : State) (X : Ctx) (bytes elem len : Word), s.Ready →
    (len.toNat ≠ s.cfg.packedBytes X → exec (.toPacked X bytes elem len) s = .next
      { s with faulted := true, err := 2, faultInfo := len }) ∧
    ∀ a, len.toNat = s.cfg.packedBytes X →
      s.cfg.Readable elem.toNat (s.cfg.elemBytes X) → s.cfg.tableEnd ≤ bytes.toNat →
      bytes.toNat + s.cfg.packedBytes X ≤ s.cfg.arenaBytes →
      s.HoldsElem X elem.toNat a →
      (a < 4 * s.cfg.modulus X → ∃ t v, exec (.toPacked X bytes elem len) s = .next t ∧
        t = { s with mem := t.mem } ∧ v < s.cfg.modulus X ∧
        v * s.cfg.radix X % s.cfg.modulus X = a % s.cfg.modulus X ∧
        v < 256 ^ s.cfg.packedBytes X ∧
        ∀ b, t.byteAt b = withBytes bytes.toNat (s.cfg.packedBytes X) v s.byteAt b) ∧
      (4 * s.cfg.modulus X ≤ a → exec (.toPacked X bytes elem len) s = .refused .unpackBound)

/-! ### The host -/

/-- R69, R73: a host write inside `[CT_END, ARENA_BYTES)` stores its bytes and changes nothing else,
also while FAULTED is 1; one that begins below `CT_END` is dropped whole, and so is one that leaves
the arena (log 17; the queue is the model's, log 3). -/
def Obligations.HostWriteStoresOrIsDropped : Prop :=
  ∀ (s : State) (offset : Nat) (bytes : List Byte) (rest : List HostAction),
    s.cfg.wf = true → s.pending = .writeMem offset bytes :: rest →
    (s.cfg.tableEnd ≤ offset → offset + bytes.length ≤ s.cfg.arenaBytes →
      ∃ t, step s = .next t ∧ t = { s with pending := rest, mem := t.mem } ∧
        ∀ a, t.byteAt a =
          if offset ≤ a ∧ a < offset + bytes.length then bytes[a - offset]? else s.byteAt a) ∧
    (offset < s.cfg.tableEnd ∨ s.cfg.arenaBytes < offset + bytes.length →
      step s = .next { s with pending := rest })

/-- R24: the five registers as the host reads them by number, every other number 0, with no side
effect (what was read stands in the model's `reply`, log 4; BASE and OFFSET keep their low 32 bits,
log 8). -/
def Obligations.HostRegisterRead : Prop :=
  ∀ (s : State) (n : Nat) (rest : List HostAction), s.cfg.wf = true →
    s.pending = .readReg n :: rest →
    ∃ w : Word, step s = .next { s with pending := rest, reply := .reg w } ∧
      (n = 0 → w.getLsbD 0 = s.ok ∧ w.getLsbD 1 = s.cb ∧ w.getLsbD 2 = s.faulted ∧
        w.extractLsb' 3 5 = 0#5 ∧ w.extractLsb' 8 8 = s.err ∧ w.extractLsb' 16 16 = 0#16) ∧
      (n = 1 → w = s.res) ∧ (n = 2 → w = s.faultInfo) ∧
      (n = 3 → w = BitVec.ofNat 32 s.base) ∧ (n = 4 → w = BitVec.ofNat 32 s.offset) ∧
      (5 ≤ n → w = 0)

/-- R70, R73: a host arena read in range returns what the host reads of each byte, lowest offset
first: the byte the arena holds where that is specified; it has no effect on the block or on the
choice of free values, and a second read of the same bytes gives the same bytes. One out of range
returns as many bytes, of which nothing is said, and has no effect on the block (U22, log 17; the
model counts it, log 5). What was read stands in the model's `reply` (log 4). -/
def Obligations.HostArenaRead : Prop :=
  ∀ (s : State) (offset count : Nat) (rest : List HostAction), s.cfg.wf = true →
    s.pending = .readMem offset count :: rest →
    (offset + count ≤ s.cfg.arenaBytes →
      ∃ t, step s = .next t ∧
        t = { s with
          pending := rest
          reply := .bytes ((List.range count).map fun j => s.hostByte (offset + j)) } ∧
        (∀ j < count, ∀ b, s.byteAt (offset + j) = some b → s.hostByte (offset + j) = b) ∧
        ∀ rest', rest = .readMem offset count :: rest' →
          step t = .next { t with pending := rest' }) ∧
    (s.cfg.arenaBytes < offset + count →
      ∃ data : List Byte, data.length = count ∧ step s = .next { s with
        pending := rest
        reply := .bytes data
        free := { s.free with strayReads := s.free.strayReads + 1 } })

/-! ### Arithmetic of the internal units -/

/-- R150: `mu` is the unique number below `2^w` with `(p * mu + 1) mod 2^w = 0`. -/
def Obligations.MuIsUnique : Prop :=
  ∀ (c : Config) (X : Ctx), c.wf = true →
    c.mu X < 2 ^ c.limbBits X ∧ (c.modulus X * c.mu X + 1) % 2 ^ c.limbBits X = 0 ∧
    ∀ v < 2 ^ c.limbBits X, (c.modulus X * v + 1) % 2 ^ c.limbBits X = 0 → v = c.mu X

/-- R152, R153 (a): whenever `y + p <= R` the limb algorithm with its two carry chains gives the
number of R151, and the accumulator after every step has `n` limbs, each below `2^w`: the sum
`cA + cB` that becomes the top limb does not overflow. (The model's accumulator keeps a top limb of
any size, so the bound is a claim.) -/
def Obligations.LimbAlgorithmIsMul : Prop :=
  ∀ (c : Config) (X : Ctx) (x y : Nat), c.wf = true → x < c.radix X →
    y + c.modulus X ≤ c.radix X →
    c.cios X x y = c.mulValue X x y ∧
    ∀ i ≤ c.limbs X, (c.ciosAfter X x y i).length = c.limbs X ∧
      ∀ t ∈ c.ciosAfter X x y i, t < 2 ^ c.limbBits X

/-- R158: `power` raises the represented value: `power(mont(v), e) = mont(v^e)`. -/
def Obligations.PowerIsExponentiation : Prop :=
  ∀ (c : Config) (X : Ctx) (v e : Nat), c.wf = true →
    c.power X (c.mont X v) e = c.mont X (v ^ e)

/-- R181, R182: the procedure of BATCHINV, with one inversion, gives what INV gives element by
element. -/
def Obligations.BatchIsElementwise : Prop :=
  ∀ (c : Config) (X : Ctx) (xs : List Nat), c.wf = true → c.PrimeModuli →
    (∀ x ∈ xs, 0 < x ∧ x < c.modulus X) → batchInvValues c X xs = xs.map (invValue c X)

/-- R191: the square-root precomputation: `p - 1 = 2^S * T` with `T` odd and `S >= 1`, and `z` the
least number from 2 on with `z^((p-1)/2) mod p != 1`, below the prime modulus. -/
def Obligations.SqrtPrecomputation : Prop :=
  ∀ (c : Config) (X : Ctx), c.wf = true → c.PrimeModuli →
    c.modulus X - 1 = 2 ^ c.sqrtS X * c.sqrtT X ∧ c.sqrtT X % 2 = 1 ∧ 1 ≤ c.sqrtS X ∧
    2 ≤ c.sqrtZ X ∧ c.sqrtZ X < c.modulus X ∧
    c.sqrtZ X ^ ((c.modulus X - 1) / 2) % c.modulus X ≠ 1 ∧
    (∀ z, 2 ≤ z → z < c.sqrtZ X → z ^ ((c.modulus X - 1) / 2) % c.modulus X = 1) ∧
    c.sqrtC0 X = c.sqrtZ X ^ c.sqrtT X % c.modulus X ∧
    c.tableEntry X 9 = c.sqrtC0 X * c.radix X % c.modulus X

/-- R211, R212: `basis(q, lam)` is what R211 selects from the extended Euclidean sequence `r`, `t`
(kept at zero after its end): with `l` the greatest index whose `r_l^2 >= q`, `v1` is row `l+1`, the
first remainder below the square root, and `v2` the shorter of the rows `l` and `l+2`, a tie taking
row `l`. Both vectors lie in the lattice, and the determinant is `q` up to its sign. -/
def Obligations.BasisSpansTheLattice : Prop :=
  ∀ q lam : Nat, 0 < lam → lam < q → Nat.Coprime q lam →
    (∃ (r : Nat → Nat) (t : Nat → Int) (l : Nat),
      r 0 = q ∧ r 1 = lam ∧ t 0 = 0 ∧ t 1 = 1 ∧
      (∀ i, r (i + 1) ≠ 0 → r (i + 2) = r i - r i / r (i + 1) * r (i + 1) ∧
        t (i + 2) = t i - (r i / r (i + 1) : Nat) * t (i + 1)) ∧
      (∀ i, r (i + 1) = 0 → r (i + 2) = 0) ∧
      q ≤ r l ^ 2 ∧ (∀ j > l, r j ^ 2 < q) ∧ r (l + 1) ≠ 0 ∧
      (basis q lam).a1 = r (l + 1) ∧ (basis q lam).b1 = -t (l + 1) ∧
      ((r l : Int) ^ 2 + t l ^ 2 ≤ (r (l + 2) : Int) ^ 2 + t (l + 2) ^ 2 →
        (basis q lam).a2 = r l ∧ (basis q lam).b2 = -t l) ∧
      ((r (l + 2) : Int) ^ 2 + t (l + 2) ^ 2 < (r l : Int) ^ 2 + t l ^ 2 →
        (basis q lam).a2 = r (l + 2) ∧ (basis q lam).b2 = -t (l + 2))) ∧
    (q : Int) ∣ (basis q lam).a1 + (basis q lam).b1 * lam ∧
    (q : Int) ∣ (basis q lam).a2 + (basis q lam).b2 * lam ∧
    (basis q lam).det.natAbs = q ∧
    0 < (basis q lam).a1 ∧ (basis q lam).a1 ^ 2 < q

/-- R217 (b), R225: under `|b| < q` the Barrett steps are exact: rounding to nearest for DECOMPOSE,
the floor for DECOMPOSE_NOMSB (with a prime `q`). -/
def Obligations.BarrettStepsAreExact : Prop :=
  ∀ (c : Config) (v : Nat), c.wf = true → c.PrimeModuli → v < c.q →
    c.glvBasis.b1.natAbs < c.q → c.glvBasis.b2.natAbs < c.q →
    (v * c.g1 + 2 ^ (c.barrettShift - 1)) / 2 ^ c.barrettShift =
      (2 * v * c.glvBasis.b2.natAbs + c.q) / (2 * c.q) ∧
    (v * c.g2 + 2 ^ (c.barrettShift - 1)) / 2 ^ c.barrettShift =
      (2 * v * c.glvBasis.b1.natAbs + c.q) / (2 * c.q) ∧
    v * c.g1 / 2 ^ c.barrettShift = v * c.glvBasis.b2.natAbs / c.q ∧
    v * c.g2 / 2 ^ c.barrettShift = v * c.glvBasis.b1.natAbs / c.q

/-- R217 (c), R225: in every instance with `|b1|, |b2| < q` the results of DECOMPOSE are at most
half the sum of the basis components in magnitude, those of DECOMPOSE_NOMSB below that sum. On the
default instance every scalar below `q` then splits within half length: both results of DECOMPOSE
are at most `(lambda + 1) / 2` in magnitude, those of DECOMPOSE_NOMSB at most `lambda + 1`, so both
report `OK = 1`. -/
def Obligations.DefaultInstanceSplitsShort : Prop :=
  (∀ (c : Config) (v : Nat), c.wf = true → c.PrimeModuli → v < c.q →
    c.glvBasis.b1.natAbs < c.q → c.glvBasis.b2.natAbs < c.q →
    2 * (splitRounded c v).1.natAbs ≤ c.glvBasis.a1.natAbs + c.glvBasis.a2.natAbs ∧
    2 * (splitRounded c v).2.natAbs ≤ c.glvBasis.b1.natAbs + c.glvBasis.b2.natAbs ∧
    (splitTruncated c v).1.natAbs < c.glvBasis.a1.natAbs + c.glvBasis.a2.natAbs ∧
    (splitTruncated c v).2.natAbs < c.glvBasis.b1.natAbs + c.glvBasis.b2.natAbs) ∧
  ∀ v < bls32.q,
    2 * (splitRounded bls32 v).1.natAbs ≤ bls32.lambda + 1 ∧
    2 * (splitRounded bls32 v).2.natAbs ≤ bls32.lambda + 1 ∧
    (splitTruncated bls32 v).1.natAbs ≤ bls32.lambda + 1 ∧
    (splitTruncated bls32 v).2.natAbs ≤ bls32.lambda + 1 ∧
    withinHalf bls32 (splitRounded bls32 v).1 (splitRounded bls32 v).2 = true ∧
    withinHalf bls32 (splitTruncated bls32 v).1 (splitTruncated bls32 v).2 = true

/-- R241: with `d` the inverse of `X2 - X1` the formula of ADDAFFINE, in Montgomery form, is affine
addition: the slope, `X3`, `Y3` are those of the chord, and with both points on a curve
`y^2 = x^3 + a*x + b` over `F_p` the result is on it. -/
def Obligations.AddaffineAddsPoints : Prop :=
  ∀ (c : Config) (X1 Y1 X2 Y2 D : Nat) (a b : Int), c.wf = true →
    (c.p : Int) ∣ D * ((X2 : Int) - X1) - 1 →
    ∃ X3 Y3 : Nat, X3 < c.p ∧ Y3 < c.p ∧
      addAffineValue c (c.mont .F X1) (c.mont .F Y1) (c.mont .F X2) (c.mont .F Y2) (c.mont .F D) =
        (c.mont .F X3, c.mont .F Y3) ∧
      (c.p : Int) ∣ X3 - ((D * ((Y2 : Int) - Y1)) ^ 2 - X1 - X2) ∧
      (c.p : Int) ∣ Y3 - (D * ((Y2 : Int) - Y1) * ((X1 : Int) - X3) - Y1) ∧
      ((c.p : Int) ∣ (Y1 : Int) ^ 2 - ((X1 : Int) ^ 3 + a * X1 + b) →
        (c.p : Int) ∣ (Y2 : Int) ^ 2 - ((X2 : Int) ^ 3 + a * X2 + b) →
        (c.p : Int) ∣ (Y3 : Int) ^ 2 - ((X3 : Int) ^ 3 + a * X3 + b))

/-! ### Across commands -/

/-- R210, R215, R217 (a), R230: where the two outputs do not overlap, what the three decomposer
commands store, read as two's complement of `K` bits, satisfies `s0 + s1 * lambda = s` modulo `q`
whenever `OK` reports success, and both are then below `2^HB` in magnitude. -/
def Obligations.DecomposersSplitTheScalar : Prop :=
  ∀ (s : State) (out0 out1 sc lam : Word) (v l : Nat) (i : Instr), s.Ready →
    s.cfg.Writable out0.toNat (s.cfg.elemBytes .S) →
    s.cfg.Writable out1.toNat (s.cfg.elemBytes .S) →
    Apart out0.toNat (s.cfg.elemBytes .S) out1.toNat (s.cfg.elemBytes .S) →
    s.cfg.Readable sc.toNat (s.cfg.elemBytes .S) → s.HoldsElem .S sc.toNat v → v < s.cfg.q →
    s.cfg.Readable lam.toNat (s.cfg.elemBytes .S) → s.HoldsElem .S lam.toNat l →
    0 < l → l < s.cfg.q →
    (i = .decompose out0 out1 sc ∧ l = s.cfg.lambda ∨
      i = .decomposeNomsb out0 out1 sc ∧ l = s.cfg.lambda ∨
      i = .decomposeGen out0 out1 sc lam) →
    ∃ t u0 u1, exec i s = .next t ∧ t.HoldsElem .S out0.toNat u0 ∧ t.HoldsElem .S out1.toNat u1 ∧
      (t.ok = true →
        (s.cfg.q : Int) ∣ sext (s.cfg.radixBits .S) u0 + sext (s.cfg.radixBits .S) u1 * l - v ∧
        (sext (s.cfg.radixBits .S) u0).natAbs < 2 ^ s.cfg.halfBits ∧
        (sext (s.cfg.radixBits .S) u1).natAbs < 2 ^ s.cfg.halfBits)

/-- R232: with the eigenvalue at `C_S(LAMBDA)`, DECOMPOSE_GEN is DECOMPOSE on every scalar, where
`|b1| < q` and `|b2| < q`. -/
def Obligations.GeneralSplitOfLambda : Prop :=
  ∀ (s : State) (out0 out1 sc : Word), s.Inv →
    s.cfg.glvBasis.b1.natAbs < s.cfg.q → s.cfg.glvBasis.b2.natAbs < s.cfg.q →
    exec (.decomposeGen out0 out1 sc (entryWord s.cfg .S 10)) s = exec (.decompose out0 out1 sc) s

/-- R262: TO_PACKED then FROM_PACKED gives the canonical element back; FROM_PACKED then TO_PACKED
gives the bytes back. -/
def Obligations.CodecsRoundTrip : Prop :=
  ∀ (s : State) (X : Ctx) (e e' b b' len : Word) (v : Nat), s.Ready →
    len.toNat = s.cfg.packedBytes X →
    s.cfg.Readable e.toNat (s.cfg.elemBytes X) → s.cfg.Writable e'.toNat (s.cfg.elemBytes X) →
    b.toNat + s.cfg.packedBytes X ≤ s.cfg.arenaBytes →
    b'.toNat + s.cfg.packedBytes X ≤ s.cfg.arenaBytes → s.cfg.tableEnd ≤ b'.toNat →
    (s.HoldsElem X e.toNat v → v < 4 * s.cfg.modulus X →
      ∃ t, execAll [.toPacked X b' e len, .fromPacked X e' b' len] s = .next t ∧
        t.HoldsElem X e'.toNat (v % s.cfg.modulus X)) ∧
    (s.HoldsBytes b.toNat (s.cfg.packedBytes X) v → v < s.cfg.modulus X →
      ∃ t, execAll [.fromPacked X e' b len, .toPacked X b' e' len] s = .next t ∧
        t.HoldsBytes b'.toNat (s.cfg.packedBytes X) v)

/-- R100: the pseudo-instructions MODADD, MODDBL and MODSUB leave the canonical residue of the sum,
the double and the difference, and `CB = 0`. MODSUB takes a second operand that its `out` does not
overlap: its expansion reads `y` after it has written `out` (log 24). -/
def Obligations.ModularAddSubDouble : Prop :=
  ∀ (s : State) (X : Ctx) (out x y : Word) (vx vy : Nat), s.Ready →
    s.cfg.Writable out.toNat (s.cfg.elemBytes X) → s.cfg.Readable x.toNat (s.cfg.elemBytes X) →
    s.cfg.Readable y.toNat (s.cfg.elemBytes X) →
    s.HoldsElem X x.toNat vx → s.HoldsElem X y.toNat vy →
    (vx + vy < s.cfg.radix X → vx + vy < 4 * s.cfg.modulus X →
      ∃ t, execAll (modadd X out x y) s = .next t ∧ t.cb = false ∧
        t.HoldsElem X out.toNat ((vx + vy) % s.cfg.modulus X)) ∧
    (2 * vx < s.cfg.radix X → 2 * vx < 4 * s.cfg.modulus X →
      ∃ t, execAll (moddbl X out x) s = .next t ∧ t.cb = false ∧
        t.HoldsElem X out.toNat (2 * vx % s.cfg.modulus X)) ∧
    (Apart out.toNat (s.cfg.elemBytes X) y.toNat (s.cfg.elemBytes X) →
      vx + s.cfg.modulus X < s.cfg.radix X → vy ≤ vx + s.cfg.modulus X →
      vx + s.cfg.modulus X - vy < 4 * s.cfg.modulus X →
      ∃ t, execAll (modsub s.cfg X out x y) s = .next t ∧ t.cb = false ∧
        t.HoldsElem X out.toNat ((vx + s.cfg.modulus X - vy) % s.cfg.modulus X))

/-- R100, R157: TOMONT leaves `(x*R) mod p` and FROMMONT the canonical `(x*R^-1) mod p` for every
stored `x < R`, each changing its `out` and nothing else; and the document's property
`fromMontgomery(multiply(toMontgomery(x), toMontgomery(y))) = (x*y) mod p` as a program of the
block: TOMONT of both, MUL, FROMMONT. -/
def Obligations.MontgomeryProductProgram : Prop :=
  (∀ (s : State) (X : Ctx) (out x : Word) (v : Nat), s.Ready →
    s.cfg.Writable out.toNat (s.cfg.elemBytes X) → s.cfg.Readable x.toNat (s.cfg.elemBytes X) →
    s.HoldsElem X x.toNat v →
    (∃ t, execAll (tomont s.cfg X out x) s = .next t ∧ t = { s with mem := t.mem } ∧
      ∀ a, t.byteAt a =
        withElem s.cfg X out.toNat (v * s.cfg.radix X % s.cfg.modulus X) s.byteAt a) ∧
    ∃ t u, execAll (frommont s.cfg X out x) s = .next t ∧ t = { s with mem := t.mem } ∧
      u < s.cfg.modulus X ∧ u * s.cfg.radix X % s.cfg.modulus X = v % s.cfg.modulus X ∧
      ∀ a, t.byteAt a = withElem s.cfg X out.toNat u s.byteAt a) ∧
  ∀ (s : State) (X : Ctx) (a b x y : Word) (vx vy : Nat), s.Ready →
    s.cfg.Writable a.toNat (s.cfg.elemBytes X) → s.cfg.Writable b.toNat (s.cfg.elemBytes X) →
    s.cfg.Readable x.toNat (s.cfg.elemBytes X) → s.cfg.Readable y.toNat (s.cfg.elemBytes X) →
    Apart a.toNat (s.cfg.elemBytes X) b.toNat (s.cfg.elemBytes X) →
    Apart a.toNat (s.cfg.elemBytes X) y.toNat (s.cfg.elemBytes X) →
    s.HoldsElem X x.toNat vx → s.HoldsElem X y.toNat vy →
    ∃ t, execAll (tomont s.cfg X a x ++ tomont s.cfg X b y ++ [.mul X a a b] ++
        frommont s.cfg X a a) s = .next t ∧
      t.HoldsElem X a.toNat (vx * vy % s.cfg.modulus X)

/-- R247: applying ENDO three times returns the residue of the `x` it started from and the same
`y`. -/
def Obligations.EndoThriceIsIdentity : Prop :=
  ∀ (s : State) (out p : Word) (x y : Nat), s.Ready →
    s.cfg.Writable out.toNat (2 * s.cfg.elemBytes .F) →
    s.cfg.Readable p.toNat (2 * s.cfg.elemBytes .F) →
    s.HoldsElem .F p.toNat x → s.HoldsElem .F (p.toNat + s.cfg.elemBytes .F) y →
    x < 2 * s.cfg.p →
    ∃ t, execAll [.endo out p, .endo out out, .endo out out] s = .next t ∧
      t.HoldsElem .F out.toNat (x % s.cfg.p) ∧
      t.HoldsElem .F (out.toNat + s.cfg.elemBytes .F) y
end

