-- ==== Sys2Proof/Laws/State.lean ====
section
/-! SUPPORT. One lemma per field per update of the state, true by `rfl`, so that no proof unfolds a
record update. -/

namespace Sys2Proof.Machine

variable (s : State)

@[simp] theorem State.writeBytes_cfg (a : Nat) (bs : List Byte) :
    (s.writeBytes a bs).cfg = s.cfg := rfl
@[simp] theorem State.writeBytes_mem (a : Nat) (bs : List Byte) :
    (s.writeBytes a bs).mem = Memory.writeBytes s.cfg s.mem a bs := rfl
@[simp] theorem State.writeBytes_ok (a : Nat) (bs : List Byte) :
    (s.writeBytes a bs).ok = s.ok := rfl
@[simp] theorem State.writeBytes_cb (a : Nat) (bs : List Byte) :
    (s.writeBytes a bs).cb = s.cb := rfl
@[simp] theorem State.writeBytes_faulted (a : Nat) (bs : List Byte) :
    (s.writeBytes a bs).faulted = s.faulted := rfl
@[simp] theorem State.writeBytes_err (a : Nat) (bs : List Byte) :
    (s.writeBytes a bs).err = s.err := rfl
@[simp] theorem State.writeBytes_res (a : Nat) (bs : List Byte) :
    (s.writeBytes a bs).res = s.res := rfl
@[simp] theorem State.writeBytes_faultInfo (a : Nat) (bs : List Byte) :
    (s.writeBytes a bs).faultInfo = s.faultInfo := rfl
@[simp] theorem State.writeBytes_base (a : Nat) (bs : List Byte) :
    (s.writeBytes a bs).base = s.base := rfl
@[simp] theorem State.writeBytes_offset (a : Nat) (bs : List Byte) :
    (s.writeBytes a bs).offset = s.offset := rfl
@[simp] theorem State.writeBytes_pending (a : Nat) (bs : List Byte) :
    (s.writeBytes a bs).pending = s.pending := rfl
@[simp] theorem State.writeBytes_reply (a : Nat) (bs : List Byte) :
    (s.writeBytes a bs).reply = s.reply := rfl
@[simp] theorem State.writeBytes_free (a : Nat) (bs : List Byte) :
    (s.writeBytes a bs).free = s.free := rfl

@[simp] theorem State.memWrite_cfg (a k v : Nat) : (s.memWrite a k v).cfg = s.cfg := rfl
@[simp] theorem State.memWrite_mem (a k v : Nat) :
    (s.memWrite a k v).mem = Memory.writeBytes s.cfg s.mem a (bytesOf k v) := rfl
@[simp] theorem State.memWrite_ok (a k v : Nat) : (s.memWrite a k v).ok = s.ok := rfl
@[simp] theorem State.memWrite_cb (a k v : Nat) : (s.memWrite a k v).cb = s.cb := rfl
@[simp] theorem State.memWrite_faulted (a k v : Nat) : (s.memWrite a k v).faulted = s.faulted := rfl
@[simp] theorem State.memWrite_err (a k v : Nat) : (s.memWrite a k v).err = s.err := rfl
@[simp] theorem State.memWrite_res (a k v : Nat) : (s.memWrite a k v).res = s.res := rfl
@[simp] theorem State.memWrite_faultInfo (a k v : Nat) :
    (s.memWrite a k v).faultInfo = s.faultInfo := rfl
@[simp] theorem State.memWrite_base (a k v : Nat) : (s.memWrite a k v).base = s.base := rfl
@[simp] theorem State.memWrite_offset (a k v : Nat) : (s.memWrite a k v).offset = s.offset := rfl
@[simp] theorem State.memWrite_pending (a k v : Nat) : (s.memWrite a k v).pending = s.pending := rfl
@[simp] theorem State.memWrite_reply (a k v : Nat) : (s.memWrite a k v).reply = s.reply := rfl
@[simp] theorem State.memWrite_free (a k v : Nat) :
    (s.memWrite a k v).free = s.free := rfl

@[simp] theorem State.writeLimbs_cfg (a : Nat) (xs : List Nat) :
    (s.writeLimbs a xs).cfg = s.cfg := rfl
@[simp] theorem State.writeLimbs_mem (a : Nat) (xs : List Nat) :
    (s.writeLimbs a xs).mem = Memory.writeBytes s.cfg s.mem a (xs.flatMap (bytesOf 4)) := rfl
@[simp] theorem State.writeLimbs_ok (a : Nat) (xs : List Nat) : (s.writeLimbs a xs).ok = s.ok := rfl
@[simp] theorem State.writeLimbs_cb (a : Nat) (xs : List Nat) : (s.writeLimbs a xs).cb = s.cb := rfl
@[simp] theorem State.writeLimbs_faulted (a : Nat) (xs : List Nat) :
    (s.writeLimbs a xs).faulted = s.faulted := rfl
@[simp] theorem State.writeLimbs_err (a : Nat) (xs : List Nat) :
    (s.writeLimbs a xs).err = s.err := rfl
@[simp] theorem State.writeLimbs_res (a : Nat) (xs : List Nat) :
    (s.writeLimbs a xs).res = s.res := rfl
@[simp] theorem State.writeLimbs_faultInfo (a : Nat) (xs : List Nat) :
    (s.writeLimbs a xs).faultInfo = s.faultInfo := rfl
@[simp] theorem State.writeLimbs_base (a : Nat) (xs : List Nat) :
    (s.writeLimbs a xs).base = s.base := rfl
@[simp] theorem State.writeLimbs_offset (a : Nat) (xs : List Nat) :
    (s.writeLimbs a xs).offset = s.offset := rfl
@[simp] theorem State.writeLimbs_pending (a : Nat) (xs : List Nat) :
    (s.writeLimbs a xs).pending = s.pending := rfl
@[simp] theorem State.writeLimbs_reply (a : Nat) (xs : List Nat) :
    (s.writeLimbs a xs).reply = s.reply := rfl
@[simp] theorem State.writeLimbs_free (a : Nat) (xs : List Nat) :
    (s.writeLimbs a xs).free = s.free := rfl

@[simp] theorem State.writeElem_cfg (X : Ctx) (a v : Nat) : (s.writeElem X a v).cfg = s.cfg := rfl
@[simp] theorem State.writeElem_ok (X : Ctx) (a v : Nat) : (s.writeElem X a v).ok = s.ok := rfl
@[simp] theorem State.writeElem_cb (X : Ctx) (a v : Nat) : (s.writeElem X a v).cb = s.cb := rfl
@[simp] theorem State.writeElem_faulted (X : Ctx) (a v : Nat) :
    (s.writeElem X a v).faulted = s.faulted := rfl
@[simp] theorem State.writeElem_err (X : Ctx) (a v : Nat) : (s.writeElem X a v).err = s.err := rfl
@[simp] theorem State.writeElem_res (X : Ctx) (a v : Nat) : (s.writeElem X a v).res = s.res := rfl
@[simp] theorem State.writeElem_faultInfo (X : Ctx) (a v : Nat) :
    (s.writeElem X a v).faultInfo = s.faultInfo := rfl
@[simp] theorem State.writeElem_base (X : Ctx) (a v : Nat) :
    (s.writeElem X a v).base = s.base := rfl
@[simp] theorem State.writeElem_offset (X : Ctx) (a v : Nat) :
    (s.writeElem X a v).offset = s.offset := rfl
@[simp] theorem State.writeElem_pending (X : Ctx) (a v : Nat) :
    (s.writeElem X a v).pending = s.pending := rfl
@[simp] theorem State.writeElem_reply (X : Ctx) (a v : Nat) :
    (s.writeElem X a v).reply = s.reply := rfl
@[simp] theorem State.writeElem_free (X : Ctx) (a v : Nat) :
    (s.writeElem X a v).free = s.free := rfl

@[simp] theorem State.forget_cfg (a k : Nat) : (s.forget a k).cfg = s.cfg := rfl
@[simp] theorem State.forget_mem (a k : Nat) : (s.forget a k).mem = Memory.forget s.mem a k := rfl
@[simp] theorem State.forget_ok (a k : Nat) : (s.forget a k).ok = s.ok := rfl
@[simp] theorem State.forget_cb (a k : Nat) : (s.forget a k).cb = s.cb := rfl
@[simp] theorem State.forget_faulted (a k : Nat) : (s.forget a k).faulted = s.faulted := rfl
@[simp] theorem State.forget_err (a k : Nat) : (s.forget a k).err = s.err := rfl
@[simp] theorem State.forget_res (a k : Nat) : (s.forget a k).res = s.res := rfl
@[simp] theorem State.forget_faultInfo (a k : Nat) : (s.forget a k).faultInfo = s.faultInfo := rfl
@[simp] theorem State.forget_base (a k : Nat) : (s.forget a k).base = s.base := rfl
@[simp] theorem State.forget_offset (a k : Nat) : (s.forget a k).offset = s.offset := rfl
@[simp] theorem State.forget_pending (a k : Nat) : (s.forget a k).pending = s.pending := rfl
@[simp] theorem State.forget_reply (a k : Nat) : (s.forget a k).reply = s.reply := rfl
@[simp] theorem State.forget_free (a k : Nat) :
    (s.forget a k).free =
      { s.free with renewals := Renewals.bumpRange s.free.renewals a k } := rfl

@[simp] theorem State.setRes_cfg (v : Nat) : (s.setRes v).cfg = s.cfg := rfl
@[simp] theorem State.setRes_mem (v : Nat) : (s.setRes v).mem = s.mem := rfl
@[simp] theorem State.setRes_ok (v : Nat) : (s.setRes v).ok = s.ok := rfl
@[simp] theorem State.setRes_cb (v : Nat) : (s.setRes v).cb = s.cb := rfl
@[simp] theorem State.setRes_faulted (v : Nat) : (s.setRes v).faulted = s.faulted := rfl
@[simp] theorem State.setRes_err (v : Nat) : (s.setRes v).err = s.err := rfl
@[simp] theorem State.setRes_res (v : Nat) : (s.setRes v).res = BitVec.ofNat 32 v := rfl
@[simp] theorem State.setRes_faultInfo (v : Nat) : (s.setRes v).faultInfo = s.faultInfo := rfl
@[simp] theorem State.setRes_base (v : Nat) : (s.setRes v).base = s.base := rfl
@[simp] theorem State.setRes_offset (v : Nat) : (s.setRes v).offset = s.offset := rfl
@[simp] theorem State.setRes_pending (v : Nat) : (s.setRes v).pending = s.pending := rfl
@[simp] theorem State.setRes_reply (v : Nat) : (s.setRes v).reply = s.reply := rfl
@[simp] theorem State.setRes_free (v : Nat) : (s.setRes v).free = s.free := rfl

@[simp] theorem State.setOk_cfg (b : Bool) : (s.setOk b).cfg = s.cfg := rfl
@[simp] theorem State.setOk_mem (b : Bool) : (s.setOk b).mem = s.mem := rfl
@[simp] theorem State.setOk_ok (b : Bool) : (s.setOk b).ok = b := rfl
@[simp] theorem State.setOk_cb (b : Bool) : (s.setOk b).cb = s.cb := rfl
@[simp] theorem State.setOk_faulted (b : Bool) : (s.setOk b).faulted = s.faulted := rfl
@[simp] theorem State.setOk_err (b : Bool) : (s.setOk b).err = s.err := rfl
@[simp] theorem State.setOk_res (b : Bool) : (s.setOk b).res = s.res := rfl
@[simp] theorem State.setOk_faultInfo (b : Bool) : (s.setOk b).faultInfo = s.faultInfo := rfl
@[simp] theorem State.setOk_base (b : Bool) : (s.setOk b).base = s.base := rfl
@[simp] theorem State.setOk_offset (b : Bool) : (s.setOk b).offset = s.offset := rfl
@[simp] theorem State.setOk_pending (b : Bool) : (s.setOk b).pending = s.pending := rfl
@[simp] theorem State.setOk_reply (b : Bool) : (s.setOk b).reply = s.reply := rfl
@[simp] theorem State.setOk_free (b : Bool) : (s.setOk b).free = s.free := rfl

@[simp] theorem State.setCb_cfg (b : Bool) : (s.setCb b).cfg = s.cfg := rfl
@[simp] theorem State.setCb_mem (b : Bool) : (s.setCb b).mem = s.mem := rfl
@[simp] theorem State.setCb_ok (b : Bool) : (s.setCb b).ok = s.ok := rfl
@[simp] theorem State.setCb_cb (b : Bool) : (s.setCb b).cb = b := rfl
@[simp] theorem State.setCb_faulted (b : Bool) : (s.setCb b).faulted = s.faulted := rfl
@[simp] theorem State.setCb_err (b : Bool) : (s.setCb b).err = s.err := rfl
@[simp] theorem State.setCb_res (b : Bool) : (s.setCb b).res = s.res := rfl
@[simp] theorem State.setCb_faultInfo (b : Bool) : (s.setCb b).faultInfo = s.faultInfo := rfl
@[simp] theorem State.setCb_base (b : Bool) : (s.setCb b).base = s.base := rfl
@[simp] theorem State.setCb_offset (b : Bool) : (s.setCb b).offset = s.offset := rfl
@[simp] theorem State.setCb_pending (b : Bool) : (s.setCb b).pending = s.pending := rfl
@[simp] theorem State.setCb_reply (b : Bool) : (s.setCb b).reply = s.reply := rfl
@[simp] theorem State.setCb_free (b : Bool) : (s.setCb b).free = s.free := rfl

@[simp] theorem State.raise_cfg (code : FaultCode) (info : Nat) :
    (s.raise code info).cfg = s.cfg := rfl
@[simp] theorem State.raise_mem (code : FaultCode) (info : Nat) :
    (s.raise code info).mem = s.mem := rfl
@[simp] theorem State.raise_ok (code : FaultCode) (info : Nat) :
    (s.raise code info).ok = s.ok := rfl
@[simp] theorem State.raise_cb (code : FaultCode) (info : Nat) :
    (s.raise code info).cb = s.cb := rfl
@[simp] theorem State.raise_faulted (code : FaultCode) (info : Nat) :
    (s.raise code info).faulted = true := rfl
@[simp] theorem State.raise_err (code : FaultCode) (info : Nat) :
    (s.raise code info).err = errCode code := rfl
@[simp] theorem State.raise_res (code : FaultCode) (info : Nat) :
    (s.raise code info).res = s.res := rfl
@[simp] theorem State.raise_faultInfo (code : FaultCode) (info : Nat) :
    (s.raise code info).faultInfo = BitVec.ofNat 32 info := rfl
@[simp] theorem State.raise_base (code : FaultCode) (info : Nat) :
    (s.raise code info).base = s.base := rfl
@[simp] theorem State.raise_offset (code : FaultCode) (info : Nat) :
    (s.raise code info).offset = s.offset := rfl
@[simp] theorem State.raise_pending (code : FaultCode) (info : Nat) :
    (s.raise code info).pending = s.pending := rfl
@[simp] theorem State.raise_reply (code : FaultCode) (info : Nat) :
    (s.raise code info).reply = s.reply := rfl
@[simp] theorem State.raise_free (code : FaultCode) (info : Nat) :
    (s.raise code info).free = s.free := rfl

@[simp] theorem State.hostReset_cfg : s.hostReset.cfg = s.cfg := rfl
@[simp] theorem State.hostReset_mem : s.hostReset.mem = [] := rfl
@[simp] theorem State.hostReset_ok : s.hostReset.ok = false := rfl
@[simp] theorem State.hostReset_cb : s.hostReset.cb = false := rfl
@[simp] theorem State.hostReset_faulted : s.hostReset.faulted = false := rfl
@[simp] theorem State.hostReset_err : s.hostReset.err = 0 := rfl
@[simp] theorem State.hostReset_res : s.hostReset.res = 0 := rfl
@[simp] theorem State.hostReset_faultInfo : s.hostReset.faultInfo = 0 := rfl
@[simp] theorem State.hostReset_base : s.hostReset.base = s.cfg.tableEnd := rfl
@[simp] theorem State.hostReset_offset : s.hostReset.offset = s.cfg.tableEnd := rfl
@[simp] theorem State.hostReset_pending : s.hostReset.pending = s.pending := rfl
@[simp] theorem State.hostReset_reply : s.hostReset.reply = s.reply := rfl
@[simp] theorem State.hostReset_free :
    s.hostReset.free = { s.free with resets := s.free.resets + 1, renewals := [] } := rfl

@[simp] theorem State.hostReadReg_cfg (number : Nat) : (s.hostReadReg number).cfg = s.cfg := rfl
@[simp] theorem State.hostReadReg_mem (number : Nat) : (s.hostReadReg number).mem = s.mem := rfl
@[simp] theorem State.hostReadReg_ok (number : Nat) : (s.hostReadReg number).ok = s.ok := rfl
@[simp] theorem State.hostReadReg_cb (number : Nat) : (s.hostReadReg number).cb = s.cb := rfl
@[simp] theorem State.hostReadReg_faulted (number : Nat) :
    (s.hostReadReg number).faulted = s.faulted := rfl
@[simp] theorem State.hostReadReg_err (number : Nat) : (s.hostReadReg number).err = s.err := rfl
@[simp] theorem State.hostReadReg_res (number : Nat) : (s.hostReadReg number).res = s.res := rfl
@[simp] theorem State.hostReadReg_faultInfo (number : Nat) :
    (s.hostReadReg number).faultInfo = s.faultInfo := rfl
@[simp] theorem State.hostReadReg_base (number : Nat) : (s.hostReadReg number).base = s.base := rfl
@[simp] theorem State.hostReadReg_offset (number : Nat) :
    (s.hostReadReg number).offset = s.offset := rfl
@[simp] theorem State.hostReadReg_pending (number : Nat) :
    (s.hostReadReg number).pending = s.pending := rfl
@[simp] theorem State.hostReadReg_reply (number : Nat) :
    (s.hostReadReg number).reply = .reg (s.readReg number) := rfl
@[simp] theorem State.hostReadReg_free (number : Nat) :
    (s.hostReadReg number).free = s.free := rfl

@[simp] theorem State.hostReadMem_cfg (offset count : Nat) :
    (s.hostReadMem offset count).cfg = s.cfg := rfl
@[simp] theorem State.hostReadMem_mem (offset count : Nat) :
    (s.hostReadMem offset count).mem = s.mem := rfl
@[simp] theorem State.hostReadMem_ok (offset count : Nat) :
    (s.hostReadMem offset count).ok = s.ok := rfl
@[simp] theorem State.hostReadMem_cb (offset count : Nat) :
    (s.hostReadMem offset count).cb = s.cb := rfl
@[simp] theorem State.hostReadMem_faulted (offset count : Nat) :
    (s.hostReadMem offset count).faulted = s.faulted := rfl
@[simp] theorem State.hostReadMem_err (offset count : Nat) :
    (s.hostReadMem offset count).err = s.err := rfl
@[simp] theorem State.hostReadMem_res (offset count : Nat) :
    (s.hostReadMem offset count).res = s.res := rfl
@[simp] theorem State.hostReadMem_faultInfo (offset count : Nat) :
    (s.hostReadMem offset count).faultInfo = s.faultInfo := rfl
@[simp] theorem State.hostReadMem_base (offset count : Nat) :
    (s.hostReadMem offset count).base = s.base := rfl
@[simp] theorem State.hostReadMem_offset (offset count : Nat) :
    (s.hostReadMem offset count).offset = s.offset := rfl
@[simp] theorem State.hostReadMem_pending (offset count : Nat) :
    (s.hostReadMem offset count).pending = s.pending := rfl
@[simp] theorem State.hostReadMem_free (offset count : Nat) :
    (s.hostReadMem offset count).free =
      if offset + count ≤ s.cfg.arenaBytes then s.free
      else { s.free with strayReads := s.free.strayReads + 1 } := rfl

@[simp] theorem State.setOk_byteAt (b : Bool) (a : Nat) : (s.setOk b).byteAt a = s.byteAt a := rfl
@[simp] theorem State.setCb_byteAt (b : Bool) (a : Nat) : (s.setCb b).byteAt a = s.byteAt a := rfl
@[simp] theorem State.setRes_byteAt (v a : Nat) : (s.setRes v).byteAt a = s.byteAt a := rfl
@[simp] theorem State.raise_byteAt (c : FaultCode) (i a : Nat) :
    (s.raise c i).byteAt a = s.byteAt a := rfl

/-- A write of an element changes the arena and nothing else. -/
theorem State.writeElem_frame (X : Ctx) (a v : Nat) :
    s.writeElem X a v = { s with mem := (s.writeElem X a v).mem } := rfl

/-- A write of an array changes the arena and nothing else. -/
theorem State.writeArray_frame (X : Ctx) (a : Nat) (vs : List Nat) :
    s.writeArray X a vs = { s with mem := (s.writeArray X a vs).mem } := by
  induction vs generalizing s a with
  | nil => rfl
  | cons v vs ih => exact (ih (s.writeElem X a v) (a + s.cfg.elemBytes X))

/-- Making an overlap unspecified changes the arena and the choice of free values only. -/
theorem State.forgetOverlap_frame (a b k : Nat) :
    s.forgetOverlap a b k =
      { s with mem := (s.forgetOverlap a b k).mem, free := (s.forgetOverlap a b k).free } := by
  unfold State.forgetOverlap; split <;> rfl

end Sys2Proof.Machine
end

