-- ==== Sys2Proof/Laws/Command.lean ====
section
/-! SUPPORT. What issuing a command can do, said once (60_exceptions.md R281), when the checks of
R289 pass, and the helpers that walk through a command's reads and preconditions. -/

namespace Sys2Proof.Machine

variable {s t : State} {i : Instr} {body : Except Refusal State}

/-- R281, the four outcomes of a command: ignored, fault, refused, completed. -/
theorem State.command_cases (s : State) (i : Instr) (body : Except Refusal State) :
    (s.faulted = true ∧ s.command i body = .next s) ∨
    (s.faulted = false ∧ ∃ f, faultOf s i = some f ∧
      s.command i body = .next (s.raise f.1 f.2)) ∨
    (s.faulted = false ∧ faultOf s i = none ∧ ∃ r, body = .error r ∧
      s.command i body = .refused r) ∨
    (s.faulted = false ∧ faultOf s i = none ∧ ∃ t, body = .ok t ∧ s.command i body = .next t) := by
  unfold State.command
  cases s.faulted with
  | true => exact .inl ⟨rfl, rfl⟩
  | false =>
    cases hf : faultOf s i with
    | some f => exact .inr (.inl ⟨rfl, f, rfl, rfl⟩)
    | none =>
      cases body with
      | error r => exact .inr (.inr (.inl ⟨rfl, rfl, r, rfl, rfl⟩))
      | ok t => exact .inr (.inr (.inr ⟨rfl, rfl, t, rfl, rfl⟩))

/-- A command that answers a next state was ignored, took a fault, or completed. -/
theorem State.command_next (h : s.command i body = .next t) :
    (s.faulted = true ∧ t = s) ∨
    (s.faulted = false ∧ ∃ f, faultOf s i = some f ∧ t = s.raise f.1 f.2) ∨
    (s.faulted = false ∧ faultOf s i = none ∧ body = .ok t) := by
  rcases State.command_cases s i body with ⟨h1, h2⟩ | ⟨h1, f, h2, h3⟩ | ⟨_, _, r, _, h4⟩ |
    ⟨h1, h2, u, h3, h4⟩
  · rw [h2] at h; cases h; exact .inl ⟨h1, rfl⟩
  · rw [h3] at h; cases h; exact .inr (.inl ⟨h1, f, h2, rfl⟩)
  · rw [h4] at h; cases h
  · rw [h4] at h; cases h; exact .inr (.inr ⟨h1, h2, h3⟩)

/-- A command that is refused was not ignored, passed every check, and its rule refused it. -/
theorem State.command_refused {r : Refusal} (h : s.command i body = .refused r) :
    s.faulted = false ∧ faultOf s i = none ∧ body = .error r := by
  rcases State.command_cases s i body with ⟨_, h2⟩ | ⟨_, f, _, h3⟩ | ⟨h1, h2, r', h3, h4⟩ |
    ⟨_, _, u, _, h4⟩
  · rw [h2] at h; cases h
  · rw [h3] at h; cases h
  · rw [h4] at h; cases h; exact ⟨h1, h2, h3⟩
  · rw [h4] at h; cases h

/-- No command stops the model with a fault. -/
theorem State.command_ne_fault (f : Fault) : s.command i body ≠ .fault f := by
  intro h
  rcases State.command_cases s i body with ⟨_, h2⟩ | ⟨_, _, _, h3⟩ | ⟨_, _, _, _, h4⟩ |
    ⟨_, _, _, _, h4⟩ <;> simp_all

/-- A command completes where it is not ignored, every check passes and its rule gives a state. -/
theorem State.command_of_ok (hf : s.faulted = false) (hn : faultOf s i = none) (hb : body = .ok t) :
    s.command i body = .next t := by
  unfold State.command; simp [hf, hn, hb]

/-- A command is refused where it is not ignored, every check passes and its rule refuses. -/
theorem State.command_of_error {r : Refusal} (hf : s.faulted = false) (hn : faultOf s i = none)
    (hb : body = .error r) : s.command i body = .refused r := by
  unfold State.command; simp [hf, hn, hb]

/-- A command takes the first fault of its checks. -/
theorem State.command_of_fault {f : FaultCode × Nat} (hf : s.faulted = false)
    (hn : faultOf s i = some f) : s.command i body = .next (s.raise f.1 f.2) := by
  unfold State.command; simp [hf, hn]

/-- Every meaning goes through `State.command`, with the command itself and some rule. -/
theorem exec_is_command (i : Instr) (s : State) : ∃ body, exec i s = s.command i body := by
  cases i <;> first
    | exact ⟨_, rfl⟩
    | (simp only [exec, execAllocStable, execAllocScratch, execResetScratch]; exact ⟨_, rfl⟩)

@[simp] theorem need_true (r : Refusal) : need true r = .ok () := rfl
@[simp] theorem need_false (r : Refusal) : need false r = .error r := rfl

theorem need_of {b : Bool} (h : b = true) (r : Refusal) : need b r = .ok () := by rw [h]; rfl
theorem need_of_not {b : Bool} (h : b = false) (r : Refusal) : need b r = .error r := by rw [h]; rfl

@[simp] theorem ok_bind {α β : Type} (a : α) (f : α → Except Refusal β) :
    ((Except.ok a : Except Refusal α) >>= f) = f a := rfl
@[simp] theorem error_bind {α β : Type} (r : Refusal) (f : α → Except Refusal β) :
    ((Except.error r : Except Refusal α) >>= f) = .error r := rfl

/-- A bind that gives a value went through both parts. -/
theorem bind_eq_ok {α β : Type} {x : Except Refusal α} {f : α → Except Refusal β} {b : β}
    (h : (x >>= f) = .ok b) : ∃ a, x = .ok a ∧ f a = .ok b := by
  cases x with
  | ok a => exact ⟨a, rfl, h⟩
  | error r => cases h

/-- A precondition that let a rule go on held. -/
theorem need_eq_ok {b : Bool} {r : Refusal} {u : Unit} (h : need b r = .ok u) : b = true := by
  cases b <;> simp_all [need]

/-- Checks 3 to 5 of R289 pass exactly when every operand passes each. -/
theorem operandFault_eq_none {c : Config} {ops : List Operand} :
    operandFault c ops = none ↔ ∀ o ∈ ops,
      o.misaligned = false ∧ o.outOfRange c = false ∧ o.writeProtected c = false := by
  unfold operandFault
  constructor
  · intro h
    split at h
    · simp at h
    · rename_i h1
      split at h
      · simp at h
      · rename_i h2
        split at h
        · simp at h
        · rename_i h3
          simp only [List.find?_eq_none, Bool.not_eq_true] at h1 h2 h3
          exact fun o ho => ⟨h1 o ho, h2 o ho, h3 o ho⟩
  · intro h
    have h1 : ops.find? (·.misaligned) = none := by
      simp only [List.find?_eq_none, Bool.not_eq_true]; exact fun o ho => (h o ho).1
    have h2 : ops.find? (·.outOfRange c) = none := by
      simp only [List.find?_eq_none, Bool.not_eq_true]; exact fun o ho => (h o ho).2.1
    have h3 : ops.find? (·.writeProtected c) = none := by
      simp only [List.find?_eq_none, Bool.not_eq_true]; exact fun o ho => (h o ho).2.2
    rw [h1, h2, h3]

/-- An operand that is only read passes where it is `Config.Readable`. -/
theorem Operand.read_ok {c : Config} {p size : Nat} (h : c.Readable p size) :
    (⟨p, size, true, false⟩ : Operand).misaligned = false ∧
    (⟨p, size, true, false⟩ : Operand).outOfRange c = false ∧
    (⟨p, size, true, false⟩ : Operand).writeProtected c = false := by
  obtain ⟨h1, h2⟩ := h
  simp [Operand.misaligned, Operand.outOfRange, Operand.writeProtected]
  omega

/-- A written operand passes where it is `Config.Writable`. -/
theorem Operand.write_ok {c : Config} {p size : Nat} (h : c.Writable p size) :
    (⟨p, size, true, true⟩ : Operand).misaligned = false ∧
    (⟨p, size, true, true⟩ : Operand).outOfRange c = false ∧
    (⟨p, size, true, true⟩ : Operand).writeProtected c = false := by
  obtain ⟨h1, h2, h3⟩ := h
  simp [Operand.misaligned, Operand.outOfRange, Operand.writeProtected]
  omega

/-- A command that is no codec and no allocation passes every check where its operands do. -/
theorem faultOf_eq_none (hl : lengthFault s.cfg i = none) (ha : allocFault s i = none)
    (ho : ∀ o ∈ operandsOf s.cfg i,
      o.misaligned = false ∧ o.outOfRange s.cfg = false ∧ o.writeProtected s.cfg = false) :
    faultOf s i = none := by
  unfold faultOf
  rw [hl, operandFault_eq_none.2 ho, ha]

end Sys2Proof.Machine
end

