-- ==== Sys2Proof/Laws/Numbers.lean ====
section
/-! SUPPORT. What the number functions of `Machine/Numbers.lean` compute, each said once. -/

namespace Sys2Proof

theorem bitlength_zero : bitlength 0 = 0 := rfl

/-- R12: `bitlength(a)` is the least `k` with `a < 2^k`. -/
theorem bitlength_le_iff (a k : Nat) : bitlength a ≤ k ↔ a < 2 ^ k := by
  unfold bitlength
  split
  · subst_vars; simp
  · rename_i h
    rw [Nat.succ_le_iff, Nat.log2_lt h]

theorem lt_two_pow_bitlength (a : Nat) : a < 2 ^ bitlength a :=
  (bitlength_le_iff a _).1 le_rfl

theorem bitlength_pos {a : Nat} (h : 0 < a) : 0 < bitlength a := by
  unfold bitlength; rw [if_neg (by omega)]; omega

theorem two_pow_le_of_lt_bitlength {a k : Nat} (h : k < bitlength a) : 2 ^ k ≤ a := by
  by_contra hc
  have := (bitlength_le_iff a k).2 (by omega)
  omega

theorem ceilDiv_mul_ge {a b : Nat} (hb : 0 < b) : a ≤ ceilDiv a b * b := by
  unfold ceilDiv
  have := Nat.div_add_mod (a + b - 1) b
  have h2 := Nat.mod_lt (a + b - 1) hb
  rw [mul_comm]
  omega

theorem ceilDiv_pos {a b : Nat} (ha : 0 < a) (hb : 0 < b) : 0 < ceilDiv a b := by
  unfold ceilDiv
  exact Nat.div_pos (by omega) hb

theorem tzUpTo_spec (n a : Nat) (h0 : 0 < a) (h : a < 2 ^ n) :
    2 ^ tzUpTo n a ∣ a ∧ a / 2 ^ tzUpTo n a % 2 = 1 := by
  induction n generalizing a with
  | zero => simp at h; omega
  | succ n ih =>
    unfold tzUpTo
    split
    · rename_i he
      have hp : 2 ^ (n + 1) = 2 * 2 ^ n := by ring
      obtain ⟨hd, ho⟩ := ih (a / 2) (by omega) (by omega)
      refine ⟨?_, ?_⟩
      · rw [pow_succ]
        have : a = a / 2 * 2 := by omega
        rw [this]
        exact Nat.mul_dvd_mul_right (by rwa [← this]) 2
      · rw [pow_succ, mul_comm, ← Nat.div_div_eq_div_mul]
        exact ho
    · simp; omega

/-- R12: `2^tz(a)` divides `a > 0` and leaves an odd quotient. -/
theorem tz_spec {a : Nat} (h : 0 < a) : 2 ^ tz a ∣ a ∧ a / 2 ^ tz a % 2 = 1 :=
  tzUpTo_spec _ a h (lt_two_pow_bitlength a)

theorem powModBits_eq (b e m n acc : Nat) (hacc : acc = b ^ (e / 2 ^ n) % m) :
    powModBits b e m n acc = b ^ e % m := by
  induction n generalizing acc with
  | zero => simp [powModBits, hacc]
  | succ n ih =>
    unfold powModBits
    apply ih
    have hd : e / 2 ^ (n + 1) = e / 2 ^ n / 2 := by rw [pow_succ, Nat.div_div_eq_div_mul]
    have hbit : e.testBit n = decide (e / 2 ^ n % 2 = 1) := Nat.testBit_eq_decide_div_mod_eq
    have hs := Nat.div_add_mod (e / 2 ^ n) 2
    have hsq : acc * acc % m = b ^ (2 * (e / 2 ^ n / 2)) % m := by
      rw [hacc, hd, ← Nat.mul_mod, ← pow_add, two_mul]
    rw [hbit]
    by_cases hb : e / 2 ^ n % 2 = 1
    · simp only [hb, decide_true, if_true]
      rw [hsq, Nat.mod_mul_mod, ← pow_succ]
      congr 2; omega
    · simp only [hb, decide_false, Bool.false_eq_true, if_false]
      rw [hsq]
      congr 2; omega

/-- `powMod b e m` is `b^e mod m`. -/
theorem powMod_eq (b e m : Nat) : powMod b e m = b ^ e % m := by
  refine powModBits_eq b e m _ _ ?_
  rw [Nat.div_eq_of_lt (lt_two_pow_bitlength e), pow_zero]

theorem invPow2Steps_lt (m K s y : Nat) (h : y < 2 ^ K) : invPow2Steps m K s y < 2 ^ K := by
  induction s generalizing y with
  | zero => simpa [invPow2Steps]
  | succ s ih => exact ih _ (Nat.mod_lt _ (by positivity))

theorem invPow2_lt (m K : Nat) : invPow2 m K < 2 ^ K :=
  invPow2Steps_lt _ _ _ _ (Nat.mod_lt _ (by positivity))

theorem invPow2Steps_spec (m K s j y : Nat) (h : (m : ℤ) * y ≡ 1 [ZMOD 2 ^ min K (2 ^ j)]) :
    (m : ℤ) * invPow2Steps m K s y ≡ 1 [ZMOD 2 ^ min K (2 ^ (j + s))] := by
  induction s generalizing j y with
  | zero => simpa [invPow2Steps] using h
  | succ s ih =>
    unfold invPow2Steps
    have : j + (s + 1) = (j + 1) + s := by ring
    rw [this]
    apply ih
    set P := m * y % 2 ^ K with hP
    have hPlt : P < 2 ^ K := Nat.mod_lt _ (by positivity)
    have hcast : ((y * (2 ^ K + 2 - P) % 2 ^ K : ℕ) : ℤ) ≡ y * (2 - m * y) [ZMOD 2 ^ K] := by
      have h1 : ((2 ^ K + 2 - P : ℕ) : ℤ) = 2 ^ K + 2 - P := by
        rw [Nat.cast_sub (by omega)]; push_cast; ring
      have h2 : (P : ℤ) ≡ m * y [ZMOD 2 ^ K] := by
        rw [hP]; push_cast; exact Int.mod_modEq _ _
      push_cast
      refine (Int.mod_modEq _ _).trans ?_
      rw [h1]
      refine Int.ModEq.mul_left _ ?_
      calc (2 ^ K + 2 - P : ℤ) ≡ 0 + 2 - m * y [ZMOD 2 ^ K] :=
            Int.ModEq.sub (Int.ModEq.add_right _ (by simp [Int.ModEq])) h2
        _ = 2 - m * y := by ring
    have hd : (2 : ℤ) ^ min K (2 ^ (j + 1)) ∣ 2 ^ K := pow_dvd_pow _ (min_le_left _ _)
    refine ((hcast.of_dvd hd).mul_left (m : ℤ)).trans ?_
    have hsq : (2 : ℤ) ^ min K (2 ^ (j + 1)) ∣ (2 ^ min K (2 ^ j)) ^ 2 := by
      rw [← pow_mul]
      refine pow_dvd_pow _ ?_
      have : 2 ^ (j + 1) = 2 ^ j * 2 := pow_succ _ _
      omega
    have hk : (2 : ℤ) ^ min K (2 ^ j) ∣ (m * y - 1) := (Int.modEq_iff_dvd.1 h.symm)
    rw [Int.modEq_iff_dvd]
    have : (1 : ℤ) - m * (y * (2 - m * y)) = (m * y - 1) ^ 2 := by ring
    rw [this]
    exact hsq.trans (pow_dvd_pow_of_dvd hk 2)

/-- R150, R151: `invPow2 m K` is the inverse of an odd `m` modulo `2^K`. -/
theorem invPow2_spec {m : Nat} (hm : m % 2 = 1) (K : Nat) : m * invPow2 m K % 2 ^ K = 1 % 2 ^ K := by
  have h0 : (m : ℤ) * ((1 % 2 ^ K : ℕ) : ℤ) ≡ 1 [ZMOD 2 ^ min K (2 ^ 0)] := by
    have hm' : (m : ℤ) ≡ 1 [ZMOD 2] := by
      have : ((m % 2 : ℕ) : ℤ) = 1 := by rw [hm]; rfl
      push_cast at this; simpa [Int.ModEq] using this
    rcases Nat.eq_zero_or_pos K with rfl | hK
    · simpa using Int.modEq_one
    · have h1 : 1 % 2 ^ K = 1 := Nat.mod_eq_of_lt (Nat.one_lt_two_pow (by omega))
      have h2 : min K (2 ^ 0) = 1 := by simp; omega
      rw [h1, h2]; simpa using hm'
  have h := invPow2Steps_spec m K (bitlength K) 0 (1 % 2 ^ K) h0
  have hmin : min K (2 ^ (0 + bitlength K)) = K := by
    have := lt_two_pow_bitlength K; rw [zero_add]; omega
  rw [hmin] at h
  have : (m * invPow2 m K) ≡ 1 [MOD 2 ^ K] := by
    rw [← Int.natCast_modEq_iff]; push_cast; exact h
  exact this

@[simp] theorem length_bytesOf (k v : Nat) : (bytesOf k v).length = k := by
  induction k generalizing v with
  | zero => rfl
  | succ k ih => simp [bytesOf, ih]

theorem bytesOf_getElem? (k v i : Nat) (h : i < k) :
    (bytesOf k v)[i]? = some (BitVec.ofNat 8 (v / 256 ^ i)) := by
  induction k generalizing v i with
  | zero => omega
  | succ k ih =>
    cases i with
    | zero => simp [bytesOf]
    | succ i =>
      simp only [bytesOf, List.getElem?_cons_succ]
      rw [ih _ _ (by omega), Nat.div_div_eq_div_mul, pow_succ, mul_comm 256]

/-- R64: the bytes of a number stand for it modulo `256^k`. -/
theorem leNat_bytesOf (k v : Nat) : leNat (bytesOf k v) = v % 256 ^ k := by
  induction k generalizing v with
  | zero => simp [bytesOf, leNat, Nat.mod_one]
  | succ k ih =>
    have he : 256 ^ (k + 1) = 256 * 256 ^ k := by ring
    simp only [bytesOf, leNat, ih, BitVec.toNat_ofNat, he, Nat.mod_mul]

@[simp] theorem length_limbsOf (w n v : Nat) : (limbsOf w n v).length = n := by
  induction n generalizing v with
  | zero => rfl
  | succ n ih => simp [limbsOf, ih]

/-- R13: limb `j` of `v` is `(v >> (j*w)) mod 2^w`. -/
theorem limbsOf_getElem? (w n v j : Nat) (h : j < n) :
    (limbsOf w n v)[j]? = some (v / 2 ^ (j * w) % 2 ^ w) := by
  induction n generalizing v j with
  | zero => omega
  | succ n ih =>
    cases j with
    | zero => simp [limbsOf]
    | succ j =>
      simp only [limbsOf, List.getElem?_cons_succ]
      rw [ih _ _ (by omega), Nat.div_div_eq_div_mul, ← pow_add]
      congr 4; ring

theorem limbsOf_lt (w n v x : Nat) (h : x ∈ limbsOf w n v) : x < 2 ^ w := by
  induction n generalizing v with
  | zero => simp [limbsOf] at h
  | succ n ih =>
    simp only [limbsOf, List.mem_cons] at h
    rcases h with rfl | h
    · exact Nat.mod_lt _ (by positivity)
    · exact ih _ h

/-- R13: `val(limbs(v)) = v` below the radix. -/
theorem limbsVal_limbsOf (w n v : Nat) : limbsVal w (limbsOf w n v) = v % 2 ^ (n * w) := by
  induction n generalizing v with
  | zero => simp [limbsOf, limbsVal, Nat.mod_one]
  | succ n ih =>
    simp only [limbsOf, limbsVal, ih]
    have : (n + 1) * w = w + n * w := by ring
    rw [this, pow_add, Nat.mod_mul]

/-- R13: the limbs of the number a well-formed limb array stands for are that array. -/
theorem limbsOf_limbsVal (w : Nat) (xs : List Nat) (h : ∀ x ∈ xs, x < 2 ^ w) :
    limbsOf w xs.length (limbsVal w xs) = xs := by
  induction xs with
  | nil => rfl
  | cons x xs ih =>
    have hx := h x (by simp)
    simp only [List.length_cons, limbsOf, limbsVal]
    rw [Nat.add_mul_mod_self_left, Nat.mod_eq_of_lt hx, Nat.add_mul_div_left _ _ (by positivity),
      Nat.div_eq_of_lt hx, zero_add, ih fun y hy => h y (by simp [hy])]

theorem limbsVal_lt (w : Nat) (xs : List Nat) (h : ∀ x ∈ xs, x < 2 ^ w) :
    limbsVal w xs < 2 ^ (xs.length * w) := by
  induction xs with
  | nil => simp [limbsVal]
  | cons x xs ih =>
    have hx := h x (by simp)
    have := ih fun y hy => h y (by simp [hy])
    simp only [limbsVal, List.length_cons]
    have he : 2 ^ ((xs.length + 1) * w) = 2 ^ w * 2 ^ (xs.length * w) := by rw [← pow_add]; congr 1; ring
    rw [he]
    calc x + 2 ^ w * limbsVal w xs < 2 ^ w + 2 ^ w * limbsVal w xs := by omega
      _ = 2 ^ w * (limbsVal w xs + 1) := by ring
      _ ≤ _ := Nat.mul_le_mul_left _ this

theorem twos_lt (N : Nat) (s : Int) : twos N s < 2 ^ N := by
  unfold twos
  have h1 := Int.emod_nonneg s (b := ((2 ^ N : ℕ) : ℤ)) (by positivity)
  have h2 := Int.emod_lt_of_pos s (b := ((2 ^ N : ℕ) : ℤ)) (by positivity)
  omega

/-- R215: a pattern gives its signed integer back where that fits. -/
theorem sext_twos {N : Nat} (hN : 0 < N) {s : Int} (hl : -(2 ^ (N - 1) : ℕ) ≤ s)
    (hu : s < (2 ^ (N - 1) : ℕ)) : sext N (twos N s) = s := by
  have hp : (2 ^ N : ℕ) = 2 * 2 ^ (N - 1) := by
    conv_lhs => rw [← Nat.sub_add_cancel hN]
    rw [pow_succ]; ring
  unfold sext twos
  rw [hp]
  generalize (2 ^ (N - 1) : ℕ) = P at *
  by_cases h0 : 0 ≤ s
  · rw [Int.emod_eq_of_lt h0 (by push_cast; omega)]
    rw [if_pos (by omega)]; omega
  · have : s % ((2 * P : ℕ) : ℤ) = s + (2 * P : ℕ) := by
      rw [← Int.add_emod_right, Int.emod_eq_of_lt (by push_cast; omega) (by push_cast; omega)]
    rw [this, if_neg (by push_cast; omega)]
    push_cast; omega

end Sys2Proof
end

