-- ==== Sys2Proof/Laws/Layout.lean ====
section
/-! SUPPORT. What a well-formed parameter record gives (00_scope.md R8, R9): limb widths, odd
moduli, `R > 2p`, positive element sizes, and where the constant tables lie. -/

namespace Sys2Proof

namespace Config

variable {c : Config}

theorem wf_parts (h : c.wf = true) :
    (∀ X, c.limbBitsOk X = true) ∧ (∀ X, c.modulusOk X = true) ∧ (∀ X, c.limbCountOk X = true) ∧
      c.lambdaOk = true ∧ c.betaOk = true ∧ c.arenaOk = true ∧ c.slackOk = true := by
  simp only [Config.wf, Bool.and_eq_true] at h
  obtain ⟨⟨⟨⟨⟨⟨⟨⟨⟨h1, h2⟩, h3⟩, h4⟩, h5⟩, h6⟩, h7⟩, h8⟩, h9⟩, h10⟩ := h
  exact ⟨fun X => by cases X <;> assumption, fun X => by cases X <;> assumption,
    fun X => by cases X <;> assumption, h7, h8, h9, h10⟩

theorem limbBits_pos (h : c.wf = true) (X : Ctx) : 0 < c.limbBits X := by
  have := (wf_parts h).1 X; simp [limbBitsOk] at this; omega

theorem limbBits_le (h : c.wf = true) (X : Ctx) : c.limbBits X ≤ 32 := by
  have := (wf_parts h).1 X; simp [limbBitsOk] at this; omega

theorem three_le_modulus (h : c.wf = true) (X : Ctx) : 3 ≤ c.modulus X := by
  have := (wf_parts h).2.1 X; simp [modulusOk] at this; omega

theorem modulus_pos (h : c.wf = true) (X : Ctx) : 0 < c.modulus X := by
  have := three_le_modulus h X; omega

theorem modulus_odd (h : c.wf = true) (X : Ctx) : c.modulus X % 2 = 1 := by
  have := (wf_parts h).2.1 X; simp [modulusOk] at this; omega

theorem bl_pos (h : c.wf = true) (X : Ctx) : 0 < c.bl X := bitlength_pos (modulus_pos h X)

theorem modulus_lt_two_pow_bl (c : Config) (X : Ctx) : c.modulus X < 2 ^ c.bl X :=
  lt_two_pow_bitlength _

theorem limbs_pos (h : c.wf = true) (X : Ctx) : 0 < c.limbs X :=
  ceilDiv_pos (by omega) (limbBits_pos h X)

theorem bl_lt_radixBits (h : c.wf = true) (X : Ctx) : c.bl X + 1 ≤ c.radixBits X :=
  ceilDiv_mul_ge (limbBits_pos h X)

/-- R8: `R > 2p`. -/
theorem two_modulus_lt_radix (h : c.wf = true) (X : Ctx) : 2 * c.modulus X < c.radix X := by
  have h1 := modulus_lt_two_pow_bl c X
  have h2 : 2 ^ (c.bl X + 1) ≤ c.radix X := Nat.pow_le_pow_right (by norm_num) (bl_lt_radixBits h X)
  rw [pow_succ] at h2
  omega

theorem radix_pos (c : Config) (X : Ctx) : 0 < c.radix X := by unfold radix; positivity

theorem elemBytes_pos (h : c.wf = true) (X : Ctx) : 0 < c.elemBytes X := by
  have := limbs_pos h X; unfold elemBytes; omega

theorem elemBytes_mod_four (c : Config) (X : Ctx) : c.elemBytes X % 4 = 0 := by
  unfold elemBytes; omega

theorem packedBytes_pos (h : c.wf = true) (X : Ctx) : 0 < c.packedBytes X :=
  ceilDiv_pos (bl_pos h X) (by norm_num)

/-- R260: a value below the modulus fits `PB` bytes. -/
theorem modulus_lt_packed (c : Config) (X : Ctx) : c.modulus X < 256 ^ c.packedBytes X := by
  have h1 := modulus_lt_two_pow_bl c X
  have h2 : c.bl X ≤ c.packedBytes X * 8 := ceilDiv_mul_ge (by norm_num)
  have h3 : (256 : ℕ) ^ c.packedBytes X = 2 ^ (c.packedBytes X * 8) := by
    rw [mul_comm, pow_mul]; norm_num
  rw [h3]
  exact h1.trans_le (Nat.pow_le_pow_right (by norm_num) h2)

theorem tableEnd_le_arena (h : c.wf = true) : c.tableEnd ≤ c.arenaBytes := by
  have := (wf_parts h).2.2.2.2.2.1; simp [arenaOk] at this; omega

theorem arena_le (h : c.wf = true) : c.arenaBytes ≤ 2 ^ 32 := by
  have := (wf_parts h).2.2.2.2.2.1; simp [arenaOk] at this; omega

theorem tableEnd_mod_four (c : Config) : c.tableEnd % 4 = 0 := by
  have h1 := elemBytes_mod_four c .F
  have h2 := elemBytes_mod_four c .S
  unfold tableEnd; omega

/-- The entries of a table lie below `CT_END` (R30). -/
theorem entryPtr_add_le {e : Nat} (he : e < 11) (X : Ctx) :
    c.entryPtr X e + c.elemBytes X ≤ c.tableEnd := by
  have h1 : (e + 1) * c.elemBytes X ≤ 11 * c.elemBytes X := Nat.mul_le_mul_right _ (by omega)
  rw [add_mul, one_mul] at h1
  unfold entryPtr tableEnd
  cases X <;> simp only [tableStart] <;> omega

theorem entryPtr_mod_four (c : Config) (X : Ctx) (e : Nat) : c.entryPtr X e % 4 = 0 := by
  have h1 := elemBytes_mod_four c .F
  have h2 : e * c.elemBytes X % 4 = 0 := by
    rw [Nat.mul_mod, elemBytes_mod_four]; simp
  unfold entryPtr
  cases X <;> simp only [tableStart] <;> omega

/-- What reset writes at byte `i` of entry `e` (R30, R66). -/
theorem resetByte_entry (h : c.wf = true) {e i : Nat} (he : e < 11) {X : Ctx}
    (hi : i < c.elemBytes X) :
    c.resetByte (c.entryPtr X e + i) = some (BitVec.ofNat 8
      (c.tableEntry X e / 2 ^ (i / 4 * c.limbBits X) % 2 ^ c.limbBits X / 256 ^ (i % 4))) := by
  have hb := entryPtr_add_le (c := c) he X
  have hpos := elemBytes_pos h X
  have h4 := elemBytes_mod_four c X
  have hdiv : (e * c.elemBytes X + i) / c.elemBytes X = e := by
    rw [Nat.add_comm, Nat.add_mul_div_right _ _ hpos, Nat.div_eq_of_lt hi, zero_add]
  have hmod : (e * c.elemBytes X + i) % c.elemBytes X = i := by
    rw [Nat.add_comm, Nat.add_mul_mod_self_right, Nat.mod_eq_of_lt hi]
  have hm4 : (e * c.elemBytes X + i) % 4 = i % 4 := by
    have : e * c.elemBytes X % 4 = 0 := by rw [Nat.mul_mod, h4]; simp
    omega
  have hE : e * c.elemBytes X + c.elemBytes X ≤ 11 * c.elemBytes X := by
    have h1 : (e + 1) * c.elemBytes X ≤ 11 * c.elemBytes X := Nat.mul_le_mul_right _ (by omega)
    rwa [add_mul, one_mul] at h1
  unfold resetByte entryPtr tableByte
  cases X with
  | F =>
    simp only [tableStart, zero_add]
    rw [if_pos (by omega), hdiv, hmod, hm4]
  | S =>
    have hle : c.tableStart .S + (e * c.elemBytes .S + i) < c.tableEnd := by
      unfold tableEnd; simp only [tableStart]; omega
    rw [if_neg (by omega), if_pos (by omega)]
    have : c.tableStart .S + e * c.elemBytes .S + i - c.tableStart .S = e * c.elemBytes .S + i := by
      omega
    rw [this, hdiv, hmod, hm4]

end Config

end Sys2Proof
end

