-- ==== Sys2Proof/Laws/Memory.lean ====
section
/-! SUPPORT. The laws of the arena as a list of written bytes: a read after a write, every other
place unchanged, and every operation keeps the canonical form and the range of written offsets. The
same for the counts that keep the free values of host reads apart. -/

namespace Sys2Proof

theorem Memory.lookup_insert (a : Nat) (b : Byte) (m : Memory) (x : Nat) :
    Memory.lookup x (Memory.insert a b m) = if x = a then some b else Memory.lookup x m := by
  induction m with
  | nil => simp [Memory.insert, Memory.lookup, eq_comm]
  | cons e m ih =>
    obtain ⟨k, v⟩ := e
    simp only [Memory.insert]
    by_cases h1 : a < k
    · simp [h1, Memory.lookup, eq_comm]
    · by_cases h2 : a = k
      · subst h2
        by_cases hx : a = x <;> simp [Memory.lookup, eq_comm, hx]
      · simp only [h1, h2, if_false, Memory.lookup, ih]
        by_cases hx : x = a
        · subst hx; simp [Ne.symm h2]
        · simp [hx]

theorem Memory.lookup_erase (a : Nat) (m : Memory) (x : Nat) :
    Memory.lookup x (Memory.erase a m) = if x = a then none else Memory.lookup x m := by
  induction m with
  | nil => simp [Memory.erase, Memory.lookup]
  | cons e m ih =>
    obtain ⟨k, v⟩ := e
    simp only [Memory.erase]
    by_cases h : k = a
    · subst h
      by_cases hx : x = k
      · subst hx; simp [ih]
      · simp [ih, Memory.lookup, hx, Ne.symm hx]
    · by_cases hx : k = x
      · subst hx; simp [Memory.lookup, h]
      · simp [h, Memory.lookup, hx, ih]

/-- A read after a write. -/
theorem Memory.read_write (c : Config) (m : Memory) (a : Nat) (b : Byte) (x : Nat) :
    Memory.read c (Memory.write c m a b) x = if x = a then some b else Memory.read c m x := by
  unfold Memory.read Memory.write
  by_cases h : c.resetByte a = some b
  · simp only [h, if_true, Memory.lookup_erase]
    by_cases hx : x = a
    · subst hx; simp [h]
    · simp [hx]
  · simp only [h, if_false, Memory.lookup_insert]
    by_cases hx : x = a <;> simp [hx]

/-- A read after a run of writes. -/
theorem Memory.read_writeBytes (c : Config) (m : Memory) (a : Nat) (bs : List Byte) (x : Nat) :
    Memory.read c (Memory.writeBytes c m a bs) x =
      if a ≤ x ∧ x < a + bs.length then bs[x - a]? else Memory.read c m x := by
  induction bs generalizing m a with
  | nil =>
    have : ¬(a ≤ x ∧ x < a + ([] : List Byte).length) := by simp
    rw [if_neg this]; rfl
  | cons b bs ih =>
    simp only [Memory.writeBytes, ih, Memory.read_write, List.length_cons]
    by_cases hx : x = a
    · subst hx; simp
    · by_cases h1 : a + 1 ≤ x ∧ x < a + 1 + bs.length
      · rw [if_pos h1, if_pos (by omega)]
        obtain ⟨d, hd⟩ : ∃ d, x - a = d + 1 := ⟨x - a - 1, by omega⟩
        rw [hd, List.getElem?_cons_succ]; congr 1; omega
      · simp only [hx, if_false]
        rw [if_neg h1, if_neg (by omega)]

theorem Memory.lookup_forget (m : Memory) (a k x : Nat) :
    Memory.lookup x (Memory.forget m a k) =
      if a ≤ x ∧ x < a + k then none else Memory.lookup x m := by
  induction m with
  | nil => simp [Memory.forget, Memory.lookup]
  | cons e m ih =>
    obtain ⟨j, v⟩ := e
    unfold Memory.forget at ih ⊢
    by_cases hj : a ≤ j ∧ j < a + k
    · rw [List.filter_cons_of_neg (by simp [hj]), ih]
      by_cases hx : j = x
      · subst hx; simp [hj]
      · simp [Memory.lookup, hx]
    · have hf : (!(decide (a ≤ j) && decide (j < a + k))) = true := by simp; omega
      rw [List.filter_cons_of_pos (by exact hf)]
      by_cases hx : j = x
      · subst hx; simp [Memory.lookup, hj]
      · simp only [Memory.lookup, hx, if_false]; exact ih

/-- Forgotten bytes read as reset left them; above the tables that is unspecified. -/
theorem Memory.read_forget (c : Config) (m : Memory) (a k x : Nat) :
    Memory.read c (Memory.forget m a k) x =
      if a ≤ x ∧ x < a + k then c.resetByte x else Memory.read c m x := by
  unfold Memory.read
  rw [Memory.lookup_forget]
  by_cases h : a ≤ x ∧ x < a + k <;> simp [h]

theorem Memory.resetByte_none {c : Config} {a : Nat} (h : c.tableEnd ≤ a) : c.resetByte a = none := by
  have : c.tableStart .S ≤ c.tableEnd := by simp [Config.tableStart, Config.tableEnd]
  unfold Config.resetByte
  rw [if_neg (by omega), if_neg (by omega)]

theorem Memory.mem_insert {a : Nat} {b : Byte} {m : Memory} {e : Host.Cell}
    (h : e ∈ Memory.insert a b m) : e = (a, b) ∨ e ∈ m := by
  induction m with
  | nil => simpa [Memory.insert] using h
  | cons f m ih =>
    obtain ⟨k, v⟩ := f
    simp only [Memory.insert] at h
    split at h
    · simpa [List.mem_cons] using h
    · split at h
      · simp only [List.mem_cons] at h ⊢; tauto
      · simp only [List.mem_cons] at h ⊢
        rcases h with h | h
        · tauto
        · rcases ih h with h | h <;> tauto

theorem Memory.mem_erase {a : Nat} {m : Memory} {e : Host.Cell} (h : e ∈ Memory.erase a m) :
    e ∈ m := by
  induction m with
  | nil => simp [Memory.erase] at h
  | cons f m ih =>
    obtain ⟨k, v⟩ := f
    simp only [Memory.erase] at h
    split at h
    · exact List.mem_cons_of_mem _ (ih h)
    · rcases List.mem_cons.1 h with h | h
      · simp [h]
      · exact List.mem_cons_of_mem _ (ih h)

theorem Memory.wf_cons (c : Config) (k : Nat) (v : Byte) (m : Memory) :
    Memory.wf c ((k, v) :: m) = true ↔
      c.resetByte k ≠ some v ∧ (∀ e ∈ m, k < e.1) ∧ Memory.wf c m = true := by
  simp [Memory.wf, and_assoc]

theorem Memory.wf_insert {c : Config} {a : Nat} {b : Byte} {m : Memory}
    (hb : c.resetByte a ≠ some b) (h : Memory.wf c m = true) :
    Memory.wf c (Memory.insert a b m) = true := by
  induction m with
  | nil => simp [Memory.insert, Memory.wf, hb]
  | cons f m ih =>
    obtain ⟨k, v⟩ := f
    obtain ⟨h1, h2, h3⟩ := (Memory.wf_cons c k v m).1 h
    simp only [Memory.insert]
    split
    · rename_i hlt
      rw [Memory.wf_cons]
      refine ⟨hb, fun e he => ?_, h⟩
      rcases List.mem_cons.1 he with rfl | he
      · exact hlt
      · exact hlt.trans (h2 e he)
    · split
      · rename_i heq
        subst heq
        rw [Memory.wf_cons]; exact ⟨hb, h2, h3⟩
      · rw [Memory.wf_cons]
        refine ⟨h1, fun e he => ?_, ih h3⟩
        rcases Memory.mem_insert he with rfl | he
        · simp; omega
        · exact h2 e he

theorem Memory.wf_erase {c : Config} {a : Nat} {m : Memory} (h : Memory.wf c m = true) :
    Memory.wf c (Memory.erase a m) = true := by
  induction m with
  | nil => simpa [Memory.erase] using h
  | cons f m ih =>
    obtain ⟨k, v⟩ := f
    obtain ⟨h1, h2, h3⟩ := (Memory.wf_cons c k v m).1 h
    simp only [Memory.erase]
    split
    · exact ih h3
    · rw [Memory.wf_cons]
      exact ⟨h1, fun e he => h2 e (Memory.mem_erase he), ih h3⟩

/-- A write keeps the canonical form. -/
theorem Memory.wf_write {c : Config} {m : Memory} (a : Nat) (b : Byte)
    (h : Memory.wf c m = true) : Memory.wf c (Memory.write c m a b) = true := by
  unfold Memory.write
  split
  · exact Memory.wf_erase h
  · rename_i hb; exact Memory.wf_insert hb h

/-- A run of writes keeps the canonical form. -/
theorem Memory.wf_writeBytes {c : Config} {m : Memory} (a : Nat) (bs : List Byte)
    (h : Memory.wf c m = true) : Memory.wf c (Memory.writeBytes c m a bs) = true := by
  induction bs generalizing m a with
  | nil => exact h
  | cons b bs ih => exact ih _ (Memory.wf_write a b h)

/-- Making bytes unspecified keeps the canonical form. -/
theorem Memory.wf_forget {c : Config} {m : Memory} (a k : Nat) (h : Memory.wf c m = true) :
    Memory.wf c (Memory.forget m a k) = true := by
  induction m with
  | nil => exact h
  | cons f m ih =>
    obtain ⟨j, v⟩ := f
    obtain ⟨h1, h2, h3⟩ := (Memory.wf_cons c j v m).1 h
    unfold Memory.forget at ih ⊢
    rw [List.filter_cons]
    split
    · rw [Memory.wf_cons]
      exact ⟨h1, fun e he => h2 e (List.mem_of_mem_filter he), ih h3⟩
    · exact ih h3

theorem Memory.inRange_iff (c : Config) (m : Memory) :
    Memory.inRange c m = true ↔ ∀ e ∈ m, c.tableEnd ≤ e.1 ∧ e.1 < c.arenaBytes := by
  simp [Memory.inRange]

theorem Memory.inRange_write {c : Config} {m : Memory} {a : Nat} (b : Byte)
    (ha : c.tableEnd ≤ a) (ha' : a < c.arenaBytes) (h : Memory.inRange c m = true) :
    Memory.inRange c (Memory.write c m a b) = true := by
  rw [Memory.inRange_iff] at h ⊢
  intro e he
  unfold Memory.write at he
  split at he
  · exact h e (Memory.mem_erase he)
  · rcases Memory.mem_insert he with rfl | he
    · exact ⟨ha, ha'⟩
    · exact h e he

/-- Writes inside the writable range stay there. -/
theorem Memory.inRange_writeBytes {c : Config} {m : Memory} {a : Nat} (bs : List Byte)
    (ha : c.tableEnd ≤ a) (ha' : a + bs.length ≤ c.arenaBytes) (h : Memory.inRange c m = true) :
    Memory.inRange c (Memory.writeBytes c m a bs) = true := by
  induction bs generalizing m a with
  | nil => exact h
  | cons b bs ih =>
    simp only [List.length_cons] at ha'
    exact ih (by omega) (by omega) (Memory.inRange_write b ha (by omega) h)

theorem Memory.inRange_forget {c : Config} {m : Memory} (a k : Nat)
    (h : Memory.inRange c m = true) : Memory.inRange c (Memory.forget m a k) = true := by
  rw [Memory.inRange_iff] at h ⊢
  exact fun e he => h e (List.mem_of_mem_filter he)

theorem Memory.lookup_eq_none {c : Config} {m : Memory} (h : Memory.inRange c m = true) {a : Nat}
    (ha : a < c.tableEnd) : Memory.lookup a m = none := by
  rw [Memory.inRange_iff] at h
  induction m with
  | nil => rfl
  | cons f m ih =>
    obtain ⟨k, v⟩ := f
    have := h (k, v) (by simp)
    simp only [Memory.lookup]
    rw [if_neg (by simp at this; omega)]
    exact ih fun e he => h e (by simp [he])

/-- With written bytes only where writing is allowed, the constant tables read as reset wrote them. -/
theorem Memory.read_table {c : Config} {m : Memory} (h : Memory.inRange c m = true) {a : Nat}
    (ha : a < c.tableEnd) : Memory.read c m a = c.resetByte a := by
  unfold Memory.read; rw [Memory.lookup_eq_none h ha]

/-- In canonical form, equal reads mean equal memories: reading is all there is. -/
theorem Memory.lookup_of_wf {c : Config} {m : Memory} (h : Memory.wf c m = true) {a : Nat}
    {b : Byte} (hl : Memory.lookup a m = some b) : c.resetByte a ≠ some b := by
  induction m with
  | nil => simp [Memory.lookup] at hl
  | cons f m ih =>
    obtain ⟨k, v⟩ := f
    obtain ⟨h1, -, h3⟩ := (Memory.wf_cons c k v m).1 h
    simp only [Memory.lookup] at hl
    split at hl
    · rename_i hk; subst hk; simp only [Option.some.injEq] at hl; subst hl; exact h1
    · exact ih h3 hl

/-- A renewal of one byte leaves the count of every other byte alone. -/
theorem Renewals.count_bump_of_ne {a x : Nat} (hx : x ≠ a) (f : Renewals) :
    Renewals.count x (Renewals.bump a f) = Renewals.count x f := by
  induction f with
  | nil => simp [Renewals.bump, Renewals.count, Ne.symm hx]
  | cons e f ih =>
    obtain ⟨k, n⟩ := e
    by_cases h1 : a < k
    · simp [Renewals.bump, h1, Renewals.count, Ne.symm hx]
    · by_cases h2 : a = k
      · subst h2; simp [Renewals.bump, Renewals.count, Ne.symm hx]
      · simp [Renewals.bump, h1, h2, Renewals.count, ih]

/-- Bytes outside a range that becomes unspecified keep their count. -/
theorem Renewals.count_bumpRange_of_not_mem {a k x : Nat} (hx : ¬(a ≤ x ∧ x < a + k))
    (f : Renewals) : Renewals.count x (Renewals.bumpRange f a k) = Renewals.count x f := by
  induction k generalizing a with
  | zero => rfl
  | succ k ih =>
    rw [Renewals.bumpRange, Renewals.count_bump_of_ne (by omega), ih (by omega)]

theorem Renewals.wf_cons (k n : Nat) (f : Renewals) :
    Renewals.wf ((k, n) :: f) = true ↔ n ≠ 0 ∧ (∀ e ∈ f, k < e.1) ∧ Renewals.wf f = true := by
  simp [Renewals.wf, and_assoc]

theorem Renewals.mem_bump {a : Nat} {f : Renewals} {e : Nat × Nat} (h : e ∈ Renewals.bump a f) :
    e.1 = a ∨ ∃ d ∈ f, e.1 = d.1 := by
  induction f with
  | nil => simp [Renewals.bump] at h; simp [h]
  | cons d f ih =>
    obtain ⟨k, n⟩ := d
    simp only [Renewals.bump] at h
    split at h
    · rcases List.mem_cons.1 h with rfl | h
      · exact .inl rfl
      · exact .inr ⟨e, h, rfl⟩
    · split at h
      · rename_i heq
        rcases List.mem_cons.1 h with rfl | h
        · exact .inl heq.symm
        · exact .inr ⟨e, List.mem_cons_of_mem _ h, rfl⟩
      · rcases List.mem_cons.1 h with rfl | h
        · exact .inr ⟨_, List.mem_cons_self, rfl⟩
        · rcases ih h with h | ⟨d, hd, h⟩
          · exact .inl h
          · exact .inr ⟨d, List.mem_cons_of_mem _ hd, h⟩

theorem Renewals.wf_bump (a : Nat) {f : Renewals} (h : Renewals.wf f = true) :
    Renewals.wf (Renewals.bump a f) = true := by
  induction f with
  | nil => rfl
  | cons d f ih =>
    obtain ⟨k, n⟩ := d
    obtain ⟨h1, h2, h3⟩ := (Renewals.wf_cons k n f).1 h
    simp only [Renewals.bump]
    split
    · rename_i hlt
      rw [Renewals.wf_cons]
      refine ⟨one_ne_zero, fun e he => ?_, h⟩
      rcases List.mem_cons.1 he with rfl | he
      · exact hlt
      · exact hlt.trans (h2 e he)
    · split
      · rw [Renewals.wf_cons]; exact ⟨n.succ_ne_zero, h2, h3⟩
      · rw [Renewals.wf_cons]
        refine ⟨h1, fun e he => ?_, ih h3⟩
        rcases Renewals.mem_bump he with he | ⟨d, hd, he⟩
        · omega
        · rw [he]; exact h2 d hd

/-- Making a range unspecified keeps the canonical form of the counts. -/
theorem Renewals.wf_bumpRange (a k : Nat) {f : Renewals} (h : Renewals.wf f = true) :
    Renewals.wf (Renewals.bumpRange f a k) = true := by
  induction k generalizing a with
  | zero => exact h
  | succ k ih => exact Renewals.wf_bump a (ih (a + 1))

/-- One renewal adds one to the count of its byte. -/
theorem Renewals.count_bump_self (a : Nat) {f : Renewals} (h : Renewals.wf f = true) :
    Renewals.count a (Renewals.bump a f) = Renewals.count a f + 1 := by
  induction f with
  | nil => simp [Renewals.bump, Renewals.count]
  | cons d f ih =>
    obtain ⟨k, n⟩ := d
    obtain ⟨-, h2, h3⟩ := (Renewals.wf_cons k n f).1 h
    by_cases h1 : a < k
    · have hf : ∀ g : Renewals, (∀ e ∈ g, k < e.1) → Renewals.count a g = 0 := by
        intro g hg
        induction g with
        | nil => rfl
        | cons e g ihg =>
          have := hg e List.mem_cons_self
          rw [Renewals.count, if_neg (by omega)]
          exact ihg fun e he => hg e (List.mem_cons_of_mem _ he)
      have hk : ¬k = a := by omega
      simp [Renewals.bump, h1, Renewals.count, hk, hf f h2]
    · by_cases hk : a = k
      · subst hk; simp [Renewals.bump, Renewals.count]
      · simp [Renewals.bump, h1, hk, Renewals.count, Ne.symm hk, ih h3]

end Sys2Proof
end

