-- ==== Sys2Proof/Laws/Elements.lean ====
section
/-! SUPPORT. Reading and writing elements, arrays and byte strings (20_memory.md R64 to R67), said
in the words of `Safety.lean`: what a read answers, and the whole arena after a write. -/

namespace Sys2Proof.Machine

variable {s : State}

/-- `MemRead` where the bytes hold a number. -/
theorem State.memRead_of_bytes {a k v : Nat}
    (h : ∀ i < k, s.byteAt (a + i) = some (BitVec.ofNat 8 (v / 256 ^ i))) :
    s.memRead a k = some (v % 256 ^ k) := by
  induction k generalizing a v with
  | zero => simp [State.memRead, Nat.mod_one]
  | succ k ih =>
    have h0 := h 0 (by omega)
    simp only [Nat.add_zero, pow_zero, Nat.div_one] at h0
    have ht : s.memRead (a + 1) k = some (v / 256 % 256 ^ k) := by
      refine ih fun i hi => ?_
      have := h (i + 1) (by omega)
      rw [Nat.div_div_eq_div_mul, ← pow_succ']
      rw [← this]; congr 1; omega
    have he : 256 ^ (k + 1) = 256 * 256 ^ k := by ring
    simp only [State.memRead, h0, ht, BitVec.toNat_ofNat, he, Nat.mod_mul]

/-- `MemRead` answers only numbers the bytes hold. -/
theorem State.bytes_of_memRead {a k v : Nat} (h : s.memRead a k = some v) :
    v < 256 ^ k ∧ ∀ i < k, s.byteAt (a + i) = some (BitVec.ofNat 8 (v / 256 ^ i)) := by
  induction k generalizing a v with
  | zero => simp only [State.memRead, Option.some.injEq] at h; subst h; simp
  | succ k ih =>
    simp only [State.memRead] at h
    split at h
    · simp at h
    · rename_i b hb
      split at h
      · simp at h
      · rename_i u hu
        simp only [Option.some.injEq] at h
        obtain ⟨h1, h2⟩ := ih hu
        have hblt := b.isLt
        refine ⟨?_, fun i hi => ?_⟩
        · rw [pow_succ]; omega
        · cases i with
          | zero =>
            simp only [Nat.add_zero, pow_zero, Nat.div_one, hb, Option.some.injEq]
            apply BitVec.eq_of_toNat_eq
            simp only [BitVec.toNat_ofNat]; omega
          | succ i =>
            have h3 := h2 i (by omega)
            have : v / 256 = u := by omega
            rw [pow_succ', ← Nat.div_div_eq_div_mul, this, ← h3]; congr 1; omega

/-- A well-formed slot reads as its limb (R65). -/
theorem State.readSlot_of_bytes {w a x : Nat} (hw : w ≤ 32) (hx : x < 2 ^ w)
    (h : ∀ i < 4, s.byteAt (a + i) = some (BitVec.ofNat 8 (x / 256 ^ i))) :
    s.readSlot w a = .ok x := by
  have : x < 256 ^ 4 := hx.trans_le (by
    calc 2 ^ w ≤ 2 ^ 32 := Nat.pow_le_pow_right (by norm_num) hw
      _ = 256 ^ 4 := by norm_num)
  unfold State.readSlot
  rw [State.memRead_of_bytes h, Nat.mod_eq_of_lt this]
  simp [hx]

/-- A slot read answers only what the bytes hold. -/
theorem State.bytes_of_readSlot {w a x : Nat} (h : s.readSlot w a = .ok x) :
    x < 2 ^ w ∧ ∀ i < 4, s.byteAt (a + i) = some (BitVec.ofNat 8 (x / 256 ^ i)) := by
  unfold State.readSlot at h
  split at h
  · simp at h
  · rename_i v hv
    split at h
    · rename_i hlt
      simp only [Except.ok.injEq] at h; subst h
      exact ⟨hlt, (State.bytes_of_memRead hv).2⟩
    · simp at h

theorem State.readSlots_of_bytes {w n a : Nat} {xs : List Nat} (hw : w ≤ 32) (hl : xs.length = n)
    (hx : ∀ x ∈ xs, x < 2 ^ w)
    (h : ∀ i < 4 * n, s.byteAt (a + i) = some (BitVec.ofNat 8 (xs.getD (i / 4) 0 / 256 ^ (i % 4)))) :
    s.readSlots w n a = .ok xs := by
  induction n generalizing a xs with
  | zero => simp [State.readSlots, List.length_eq_zero_iff.1 hl]
  | succ n ih =>
    obtain ⟨x, xs, rfl⟩ := List.exists_cons_of_length_eq_add_one hl
    have h1 : s.readSlot w a = .ok x := by
      refine State.readSlot_of_bytes hw (hx x (by simp)) fun i hi => ?_
      rw [h i (by omega), Nat.div_eq_of_lt hi, Nat.mod_eq_of_lt hi]; simp
    have h2 : s.readSlots w n (a + 4) = .ok xs := by
      refine ih (by simpa using hl) (fun y hy => hx y (by simp [hy])) fun i hi => ?_
      have := h (i + 4) (by omega)
      rw [show (i + 4) / 4 = i / 4 + 1 by omega, show (i + 4) % 4 = i % 4 by omega] at this
      simp only [List.getD_cons_succ] at this
      rw [← this]; congr 1; omega
    simp [State.readSlots, h1, h2]

theorem State.bytes_of_readSlots {w n a : Nat} {xs : List Nat} (h : s.readSlots w n a = .ok xs) :
    xs.length = n ∧ (∀ x ∈ xs, x < 2 ^ w) ∧
      ∀ i < 4 * n, s.byteAt (a + i) = some (BitVec.ofNat 8 (xs.getD (i / 4) 0 / 256 ^ (i % 4))) := by
  induction n generalizing a xs with
  | zero => simp only [State.readSlots, Except.ok.injEq] at h; subst h; simp
  | succ n ih =>
    simp only [State.readSlots] at h
    split at h
    · simp at h
    · rename_i x hx
      split at h
      · simp at h
      · rename_i ys hys
        simp only [Except.ok.injEq] at h; subst h
        obtain ⟨h1, h2, h3⟩ := ih hys
        obtain ⟨h4, h5⟩ := State.bytes_of_readSlot hx
        refine ⟨by simp [h1], fun y hy => ?_, fun i hi => ?_⟩
        · rcases List.mem_cons.1 hy with rfl | hy
          · exact h4
          · exact h2 y hy
        · by_cases hi4 : i < 4
          · rw [h5 i hi4, Nat.div_eq_of_lt hi4, Nat.mod_eq_of_lt hi4]; simp
          · have := h3 (i - 4) (by omega)
            rw [show i / 4 = (i - 4) / 4 + 1 by omega, show i % 4 = (i - 4) % 4 by omega]
            simp only [List.getD_cons_succ]
            rw [← this]; congr 1; omega

theorem elemByte_eq (c : Config) (X : Ctx) (v i : Nat) (hi : i < c.elemBytes X) :
    elemByte c X v i = BitVec.ofNat 8
      ((limbsOf (c.limbBits X) (c.limbs X) v).getD (i / 4) 0 / 256 ^ (i % 4)) := by
  have : i / 4 < c.limbs X := by unfold Config.elemBytes at hi; omega
  unfold elemByte
  rw [List.getD_eq_getElem?_getD, limbsOf_getElem? _ _ _ _ this]; rfl

/-- An element that holds a number reads as its limbs (R66). -/
theorem State.readLimbs_of_holds {X : Ctx} {a v : Nat} (hw : s.cfg.limbBits X ≤ 32)
    (h : s.HoldsElem X a v) :
    s.readLimbs X a = .ok (limbsOf (s.cfg.limbBits X) (s.cfg.limbs X) v) := by
  refine State.readSlots_of_bytes hw (by simp) (fun x hx => limbsOf_lt _ _ _ _ hx) fun i hi => ?_
  rw [h.2 i hi, elemByte_eq _ _ _ _ hi]

/-- `ElemRead` of an element that holds a number (R66). -/
theorem State.readElem_of_holds {X : Ctx} {a v : Nat} (hw : s.cfg.limbBits X ≤ 32)
    (h : s.HoldsElem X a v) : s.readElem X a = .ok v := by
  unfold State.readElem
  rw [State.readLimbs_of_holds hw h]
  simp only [limbsVal_limbsOf]
  exact congrArg Except.ok (Nat.mod_eq_of_lt h.1)

/-- Reading limbs answers only the limbs of a number the element holds. -/
theorem State.holds_of_readLimbs {X : Ctx} {a : Nat} {xs : List Nat}
    (h : s.readLimbs X a = .ok xs) :
    xs = limbsOf (s.cfg.limbBits X) (s.cfg.limbs X) (limbsVal (s.cfg.limbBits X) xs) ∧
      s.HoldsElem X a (limbsVal (s.cfg.limbBits X) xs) := by
  obtain ⟨h1, h2, h3⟩ := State.bytes_of_readSlots h
  have hl := limbsOf_limbsVal _ xs h2
  rw [h1] at hl
  refine ⟨hl.symm, ?_, fun i hi => ?_⟩
  · have := limbsVal_lt _ xs h2
    rwa [h1] at this
  · rw [elemByte_eq _ _ _ _ hi, hl]; exact h3 i hi

/-- `ElemRead` answers only numbers the element holds. -/
theorem State.holds_of_readElem {X : Ctx} {a v : Nat} (h : s.readElem X a = .ok v) :
    s.HoldsElem X a v := by
  unfold State.readElem at h
  split at h
  · simp at h
  · rename_i xs hxs
    simp only [Except.ok.injEq] at h; subst h
    exact (State.holds_of_readLimbs hxs).2

/-- The bytes of limbs, one slot of four bytes each. -/
theorem limbBytes_getElem? (xs : List Nat) (i : Nat) (hi : i < 4 * xs.length) :
    (xs.flatMap (bytesOf 4))[i]? = some (BitVec.ofNat 8 (xs.getD (i / 4) 0 / 256 ^ (i % 4))) := by
  induction xs generalizing i with
  | nil => simp at hi
  | cons x xs ih =>
    rw [List.flatMap_cons]
    by_cases h4 : i < 4
    · rw [List.getElem?_append_left (by simpa), bytesOf_getElem? _ _ _ h4, Nat.div_eq_of_lt h4,
        Nat.mod_eq_of_lt h4]; simp
    · rw [List.getElem?_append_right (by simp; omega), length_bytesOf,
        ih _ (by simp only [List.length_cons] at hi; omega),
        show i / 4 = (i - 4) / 4 + 1 by omega, show i % 4 = (i - 4) % 4 by omega]
      simp

@[simp] theorem length_limbBytes (xs : List Nat) : (xs.flatMap (bytesOf 4)).length = 4 * xs.length := by
  induction xs with
  | nil => rfl
  | cons x xs ih => simp only [List.flatMap_cons, List.length_append, length_bytesOf, ih,
      List.length_cons]; omega

/-- The arena after a run of bytes was written. -/
theorem State.byteAt_writeBytes (a : Nat) (bs : List Byte) (x : Nat) :
    (s.writeBytes a bs).byteAt x = if a ≤ x ∧ x < a + bs.length then bs[x - a]? else s.byteAt x :=
  Memory.read_writeBytes _ _ _ _ _

/-- The arena after an element was written (R66): the element, and every other byte as it was. -/
theorem State.byteAt_writeElem (X : Ctx) (a v : Nat) :
    (s.writeElem X a v).byteAt = withElem s.cfg X a v s.byteAt := by
  funext x
  unfold State.writeElem State.writeLimbs withElem
  rw [State.byteAt_writeBytes]
  have hlen : ((limbsOf (s.cfg.limbBits X) (s.cfg.limbs X) v).flatMap (bytesOf 4)).length =
      s.cfg.elemBytes X := by rw [length_limbBytes, length_limbsOf]; rfl
  rw [hlen]
  by_cases h : a ≤ x ∧ x < a + s.cfg.elemBytes X
  · have hi : x - a < s.cfg.elemBytes X := by omega
    rw [if_pos h, if_pos h, limbBytes_getElem? _ _ (by rw [length_limbsOf]; exact hi),
      elemByte_eq _ _ _ _ hi]
  · rw [if_neg h, if_neg h]

/-- Writing a well-formed limb array is writing the element of its number. -/
theorem State.writeLimbs_eq {X : Ctx} {a : Nat} {xs : List Nat}
    (hl : xs.length = s.cfg.limbs X) (hx : ∀ x ∈ xs, x < 2 ^ s.cfg.limbBits X) :
    s.writeLimbs a xs = s.writeElem X a (limbsVal (s.cfg.limbBits X) xs) := by
  unfold State.writeElem
  rw [← hl, limbsOf_limbsVal _ _ hx]

/-- The arena after a byte string was written (R64). -/
theorem State.byteAt_memWrite (a k v : Nat) :
    (s.memWrite a k v).byteAt = withBytes a k v s.byteAt := by
  funext x
  unfold State.memWrite withBytes
  rw [State.byteAt_writeBytes, length_bytesOf]
  by_cases h : a ≤ x ∧ x < a + k
  · rw [if_pos h, if_pos h, bytesOf_getElem? _ _ _ (by omega)]
  · rw [if_neg h, if_neg h]

/-- The arena after bytes above the tables became unspecified (R33). -/
theorem State.byteAt_forget {a : Nat} (h : s.cfg.tableEnd ≤ a) (k : Nat) :
    (s.forget a k).byteAt = withUnspecified a k s.byteAt := by
  funext x
  have := Memory.read_forget s.cfg s.mem a k x
  unfold withUnspecified
  by_cases hx : a ≤ x ∧ x < a + k
  · rw [if_pos hx] at this ⊢
    rw [Memory.resetByte_none (by omega)] at this
    exact this
  · rw [if_neg hx] at this ⊢; exact this

/-- What the host reads of a byte depends on the byte and its free value only (20_memory.md R70). -/
theorem State.hostByte_congr {t : State} {a : Nat} (hb : t.byteAt a = s.byteAt a)
    (hr : t.free.resets = s.free.resets)
    (hc : Renewals.count a t.free.renewals = Renewals.count a s.free.renewals) :
    t.hostByte a = s.hostByte a := by
  unfold State.hostByte; rw [hb, hr, hc]

/-- A specified byte is what the host reads. -/
theorem State.hostByte_of_some {a : Nat} {b : Byte} (h : s.byteAt a = some b) :
    s.hostByte a = b := by
  unfold State.hostByte; rw [h]; rfl

/-- Making bytes unspecified changes what the host reads at those bytes only. -/
theorem State.hostByte_forget {a k x : Nat} (hx : ¬(a ≤ x ∧ x < a + k)) :
    (s.forget a k).hostByte x = s.hostByte x :=
  State.hostByte_congr ((Memory.read_forget s.cfg s.mem a k x).trans (if_neg hx)) rfl
    (Renewals.count_bumpRange_of_not_mem hx s.free.renewals)

/-- A write changes what the host reads at the written bytes only. -/
theorem State.hostByte_writeBytes {a x : Nat} {bs : List Byte}
    (hx : ¬(a ≤ x ∧ x < a + bs.length)) : (s.writeBytes a bs).hostByte x = s.hostByte x :=
  State.hostByte_congr (by rw [State.byteAt_writeBytes, if_neg hx]) rfl rfl

theorem withElem_hit (c : Config) (X : Ctx) (a v : Nat) (f : Nat → Option Byte) {i : Nat}
    (hi : i < c.elemBytes X) : withElem c X a v f (a + i) = some (elemByte c X v i) := by
  unfold withElem
  rw [if_pos (by omega), Nat.add_sub_cancel_left]

theorem withElem_miss (c : Config) (X : Ctx) (a v : Nat) (f : Nat → Option Byte) {x : Nat}
    (h : x < a ∨ a + c.elemBytes X ≤ x) : withElem c X a v f x = f x := by
  unfold withElem; rw [if_neg (by omega)]

/-- Read after write: a written element holds its number. -/
theorem State.holds_writeElem {X : Ctx} (a : Nat) {v : Nat} (hv : v < s.cfg.radix X) :
    (s.writeElem X a v).HoldsElem X a v := by
  refine ⟨hv, fun i hi => ?_⟩
  rw [State.byteAt_writeElem]
  exact withElem_hit _ _ _ _ _ hi

/-- An element that a write does not touch still holds its number. -/
theorem State.holds_writeElem_of_disjoint {X Y : Ctx} {a b v u : Nat}
    (h : s.HoldsElem Y b u) (hd : Apart a (s.cfg.elemBytes X) b (s.cfg.elemBytes Y)) :
    (s.writeElem X a v).HoldsElem Y b u := by
  refine ⟨h.1, fun i hi => ?_⟩
  rw [State.byteAt_writeElem, withElem_miss _ _ _ _ _ (by simp only [writeElem_cfg] at hi; omega)]
  exact h.2 i hi

/-- The constant-table entries hold the numbers of R30 in every state whose written bytes lie where
writing is allowed. -/
theorem State.holds_entry (hwf : s.cfg.wf = true) (hr : Memory.inRange s.cfg s.mem = true)
    {X : Ctx} {e : Nat} (he : e < 11) (hlt : s.cfg.tableEntry X e < s.cfg.radix X) :
    s.HoldsElem X (s.cfg.entryPtr X e) (s.cfg.tableEntry X e) := by
  refine ⟨hlt, fun i hi => ?_⟩
  have hb := Config.entryPtr_add_le (c := s.cfg) he X
  unfold State.byteAt
  rw [Memory.read_table hr (by omega), Config.resetByte_entry hwf he hi]; rfl

/-- The arena after an array was written (R67). -/
theorem State.byteAt_writeArray {X : Ctx} (hp : 0 < s.cfg.elemBytes X) (a : Nat) (vs : List Nat) :
    (s.writeArray X a vs).byteAt = withArray s.cfg X a vs s.byteAt := by
  induction vs generalizing s a with
  | nil =>
    funext x
    have : ¬(a ≤ x ∧ x < a + ([] : List Nat).length * s.cfg.elemBytes X) := by simp
    unfold withArray; rw [if_neg this]; rfl
  | cons v vs ih =>
    funext x
    have h1 : (s.writeArray X a (v :: vs)) =
      (s.writeElem X a v).writeArray X (a + s.cfg.elemBytes X) vs := rfl
    rw [h1, ih (s := s.writeElem X a v) hp, State.byteAt_writeElem]
    simp only [writeElem_cfg]
    have hs : (vs.length + 1) * s.cfg.elemBytes X = vs.length * s.cfg.elemBytes X + s.cfg.elemBytes X := by
      ring
    unfold withArray withElem
    simp only [List.length_cons, hs]
    by_cases hlo : a ≤ x
    · by_cases h2 : x < a + s.cfg.elemBytes X
      · rw [if_neg (by omega), if_pos (by omega), if_pos (by omega), Nat.div_eq_of_lt (by omega),
          Nat.mod_eq_of_lt (by omega)]; rfl
      · obtain ⟨d, hd⟩ : ∃ d, x - a = d + s.cfg.elemBytes X := ⟨x - a - s.cfg.elemBytes X, by omega⟩
        by_cases h3 : x < a + (vs.length * s.cfg.elemBytes X + s.cfg.elemBytes X)
        · rw [if_pos (by omega), if_pos (by omega), hd, Nat.add_div_right _ hp, Nat.add_mod_right,
            show x - (a + s.cfg.elemBytes X) = d by omega]; simp
        · rw [if_neg (by omega), if_neg (by omega), if_neg (by omega)]
    · rw [if_neg (by omega), if_neg (by omega), if_neg (by omega)]

/-- An array whose elements hold numbers reads as them (R67). -/
theorem State.readArray_of_holds {X : Ctx} {a : Nat} {vs : List Nat} (hw : s.cfg.limbBits X ≤ 32)
    (h : s.HoldsArray X a vs) : s.readArray X vs.length a = .ok vs := by
  induction vs generalizing a with
  | nil => rfl
  | cons v vs ih =>
    have h0 := h 0 (by simp)
    simp only [zero_mul, Nat.add_zero, List.getD_cons_zero] at h0
    have ht : s.HoldsArray X (a + s.cfg.elemBytes X) vs := fun i hi => by
      have := h (i + 1) (by simp; omega)
      rw [List.getD_cons_succ] at this
      have he : a + (i + 1) * s.cfg.elemBytes X = a + s.cfg.elemBytes X + i * s.cfg.elemBytes X := by
        ring
      rwa [he] at this
    simp [State.readArray, State.readElem_of_holds hw h0, ih ht]

/-- A byte string that holds a number reads as it (R64). -/
theorem State.readPacked_of_holds {a k v : Nat} (h : s.HoldsBytes a k v) :
    s.readPacked a k = .ok v := by
  unfold State.readPacked
  rw [State.memRead_of_bytes h.2, Nat.mod_eq_of_lt h.1]

end Sys2Proof.Machine
end

