-- ==== Sys2Proof/Laws/Field.lean ====
section
/-! SUPPORT. The internal units as arithmetic: the Montgomery product is exact and below `2m`
(41_montgomery_multiplier.md R151, R153), the canonical operations are those of the residues
(40_field_engine.md R133, 41_montgomery_multiplier.md R157). -/

namespace Sys2Proof

namespace Config

variable {c : Config} {X : Ctx}

/-- R133: `canon` is the residue below `2m`. -/
theorem canon_eq_mod {v : Nat} (h : v < 2 * c.modulus X) : c.canon X v = v % c.modulus X := by
  unfold canon
  split
  · rw [Nat.mod_eq_sub_mod (by assumption), Nat.mod_eq_of_lt (by omega)]
  · rw [Nat.mod_eq_of_lt (by omega)]

theorem canon_lt {v : Nat} (h : v < 2 * c.modulus X) : c.canon X v < c.modulus X := by
  unfold canon; split <;> omega

theorem canon_of_lt {v : Nat} (h : v < c.modulus X) : c.canon X v = v := by
  unfold canon; rw [if_neg (by omega)]

theorem fadd_eq {a b : Nat} (ha : a < c.modulus X) (hb : b < c.modulus X) :
    c.fadd X a b = (a + b) % c.modulus X := canon_eq_mod (by omega)

theorem fsub_lt {a b : Nat} (ha : a < c.modulus X) (hb : b < c.modulus X) :
    c.fsub X a b < c.modulus X := by
  unfold fsub; split <;> omega

/-- R133: `fsub` is the difference of the residues. -/
theorem fsub_add {a b : Nat} (ha : a < c.modulus X) (hb : b < c.modulus X) :
    (c.fsub X a b + b) % c.modulus X = a := by
  unfold fsub
  split
  · rw [Nat.sub_add_cancel (by assumption), Nat.mod_eq_of_lt ha]
  · rw [Nat.sub_add_cancel (by omega), Nat.add_mod_right, Nat.mod_eq_of_lt ha]

theorem quotDigits_lt (x y : Nat) : c.quotDigits X x y < c.radix X :=
  Nat.mod_lt _ (radix_pos c X)

/-- R151: the quotient digits cancel the low half of the product. -/
theorem quotDigits_cancel (h : c.wf = true) (x y : Nat) :
    c.radix X ∣ x * y + c.quotDigits X x y * c.modulus X := by
  have hR := radix_pos c X
  have hodd := invPow2_spec (modulus_odd h X) (c.radixBits X)
  have hinv : c.modulus X * invPow2 (c.modulus X) (c.radixBits X) ≡ 1 [MOD c.radix X] := hodd
  have h1 : c.quotDigits X x y * c.modulus X ≡ c.radix X - x * y % c.radix X [MOD c.radix X] := by
    unfold quotDigits
    calc (c.radix X - x * y % c.radix X) * invPow2 (c.modulus X) (c.radixBits X) % c.radix X
            * c.modulus X
        ≡ (c.radix X - x * y % c.radix X) * invPow2 (c.modulus X) (c.radixBits X)
            * c.modulus X [MOD c.radix X] := (Nat.mod_modEq _ _).mul_right _
      _ = (c.radix X - x * y % c.radix X)
            * (c.modulus X * invPow2 (c.modulus X) (c.radixBits X)) := by ring
      _ ≡ (c.radix X - x * y % c.radix X) * 1 [MOD c.radix X] := hinv.mul_left _
      _ = _ := by ring
  have h2 : x * y + c.quotDigits X x y * c.modulus X ≡ 0 [MOD c.radix X] := by
    calc x * y + c.quotDigits X x y * c.modulus X
        ≡ x * y % c.radix X + (c.radix X - x * y % c.radix X) [MOD c.radix X] :=
          Nat.ModEq.add (Nat.mod_modEq _ _).symm h1
      _ = c.radix X := by have := Nat.mod_lt (x * y) hR; omega
      _ ≡ 0 [MOD c.radix X] := by simp [Nat.ModEq]
  exact (Nat.modEq_zero_iff_dvd).1 h2

/-- R151: `out * R = x*y + M*m`, the division being exact. -/
theorem mulValue_mul_radix (h : c.wf = true) (x y : Nat) :
    c.mulValue X x y * c.radix X = x * y + c.quotDigits X x y * c.modulus X :=
  Nat.div_mul_cancel (quotDigits_cancel h x y)

/-- R153 (b): the product is below `2m` where `x*y < m*R`. -/
theorem mulValue_lt (h : c.wf = true) {x y : Nat} (hb : x * y < c.modulus X * c.radix X) :
    c.mulValue X x y < 2 * c.modulus X := by
  have h1 := mulValue_mul_radix (X := X) h x y
  have h2 := quotDigits_lt (c := c) (X := X) x y
  have h3 : c.quotDigits X x y * c.modulus X ≤ c.radix X * c.modulus X :=
    Nat.mul_le_mul_right _ h2.le
  have h4 : c.mulValue X x y * c.radix X < 2 * c.modulus X * c.radix X := by
    rw [h1, mul_comm (c.radix X)] at *
    rw [two_mul, add_mul]
    omega
  exact Nat.lt_of_mul_lt_mul_right h4

theorem mul_lt_of_canonical (h : c.wf = true) {a b : Nat} (ha : a < c.modulus X)
    (hb : b < c.modulus X) : a * b < c.modulus X * c.radix X := by
  have := two_modulus_lt_radix h X
  calc a * b ≤ c.modulus X * b := Nat.mul_le_mul_right _ ha.le
    _ < c.modulus X * c.radix X := Nat.mul_lt_mul_of_pos_left (by omega) (by omega)

/-- R157: `fmul` of canonical values is canonical. -/
theorem fmul_lt (h : c.wf = true) {a b : Nat} (ha : a < c.modulus X) (hb : b < c.modulus X) :
    c.fmul X a b < c.modulus X :=
  canon_lt (mulValue_lt h (mul_lt_of_canonical h ha hb))

/-- R157: `fmul(a, b)` is `a * b * R^-1` modulo the modulus. -/
theorem fmul_mul_radix (h : c.wf = true) {a b : Nat} (hb : a * b < c.modulus X * c.radix X) :
    c.fmul X a b * c.radix X ≡ a * b [MOD c.modulus X] := by
  unfold fmul
  rw [canon_eq_mod (mulValue_lt h hb)]
  calc c.mulValue X a b % c.modulus X * c.radix X
      ≡ c.mulValue X a b * c.radix X [MOD c.modulus X] := (Nat.mod_modEq _ _).mul_right _
    _ = a * b + c.quotDigits X a b * c.modulus X := mulValue_mul_radix h a b
    _ ≡ a * b [MOD c.modulus X] := by simp [Nat.ModEq]

/-- The radix is invertible modulo the odd modulus. -/
theorem radix_coprime (h : c.wf = true) (X : Ctx) : Nat.Coprime (c.radix X) (c.modulus X) := by
  unfold radix
  refine Nat.Coprime.pow_left _ ?_
  have := modulus_odd h X
  exact (Nat.coprime_two_left).2 (Nat.odd_iff.2 this)

/-- Cancelling the radix. -/
theorem radix_cancel (h : c.wf = true) {a b : Nat}
    (hab : a * c.radix X ≡ b * c.radix X [MOD c.modulus X]) : a ≡ b [MOD c.modulus X] :=
  Nat.ModEq.cancel_right_of_coprime (radix_coprime h X).symm hab

theorem mont_lt (h : c.wf = true) (X : Ctx) (v : Nat) : c.mont X v < c.modulus X :=
  Nat.mod_lt _ (modulus_pos h X)

/-- Two canonical values with the same product by the radix are one. -/
theorem eq_of_radix (h : c.wf = true) {a b : Nat} (ha : a < c.modulus X) (hb : b < c.modulus X)
    (hab : a * c.radix X ≡ b * c.radix X [MOD c.modulus X]) : a = b := by
  have := radix_cancel h hab
  rwa [Nat.ModEq, Nat.mod_eq_of_lt ha, Nat.mod_eq_of_lt hb] at this

/-- R157: `fmul` multiplies the represented values. -/
theorem fmul_mont (h : c.wf = true) (u v : Nat) :
    c.fmul X (c.mont X u) (c.mont X v) = c.mont X (u * v) := by
  have hu := mont_lt h X u
  have hv := mont_lt h X v
  refine eq_of_radix h (fmul_lt h hu hv) (mont_lt h X _) ?_
  calc c.fmul X (c.mont X u) (c.mont X v) * c.radix X
      ≡ c.mont X u * c.mont X v [MOD c.modulus X] := fmul_mul_radix h (mul_lt_of_canonical h hu hv)
    _ ≡ u * c.radix X * (v * c.radix X) [MOD c.modulus X] :=
        Nat.ModEq.mul (Nat.mod_modEq _ _) (Nat.mod_modEq _ _)
    _ = u * v * c.radix X * c.radix X := by ring
    _ ≡ c.mont X (u * v) * c.radix X [MOD c.modulus X] := (Nat.mod_modEq _ _).symm.mul_right _

/-- Every canonical value is the Montgomery form of some value. -/
theorem exists_mont (h : c.wf = true) {a : Nat} (ha : a < c.modulus X) :
    ∃ v < c.modulus X, c.mont X v = a := by
  obtain ⟨u, hu⟩ := Nat.exists_mul_mod_eq_of_coprime a (radix_coprime h X) (modulus_pos h X).ne'
  refine ⟨u % c.modulus X, Nat.mod_lt _ (modulus_pos h X), ?_⟩
  unfold mont
  rw [Nat.mod_mul_mod, mul_comm, ← Nat.mod_eq_of_lt ha]
  exact hu.2

end Config

end Sys2Proof
end

