-- ==== Sys2Proof/Laws/Limbs.lean ====
section
/-! SUPPORT. What the limb loops of the FieldEngine compute as numbers (40_field_engine.md R122 to
R128): sums with a carry, differences with a borrow, comparisons, the loop of REDUCE. -/

namespace Sys2Proof.Machine

/-- The limb loop of ADD: the sum and its carry. -/
theorem addLimbs_spec (w : Nat) (xs ys : List Nat) (c : Nat) (hl : xs.length = ys.length)
    (hx : ∀ x ∈ xs, x < 2 ^ w) (hy : ∀ y ∈ ys, y < 2 ^ w) (hc : c ≤ 1) :
    (addLimbs w xs ys c).1.length = xs.length ∧
    (∀ z ∈ (addLimbs w xs ys c).1, z < 2 ^ w) ∧ (addLimbs w xs ys c).2 ≤ 1 ∧
    limbsVal w (addLimbs w xs ys c).1 + 2 ^ (xs.length * w) * (addLimbs w xs ys c).2 =
      limbsVal w xs + limbsVal w ys + c := by
  induction xs generalizing ys c with
  | nil =>
    cases ys with
    | nil => simp [addLimbs, limbsVal, hc]
    | cons y ys => simp at hl
  | cons x xs ih =>
    cases ys with
    | nil => simp at hl
    | cons y ys =>
      have hx0 := hx x (by simp)
      have hy0 := hy y (by simp)
      have hp : 0 < 2 ^ w := by positivity
      have hcar : (x + y + c) / 2 ^ w ≤ 1 := by
        have : (x + y + c) / 2 ^ w < 2 := Nat.div_lt_of_lt_mul (by omega)
        omega
      obtain ⟨h1, h2, h3, h4⟩ := ih ys ((x + y + c) / 2 ^ w) (by simpa using hl)
        (fun z hz => hx z (by simp [hz])) (fun z hz => hy z (by simp [hz])) hcar
      simp only [addLimbs, limbsVal, List.length_cons]
      refine ⟨by rw [h1], fun z hz => ?_, h3, ?_⟩
      · rcases List.mem_cons.1 hz with rfl | hz
        · exact Nat.mod_lt _ hp
        · exact h2 z hz
      · have he : 2 ^ ((xs.length + 1) * w) = 2 ^ w * 2 ^ (xs.length * w) := by
          rw [← pow_add]; congr 1; ring
        have hd := Nat.mod_add_div (x + y + c) (2 ^ w)
        rw [he]
        generalize (addLimbs w xs ys ((x + y + c) / 2 ^ w)).2 = co at *
        generalize limbsVal w (addLimbs w xs ys ((x + y + c) / 2 ^ w)).1 = v at *
        calc (x + y + c) % 2 ^ w + 2 ^ w * v + 2 ^ w * 2 ^ (xs.length * w) * co
            = (x + y + c) % 2 ^ w + 2 ^ w * (v + 2 ^ (xs.length * w) * co) := by ring
          _ = (x + y + c) % 2 ^ w + 2 ^ w * ((x + y + c) / 2 ^ w) +
                2 ^ w * (limbsVal w xs + limbsVal w ys) := by rw [h4]; ring
          _ = x + 2 ^ w * limbsVal w xs + (y + 2 ^ w * limbsVal w ys) + c := by rw [hd]; ring

/-- The limb loop of SUB: the difference and its borrow. -/
theorem subLimbs_spec (w : Nat) (xs ys : List Nat) (b : Nat) (hl : xs.length = ys.length)
    (hx : ∀ x ∈ xs, x < 2 ^ w) (hy : ∀ y ∈ ys, y < 2 ^ w) (hb : b ≤ 1) :
    (subLimbs w xs ys b).1.length = xs.length ∧
    (∀ z ∈ (subLimbs w xs ys b).1, z < 2 ^ w) ∧ (subLimbs w xs ys b).2 ≤ 1 ∧
    limbsVal w (subLimbs w xs ys b).1 + limbsVal w ys + b =
      limbsVal w xs + 2 ^ (xs.length * w) * (subLimbs w xs ys b).2 := by
  induction xs generalizing ys b with
  | nil =>
    cases ys with
    | nil => simp [subLimbs, limbsVal, hb]
    | cons y ys => simp at hl
  | cons x xs ih =>
    cases ys with
    | nil => simp at hl
    | cons y ys =>
      have hx0 := hx x (by simp)
      have hy0 := hy y (by simp)
      have hp : 0 < 2 ^ w := by positivity
      obtain ⟨h1, h2, h3, h4⟩ := ih ys (if x < y + b then 1 else 0) (by simpa using hl)
        (fun z hz => hx z (by simp [hz])) (fun z hz => hy z (by simp [hz])) (by split <;> omega)
      simp only [subLimbs, limbsVal, List.length_cons]
      refine ⟨by rw [h1], fun z hz => ?_, h3, ?_⟩
      · rcases List.mem_cons.1 hz with rfl | hz
        · exact Nat.mod_lt _ hp
        · exact h2 z hz
      · have he : 2 ^ ((xs.length + 1) * w) = 2 ^ w * 2 ^ (xs.length * w) := by
          rw [← pow_add]; congr 1; ring
        have hd : (x + 2 ^ w - (y + b)) % 2 ^ w + y + b =
            x + 2 ^ w * (if x < y + b then 1 else 0) := by
          split
          · rw [Nat.mod_eq_of_lt (by omega)]; omega
          · have : x + 2 ^ w - (y + b) = (x - (y + b)) + 2 ^ w := by omega
            rw [this, Nat.add_mod_right, Nat.mod_eq_of_lt (by omega)]; omega
        rw [he]
        generalize (if x < y + b then 1 else 0) = bb at *
        generalize (subLimbs w xs ys bb).2 = co at *
        generalize limbsVal w (subLimbs w xs ys bb).1 = v at *
        calc (x + 2 ^ w - (y + b)) % 2 ^ w + 2 ^ w * v + (y + 2 ^ w * limbsVal w ys) + b
            = (x + 2 ^ w - (y + b)) % 2 ^ w + y + b + 2 ^ w * (v + limbsVal w ys) := by ring
          _ = x + 2 ^ w * (v + limbsVal w ys + bb) := by rw [hd]; ring
          _ = _ := by rw [h4]; ring

/-- ISZERO's limb test is the test of the number (R122). -/
theorem zeroLimbs_eq (w : Nat) (xs : List Nat) : zeroLimbs xs = decide (limbsVal w xs = 0) := by
  unfold zeroLimbs
  induction xs with
  | nil => rfl
  | cons x xs ih =>
    have hp : 0 < 2 ^ w := by positivity
    rw [List.all_cons, ih, limbsVal]
    by_cases hx : x = 0
    · subst hx; simp
    · have : ¬(x + 2 ^ w * limbsVal w xs = 0) := by omega
      simp [hx]

/-- ISEQUAL's limb test is the equality of the numbers (R123). -/
theorem equalLimbs_eq (w : Nat) (xs ys : List Nat) (hl : xs.length = ys.length)
    (hx : ∀ x ∈ xs, x < 2 ^ w) (hy : ∀ y ∈ ys, y < 2 ^ w) :
    equalLimbs xs ys = decide (limbsVal w xs = limbsVal w ys) := by
  have h1 : equalLimbs xs ys = decide (xs = ys) := by
    clear hx hy
    induction xs generalizing ys with
    | nil => cases ys <;> simp_all [equalLimbs]
    | cons x xs ih =>
      cases ys with
      | nil => simp at hl
      | cons y ys =>
        rw [equalLimbs, ih ys (by simpa using hl)]
        by_cases h : x = y <;> simp [h]
  rw [h1]
  congr 1
  refine propext ⟨fun h => by rw [h], fun h => ?_⟩
  rw [← limbsOf_limbsVal w xs hx, ← limbsOf_limbsVal w ys hy, h, hl]

theorem greaterFromTop_append (xs ys : List Nat) (x y : Nat) (hl : xs.length = ys.length) :
    greaterFromTop (xs ++ [x]) (ys ++ [y]) =
      (greaterFromTop xs ys || (xs == ys && decide (x > y))) := by
  induction xs generalizing ys with
  | nil => cases ys <;> simp_all [greaterFromTop]
  | cons a xs ih =>
    cases ys with
    | nil => simp at hl
    | cons b ys =>
      simp only [List.cons_append, greaterFromTop]
      rw [ih ys (by simpa using hl)]
      by_cases h1 : a > b
      · simp [h1]
      · by_cases h2 : a < b
        · have : ¬(a = b) := by omega
          simp [h1, h2, this]
        · have : a = b := by omega
          subst this; simp

/-- ISGREATER's limb procedure is the comparison of the numbers (R124). -/
theorem greaterLimbs_eq (w : Nat) (xs ys : List Nat) (hl : xs.length = ys.length)
    (hx : ∀ x ∈ xs, x < 2 ^ w) (hy : ∀ y ∈ ys, y < 2 ^ w) :
    greaterLimbs xs ys = decide (limbsVal w xs > limbsVal w ys) := by
  unfold greaterLimbs
  induction xs generalizing ys with
  | nil => cases ys <;> simp_all [greaterFromTop, limbsVal]
  | cons x xs ih =>
    cases ys with
    | nil => simp at hl
    | cons y ys =>
      have hl' : xs.length = ys.length := by simpa using hl
      have hxs : ∀ z ∈ xs, z < 2 ^ w := fun z hz => hx z (by simp [hz])
      have hys : ∀ z ∈ ys, z < 2 ^ w := fun z hz => hy z (by simp [hz])
      have hx0 := hx x (by simp)
      have hy0 := hy y (by simp)
      have heq : (xs.reverse == ys.reverse) = decide (limbsVal w xs = limbsVal w ys) := by
        rw [← equalLimbs_eq w xs ys hl' hxs hys]
        have : equalLimbs xs ys = decide (xs = ys) := by
          rw [equalLimbs_eq w xs ys hl' hxs hys]
          congr 1
          refine propext ⟨fun h => ?_, fun h => by rw [h]⟩
          rw [← limbsOf_limbsVal w xs hxs, ← limbsOf_limbsVal w ys hys, h, hl']
        rw [this]; by_cases h : xs = ys <;> simp [h]
      rw [List.reverse_cons, List.reverse_cons, greaterFromTop_append _ _ _ _ (by simpa using hl'),
        ih ys hl' hxs hys, heq]
      rw [Bool.eq_iff_iff]
      simp only [Bool.or_eq_true, Bool.and_eq_true, decide_eq_true_eq]
      show _ ↔ x + 2 ^ w * limbsVal w xs > y + 2 ^ w * limbsVal w ys
      constructor
      · rintro (h | ⟨h1, h2⟩)
        · have : 2 ^ w * (limbsVal w ys + 1) ≤ 2 ^ w * limbsVal w xs := Nat.mul_le_mul_left _ h
          rw [Nat.mul_add] at this; omega
        · rw [h1]; omega
      · intro h
        by_cases hgt : limbsVal w xs > limbsVal w ys
        · exact .inl hgt
        · by_cases he : limbsVal w xs = limbsVal w ys
          · right; rw [he] at h; exact ⟨he, by omega⟩
          · exfalso
            have : 2 ^ w * (limbsVal w xs + 1) ≤ 2 ^ w * limbsVal w ys :=
              Nat.mul_le_mul_left _ (by omega)
            rw [Nat.mul_add] at this; omega

/-- The loop of REDUCE (R128): below `(n+1)` moduli, `n + 1` trials give the residue. -/
theorem reduceLimbs_spec (w : Nat) (ps : List Nat) (n : Nat) (xs : List Nat)
    (hl : xs.length = ps.length) (hx : ∀ x ∈ xs, x < 2 ^ w) (hp : ∀ x ∈ ps, x < 2 ^ w)
    (hb : limbsVal w xs < (n + 1) * limbsVal w ps) :
    (reduceLimbs w ps (n + 1) xs).length = ps.length ∧
    (∀ z ∈ reduceLimbs w ps (n + 1) xs, z < 2 ^ w) ∧
    limbsVal w (reduceLimbs w ps (n + 1) xs) = limbsVal w xs % limbsVal w ps := by
  induction n generalizing xs with
  | zero =>
    obtain ⟨h1, h2, h3, h4⟩ := subLimbs_spec w xs ps 0 hl hx hp (by omega)
    have hlt := limbsVal_lt w (subLimbs w xs ps 0).1 h2
    rw [h1] at hlt
    have hbor : (subLimbs w xs ps 0).2 = 1 := by
      by_contra hne
      have : (subLimbs w xs ps 0).2 = 0 := by omega
      rw [this] at h4; omega
    simp only [reduceLimbs, hbor, if_true]
    exact ⟨hl, hx, (Nat.mod_eq_of_lt (by omega)).symm⟩
  | succ n ih =>
    obtain ⟨h1, h2, h3, h4⟩ := subLimbs_spec w xs ps 0 hl hx hp (by omega)
    have hlt := limbsVal_lt w (subLimbs w xs ps 0).1 h2
    rw [h1] at hlt
    rw [reduceLimbs]
    by_cases hbor : (subLimbs w xs ps 0).2 = 1
    · simp only [hbor, if_true]
      rw [hbor] at h4
      exact ⟨hl, hx, (Nat.mod_eq_of_lt (by omega)).symm⟩
    · simp only [hbor, if_false]
      have h0 : (subLimbs w xs ps 0).2 = 0 := by omega
      rw [h0] at h4
      have hge : limbsVal w xs = limbsVal w (subLimbs w xs ps 0).1 + limbsVal w ps := by omega
      obtain ⟨h5, h6, h7⟩ := ih (subLimbs w xs ps 0).1 (by omega) h2 (by
        rw [add_mul, one_mul] at hb; omega)
      refine ⟨h5, h6, ?_⟩
      rw [h7, hge, Nat.add_mod_right]

end Sys2Proof.Machine
end

