-- ==== Sys2Proof/Laws/PerInstr.lean ====
section
/-! SUPPORT. The family of per-instruction lemmas: the descriptor of every command is legal in the
sense of 30_encoding.md R97, whatever its operands. -/

namespace Sys2Proof.Laws

/-- The encoder's descriptor of a command breaks no clause of R97. -/
def EncodeLegal.Statement (i : Instr) : Prop := (encode i).legal = true

theorem EncodeLegal.iszero (X : Ctx) (x : Word) : EncodeLegal.Statement (.iszero X x) := by
  cases X <;> simp [EncodeLegal.Statement, encode, Descriptor.legal, Descriptor.opcodeAssigned, Descriptor.reservedZero,
    Descriptor.contextOk, Descriptor.unusedZero, Descriptor.operandCount, Descriptor.opcode,
    Descriptor.reserved, word0]

theorem EncodeLegal.isequal (X : Ctx) (x y : Word) : EncodeLegal.Statement (.isequal X x y) := by
  cases X <;> simp [EncodeLegal.Statement, encode, Descriptor.legal, Descriptor.opcodeAssigned, Descriptor.reservedZero,
    Descriptor.contextOk, Descriptor.unusedZero, Descriptor.operandCount, Descriptor.opcode,
    Descriptor.reserved, word0]

theorem EncodeLegal.isgreater (X : Ctx) (x y : Word) : EncodeLegal.Statement (.isgreater X x y) := by
  cases X <;> simp [EncodeLegal.Statement, encode, Descriptor.legal, Descriptor.opcodeAssigned, Descriptor.reservedZero,
    Descriptor.contextOk, Descriptor.unusedZero, Descriptor.operandCount, Descriptor.opcode,
    Descriptor.reserved, word0]

theorem EncodeLegal.add (X : Ctx) (out x y : Word) : EncodeLegal.Statement (.add X out x y) := by
  cases X <;> simp [EncodeLegal.Statement, encode, Descriptor.legal, Descriptor.opcodeAssigned, Descriptor.reservedZero,
    Descriptor.contextOk, Descriptor.unusedZero, Descriptor.operandCount, Descriptor.opcode,
    Descriptor.reserved, word0]

theorem EncodeLegal.sub (X : Ctx) (out x y : Word) : EncodeLegal.Statement (.sub X out x y) := by
  cases X <;> simp [EncodeLegal.Statement, encode, Descriptor.legal, Descriptor.opcodeAssigned, Descriptor.reservedZero,
    Descriptor.contextOk, Descriptor.unusedZero, Descriptor.operandCount, Descriptor.opcode,
    Descriptor.reserved, word0]

theorem EncodeLegal.subpos (X : Ctx) (out x y : Word) : EncodeLegal.Statement (.subpos X out x y) := by
  cases X <;> simp [EncodeLegal.Statement, encode, Descriptor.legal, Descriptor.opcodeAssigned, Descriptor.reservedZero,
    Descriptor.contextOk, Descriptor.unusedZero, Descriptor.operandCount, Descriptor.opcode,
    Descriptor.reserved, word0]

theorem EncodeLegal.reduce (X : Ctx) (x : Word) : EncodeLegal.Statement (.reduce X x) := by
  cases X <;> simp [EncodeLegal.Statement, encode, Descriptor.legal, Descriptor.opcodeAssigned, Descriptor.reservedZero,
    Descriptor.contextOk, Descriptor.unusedZero, Descriptor.operandCount, Descriptor.opcode,
    Descriptor.reserved, word0]

theorem EncodeLegal.copy (X : Ctx) (out x : Word) : EncodeLegal.Statement (.copy X out x) := by
  cases X <;> simp [EncodeLegal.Statement, encode, Descriptor.legal, Descriptor.opcodeAssigned, Descriptor.reservedZero,
    Descriptor.contextOk, Descriptor.unusedZero, Descriptor.operandCount, Descriptor.opcode,
    Descriptor.reserved, word0]

theorem EncodeLegal.mul (X : Ctx) (out x y : Word) : EncodeLegal.Statement (.mul X out x y) := by
  cases X <;> simp [EncodeLegal.Statement, encode, Descriptor.legal, Descriptor.opcodeAssigned, Descriptor.reservedZero,
    Descriptor.contextOk, Descriptor.unusedZero, Descriptor.operandCount, Descriptor.opcode,
    Descriptor.reserved, word0]

theorem EncodeLegal.sqr (X : Ctx) (out x : Word) : EncodeLegal.Statement (.sqr X out x) := by
  cases X <;> simp [EncodeLegal.Statement, encode, Descriptor.legal, Descriptor.opcodeAssigned, Descriptor.reservedZero,
    Descriptor.contextOk, Descriptor.unusedZero, Descriptor.operandCount, Descriptor.opcode,
    Descriptor.reserved, word0]

theorem EncodeLegal.lshift (X : Ctx) (out x k : Word) : EncodeLegal.Statement (.lshift X out x k) := by
  cases X <;> simp [EncodeLegal.Statement, encode, Descriptor.legal, Descriptor.opcodeAssigned, Descriptor.reservedZero,
    Descriptor.contextOk, Descriptor.unusedZero, Descriptor.operandCount, Descriptor.opcode,
    Descriptor.reserved, word0]

theorem EncodeLegal.inv (X : Ctx) (out x : Word) : EncodeLegal.Statement (.inv X out x) := by
  cases X <;> simp [EncodeLegal.Statement, encode, Descriptor.legal, Descriptor.opcodeAssigned, Descriptor.reservedZero,
    Descriptor.contextOk, Descriptor.unusedZero, Descriptor.operandCount, Descriptor.opcode,
    Descriptor.reserved, word0]

theorem EncodeLegal.makeodd (X : Ctx) (x : Word) : EncodeLegal.Statement (.makeodd X x) := by
  cases X <;> simp [EncodeLegal.Statement, encode, Descriptor.legal, Descriptor.opcodeAssigned, Descriptor.reservedZero,
    Descriptor.contextOk, Descriptor.unusedZero, Descriptor.operandCount, Descriptor.opcode,
    Descriptor.reserved, word0]

theorem EncodeLegal.batchinv (X : Ctx) (out x m : Word) : EncodeLegal.Statement (.batchinv X out x m) := by
  cases X <;> simp [EncodeLegal.Statement, encode, Descriptor.legal, Descriptor.opcodeAssigned, Descriptor.reservedZero,
    Descriptor.contextOk, Descriptor.unusedZero, Descriptor.operandCount, Descriptor.opcode,
    Descriptor.reserved, word0]

theorem EncodeLegal.sqrt (X : Ctx) (scratch out x : Word) : EncodeLegal.Statement (.sqrt X scratch out x) := by
  cases X <;> simp [EncodeLegal.Statement, encode, Descriptor.legal, Descriptor.opcodeAssigned, Descriptor.reservedZero,
    Descriptor.contextOk, Descriptor.unusedZero, Descriptor.operandCount, Descriptor.opcode,
    Descriptor.reserved, word0]

theorem EncodeLegal.decompose (out0 out1 sc : Word) : EncodeLegal.Statement (.decompose out0 out1 sc) := by
  simp [EncodeLegal.Statement, encode, Descriptor.legal, Descriptor.opcodeAssigned, Descriptor.reservedZero,
    Descriptor.contextOk, Descriptor.unusedZero, Descriptor.operandCount, Descriptor.opcode,
    Descriptor.ctx, Descriptor.reserved, word0]

theorem EncodeLegal.decomposeNomsb (out0 out1 sc : Word) : EncodeLegal.Statement (.decomposeNomsb out0 out1 sc) := by
  simp [EncodeLegal.Statement, encode, Descriptor.legal, Descriptor.opcodeAssigned, Descriptor.reservedZero,
    Descriptor.contextOk, Descriptor.unusedZero, Descriptor.operandCount, Descriptor.opcode,
    Descriptor.ctx, Descriptor.reserved, word0]

theorem EncodeLegal.decomposeGen (out0 out1 sc lam : Word) : EncodeLegal.Statement (.decomposeGen out0 out1 sc lam) := by
  simp [EncodeLegal.Statement, encode, Descriptor.legal, Descriptor.opcodeAssigned, Descriptor.reservedZero,
    Descriptor.contextOk, Descriptor.unusedZero, Descriptor.operandCount, Descriptor.opcode,
    Descriptor.ctx, Descriptor.reserved, word0]

theorem EncodeLegal.addaffine (scratch out p1 p2 d : Word) : EncodeLegal.Statement (.addaffine scratch out p1 p2 d) := by
  simp [EncodeLegal.Statement, encode, Descriptor.legal, Descriptor.opcodeAssigned, Descriptor.reservedZero,
    Descriptor.contextOk, Descriptor.unusedZero, Descriptor.operandCount, Descriptor.opcode,
    Descriptor.ctx, Descriptor.reserved, word0]

theorem EncodeLegal.endo (out p : Word) : EncodeLegal.Statement (.endo out p) := by
  simp [EncodeLegal.Statement, encode, Descriptor.legal, Descriptor.opcodeAssigned, Descriptor.reservedZero,
    Descriptor.contextOk, Descriptor.unusedZero, Descriptor.operandCount, Descriptor.opcode,
    Descriptor.ctx, Descriptor.reserved, word0]

theorem EncodeLegal.allocStable (X : Ctx) (k : Word) : EncodeLegal.Statement (.allocStable X k) := by
  cases X <;> simp [EncodeLegal.Statement, encode, Descriptor.legal, Descriptor.opcodeAssigned, Descriptor.reservedZero,
    Descriptor.contextOk, Descriptor.unusedZero, Descriptor.operandCount, Descriptor.opcode,
    Descriptor.reserved, word0]

theorem EncodeLegal.allocScratch (X : Ctx) (k : Word) : EncodeLegal.Statement (.allocScratch X k) := by
  cases X <;> simp [EncodeLegal.Statement, encode, Descriptor.legal, Descriptor.opcodeAssigned, Descriptor.reservedZero,
    Descriptor.contextOk, Descriptor.unusedZero, Descriptor.operandCount, Descriptor.opcode,
    Descriptor.reserved, word0]

theorem EncodeLegal.resetScratch : EncodeLegal.Statement (.resetScratch) := by
  simp [EncodeLegal.Statement, encode, Descriptor.legal, Descriptor.opcodeAssigned, Descriptor.reservedZero,
    Descriptor.contextOk, Descriptor.unusedZero, Descriptor.operandCount, Descriptor.opcode,
    Descriptor.ctx, Descriptor.reserved, word0]

theorem EncodeLegal.fromPacked (X : Ctx) (elem bytes len : Word) : EncodeLegal.Statement (.fromPacked X elem bytes len) := by
  cases X <;> simp [EncodeLegal.Statement, encode, Descriptor.legal, Descriptor.opcodeAssigned, Descriptor.reservedZero,
    Descriptor.contextOk, Descriptor.unusedZero, Descriptor.operandCount, Descriptor.opcode,
    Descriptor.reserved, word0]

theorem EncodeLegal.toPacked (X : Ctx) (bytes elem len : Word) : EncodeLegal.Statement (.toPacked X bytes elem len) := by
  cases X <;> simp [EncodeLegal.Statement, encode, Descriptor.legal, Descriptor.opcodeAssigned, Descriptor.reservedZero,
    Descriptor.contextOk, Descriptor.unusedZero, Descriptor.operandCount, Descriptor.opcode,
    Descriptor.reserved, word0]

end Sys2Proof.Laws
end

