-- ==== Sys2Proof/Tests/Slice0.lean ====
section
/-! SUPPORT. Tests, each a named theorem. Expected values are the spec's own worked values; the rule
or vector stands beside each. `witness_<Name>` shows a state and operands that meet all hypotheses
of the obligation `<Name>`, clause by clause, at the borders where there are any. Instance T13
(00_scope.md R11) unless a test says BLS32. -/

set_option Elab.async false

namespace Sys2Proof.Tests

open Sys2Proof.Machine

/-- T13 right after reset, with elements of a context laid from offset 176 on. -/
def st (X : Ctx) (vs : List Nat) : State := (State.resetOf t13).writeArray X 176 vs

/-- The element at an offset after a step. -/
def elemAfter (X : Ctx) (a : Nat) : Host.Outcome State Fault Refusal → Option Nat
  | .next t => match t.readElem X a with
    | .ok v => some v
    | .error _ => none
  | _ => none

/-- OK, CB and RES after a step. -/
def flagsAfter : Host.Outcome State Fault Refusal → Option (Bool × Bool × Nat)
  | .next t => some (t.ok, t.cb, t.res.toNat)
  | _ => none

/-- RES, BASE and OFFSET after a step. -/
def allocAfter : Host.Outcome State Fault Refusal → Option (Nat × Nat × Nat)
  | .next t => some (t.res.toNat, t.base, t.offset)
  | _ => none

/-- STATUS and FAULTINFO after a step. -/
def faultAfter : Host.Outcome State Fault Refusal → Option (Nat × Nat)
  | .next t => some ((t.readReg 0).toNat, (t.readReg 2).toNat)
  | _ => none

/-- One arena byte after a step. -/
def byteAfter (a : Nat) : Host.Outcome State Fault Refusal → Option Nat
  | .next t => (t.byteAt a).map (·.toNat)
  | _ => none

/-- The next state of a step. -/
def nextOf : Host.Outcome State Fault Refusal → Option State
  | .next t => some t
  | _ => none

/-- The refusal of a step. -/
def refusalOf : Host.Outcome State Fault Refusal → Option Refusal
  | .refused r => some r
  | _ => none

/-! ### Well-formedness (R9, R97) -/

theorem test_wf_instances : t13.wf = true ∧ bls32.wf = true := by decide +kernel
theorem test_wf_limb_width_33 : ({ t13 with wF := 33 } : Config).limbBitsOk .F = false ∧
    ({ t13 with wF := 33 } : Config).wf = false := by decide +kernel
theorem test_wf_limb_width_0 : ({ t13 with wS := 0 } : Config).limbBitsOk .S = false ∧
    ({ t13 with wS := 0 } : Config).wf = false := by decide +kernel
theorem test_wf_even_modulus : ({ t13 with p := 14 } : Config).modulusOk .F = false ∧
    ({ t13 with p := 14 } : Config).wf = false := by decide +kernel
theorem test_wf_limb_count : ({ t13 with nmax := 1 } : Config).limbCountOk .S = false ∧
    ({ t13 with nmax := 1 } : Config).wf = false := by decide +kernel
theorem test_wf_lambda : ({ t13 with lambda := 8 } : Config).lambdaOk = false ∧
    ({ t13 with lambda := 1 } : Config).wf = false := by decide +kernel
theorem test_wf_beta : ({ t13 with beta := 2 } : Config).betaOk = false ∧
    ({ t13 with beta := 1 } : Config).wf = false := by decide +kernel
theorem test_wf_arena : ({ t13 with arenaBytes := 1022 } : Config).arenaOk = false ∧
    ({ t13 with arenaBytes := 172 } : Config).arenaOk = false ∧
    ({ t13 with arenaBytes := 2 ^ 32 + 4 } : Config).arenaOk = false ∧
    ({ t13 with arenaBytes := 172 } : Config).wf = false := by decide +kernel
theorem test_wf_slack : ({ t13 with glvEps := 3 } : Config).slackOk = true ∧
    ({ t13 with glvEps := 4 } : Config).slackOk = false ∧
    ({ t13 with glvEps := 4 } : Config).wf = false := by decide +kernel
/-- R97 (a) to (d), each clause broken alone. -/
theorem test_illegal_descriptors :
    (⟨0x09, 0xB0, 0, 0, 0, 0⟩ : Descriptor).opcodeAssigned = false ∧
    (⟨0x210, 0xB8, 0xB0, 0x20, 0, 0⟩ : Descriptor).reservedZero = false ∧
    (⟨0x40, 0xB0, 0xB8, 0xC0, 0, 0⟩ : Descriptor).contextOk = false ∧
    (⟨0x162, 0, 0, 0, 0, 0⟩ : Descriptor).contextOk = false ∧
    (⟨0x01, 0xB0, 4, 0, 0, 0⟩ : Descriptor).unusedZero = false ∧
    (⟨0x62, 1, 0, 0, 0, 0⟩ : Descriptor).legal = false ∧
    (⟨0x80000001, 0, 0, 0, 0, 0⟩ : Descriptor).legal = false := by decide

/-! ### Decoding: the opcodes of R96, the operand order of R94, the context bit of R91 -/

theorem test_decode_compare :
    decode ⟨0x00000001, 0xB0, 0, 0, 0, 0⟩ = .ok (.iszero .F 0xB0) ∧
    decode ⟨0x00000102, 0xB0, 0xB8, 0, 0, 0⟩ = .ok (.isequal .S 0xB0 0xB8) ∧
    decode ⟨0x00000003, 0xB0, 0xB8, 0, 0, 0⟩ = .ok (.isgreater .F 0xB0 0xB8) := by decide
theorem test_decode_add_family :
    decode ⟨0x00000004, 0xC0, 0xB0, 0xB8, 0, 0⟩ = .ok (.add .F 0xC0 0xB0 0xB8) ∧
    decode ⟨0x00000105, 0xC0, 0xB0, 0xB8, 0, 0⟩ = .ok (.sub .S 0xC0 0xB0 0xB8) ∧
    decode ⟨0x00000006, 0xC0, 0xB0, 0xB8, 0, 0⟩ = .ok (.subpos .F 0xC0 0xB0 0xB8) ∧
    decode ⟨0x00000107, 0xC0, 0, 0, 0, 0⟩ = .ok (.reduce .S 0xC0) ∧
    decode ⟨0x00000008, 0xB0, 0x10, 0, 0, 0⟩ = .ok (.copy .F 0xB0 0x10) := by decide
theorem test_decode_multiplier :
    decode ⟨0x00000110, 0xB8, 0xB0, 0x78, 0, 0⟩ = .ok (.mul .S 0xB8 0xB0 0x78) ∧
    decode ⟨0x00000011, 0xB8, 0xB0, 0, 0, 0⟩ = .ok (.sqr .F 0xB8 0xB0) ∧
    decode ⟨0x00000012, 0xB8, 0xB0, 0xFFFFFFFF, 0, 0⟩ = .ok (.lshift .F 0xB8 0xB0 0xFFFFFFFF) := by
  decide
theorem test_decode_inverter :
    decode ⟨0x00000020, 0xB8, 0xB0, 0, 0, 0⟩ = .ok (.inv .F 0xB8 0xB0) ∧
    decode ⟨0x00000121, 0xB8, 0, 0, 0, 0⟩ = .ok (.makeodd .S 0xB8) ∧
    decode ⟨0x00000022, 0x100, 0xF0, 2, 0, 0⟩ = .ok (.batchinv .F 0x100 0xF0 2) := by decide
theorem test_decode_sqrt :
    decode ⟨0x00000130, 0xA0, 0xC8, 0x18, 0, 0⟩ = .ok (.sqrt .S 0xA0 0xC8 0x18) := by decide
theorem test_decode_decomposer :
    decode ⟨0x00000140, 1, 2, 3, 0, 0⟩ = .ok (.decompose 1 2 3) ∧
    decode ⟨0x00000141, 1, 2, 3, 0, 0⟩ = .ok (.decomposeNomsb 1 2 3) ∧
    decode ⟨0x00000142, 1, 2, 3, 4, 0⟩ = .ok (.decomposeGen 1 2 3 4) ∧
    decode ⟨0x00000142, 1, 2, 3, 4, 5⟩ = .error .unusedOperand := by decide
theorem test_decode_curve :
    decode ⟨0x00000050, 1, 2, 3, 4, 5⟩ = .ok (.addaffine 1 2 3 4 5) ∧
    decode ⟨0x00000051, 1, 2, 0, 0, 0⟩ = .ok (.endo 1 2) ∧
    decode ⟨0x00000151, 0xB0, 0xC0, 0, 0, 0⟩ = .error .wrongContext := by decide
theorem test_decode_arena :
    decode ⟨0x00000160, 3, 0, 0, 0, 0⟩ = .ok (.allocStable .S 3) ∧
    decode ⟨0x00000061, 4, 0, 0, 0, 0⟩ = .ok (.allocScratch .F 4) ∧
    decode ⟨0x00000062, 0, 0, 0, 0, 0⟩ = .ok .resetScratch ∧
    decode ⟨0x00000063, 2, 0x3FD, 2, 0, 0⟩ = .ok (.fromPacked .F 2 0x3FD 2) ∧
    decode ⟨0x00000164, 0xAF, 0x18, 1, 0, 0⟩ = .ok (.toPacked .S 0xAF 0x18 1) := by decide
/-- The 24 bytes of R99's example, `MUL.F 184, 176, C_F(R2)`, and a buffer one byte short (R90). -/
theorem test_decode_bytes :
    decodeBytes [0x10, 0, 0, 0, 0xB8, 0, 0, 0, 0xB0, 0, 0, 0, 0x20, 0, 0, 0, 0, 0, 0, 0, 0, 0, 0, 0,
      0xAA] = .ok (.mul .F 184 176 32, [0xAA]) ∧
    decodeBytes (List.replicate 23 0) = .error .truncated := by decide
theorem test_decode_table_word :
    decodeTableWord 32 0x00000101 = some (.iszero .S 0) ∧
    decodeTableWord 192 0xB000000010 = some (.mul .F 176 0 0) ∧ decodeTableWord 32 0 = none := by
  decide
/-- R99's text form. -/
theorem test_asm_line : asmLine (.mul .F 184 176 32) = "MUL.F 184, 176, 32" ∧
    asmLine .resetScratch = "RESET_SCRATCH" := by decide +kernel

/-! ### Reset and layout -/

theorem test_reset_memory_wf : Memory.wf bls32 State.reset.mem = true := by decide
/-- R31, R32: where the tables lie and some of their entries. -/
theorem test_reset_tables :
    bls32.tableStart .S = 528 ∧ bls32.tableEnd = 880 ∧ t13.tableEnd = 176 ∧
    (List.range 11).map (t13.tableEntry .F) = [0, 1, 13, 9, 3, 3, 5, 10, 7, 7, 3] ∧
    (List.range 11).map (t13.tableEntry .S) = [0, 1, 19, 9, 5, 6, 18, 17, 15, 10, 7] := by
  decide +kernel
/-- R66: the integer 18 is stored as `02 00 00 00 01 00 00 00`. -/
theorem test_layout_18 : ((st .F [18]).mem.map fun cell => (cell.1, cell.2.toNat)) =
    [(176, 2), (177, 0), (178, 0), (179, 0), (180, 1), (181, 0), (182, 0), (183, 0)] := by
  decide +kernel
/-- R312: reset forgets what was written, and clears a fault. -/
theorem test_host_reset : ((st .F [18]).raise .arenaFull 3).hostReset.byteAt 176 = none ∧
    ((st .F [18]).raise .arenaFull 3).hostReset.faulted = false := by decide +kernel

/-! ### FieldEngine (R134, V1 to V7) -/

theorem test_iszero : flagsAfter (exec (.iszero .F 0) (st .F [])) = some (true, false, 0) ∧
    flagsAfter (exec (.iszero .F 176) (st .F [13])) = some (false, false, 0) := by decide +kernel
theorem test_isequal : flagsAfter (exec (.isequal .F 176 184) (st .F [5, 18])) =
    some (false, false, 0) ∧
    flagsAfter (exec (.isequal .F 176 176) (st .F [5])) = some (true, false, 0) := by decide +kernel
theorem test_isgreater : flagsAfter (exec (.isgreater .F 176 184) (st .F [18, 5])) =
    some (true, false, 0) ∧
    flagsAfter (exec (.isgreater .F 176 184) (st .F [5, 5])) = some (false, false, 0) := by
  decide +kernel
theorem test_add : elemAfter .F 192 (exec (.add .F 192 176 184) (st .F [200, 100])) = some 44 ∧
    flagsAfter (exec (.add .F 192 176 184) (st .F [200, 100])) = some (false, true, 0) := by
  decide +kernel
theorem test_add_in_place : elemAfter .F 176 (exec (.add .F 176 176 176) (st .F [12])) = some 24 := by
  decide +kernel
theorem test_sub : elemAfter .F 192 (exec (.sub .F 192 176 184) (st .F [5, 9])) = some 252 ∧
    flagsAfter (exec (.sub .F 192 176 184) (st .F [5, 9])) = some (false, true, 0) := by
  decide +kernel
theorem test_subpos : elemAfter .F 192 (exec (.subpos .F 192 176 184) (st .F [30, 13])) = some 17 ∧
    refusalOf (exec (.subpos .F 192 176 184) (st .F [5, 9])) = some .subposBorrows := by
  decide +kernel
theorem test_reduce : elemAfter .F 176 (exec (.reduce .F 176) (st .F [51])) = some 12 ∧
    refusalOf (exec (.reduce .F 176) (st .F [52])) = some .reduceBound := by decide +kernel
theorem test_copy : elemAfter .F 184 (exec (.copy .F 184 176) (st .F [25])) = some 25 := by
  decide +kernel

/-! ### MontgomeryMultiplier (R162, V20 to V27) -/

theorem test_mul : elemAfter .F 192 (exec (.mul .F 192 176 184) (st .F [2, 13])) = some 13 ∧
    elemAfter .F 192 (exec (.mul .F 192 176 184) (st .F [21, 25])) = some 15 := by decide +kernel
theorem test_mul_refused :
    refusalOf (exec (.mul .F 192 176 184) (st .F [248, 255])) = some .mulBound := by decide +kernel
theorem test_sqr : elemAfter .F 192 (exec (.sqr .F 192 176) (st .F [5])) = some 10 := by
  decide +kernel
theorem test_lshift : elemAfter .F 192 (exec (.lshift .F 192 176 10) (st .F [12])) = some 3 ∧
    elemAfter .F 192 (exec (.lshift .F 192 176 0) (st .F [20])) = some 7 := by decide +kernel
/-- R162: `LSHIFT out, C_F(R1), 384` gives R2, on BLS32. -/
theorem test_lshift_bls32 : elemAfter .F 880 (exec (.lshift .F 880 144 384) State.reset) =
    some (bls32.r2 .F) := by decide +kernel
/-- R162: the limb trace of `MUL x = 25, y = 25`. -/
theorem test_cios : t13.cios .F 25 25 = 3 ∧ t13.cios .F 5 7 = 1 := by decide +kernel
/-- R153 (a): T13 with `x = 248`, `y = 255`, where `y + p > R`: the top limb overflows. -/
theorem test_cios_overflow : ∃ t ∈ t13.ciosAfter .F 248 255 2, 16 ≤ t := by decide +kernel
/-- R213: the bases of T13 and BLS32. -/
theorem test_basis : t13.glvBasis = ⟨2, -3, 5, 2⟩ ∧
    bls32.glvBasis = ⟨bls32.lambda, -1, 1, bls32.lambda + 1⟩ := by decide +kernel
/-- R70: bytes that become unspecified get a new free value; their neighbours and a host read do
not change one. -/
theorem test_renewals :
    let s := (st .F [5, 5]).forget 184 8
    Renewals.count 183 s.free.renewals = 0 ∧ Renewals.count 184 s.free.renewals = 1 ∧
    Renewals.count 191 (s.forget 191 1).free.renewals = 2 ∧
    Renewals.count 192 s.free.renewals = 0 ∧ (s.hostReadMem 184 8).free = s.free ∧
    s.hostReset.free = ⟨1, [], 0⟩ := by decide +kernel

/-! ### Inverter (R175, R176, R182) -/

theorem test_inv : elemAfter .F 192 (exec (.inv .F 192 176) (st .F [18])) = some 11 ∧
    refusalOf (exec (.inv .F 192 176) (st .F [13])) = some .invOperand := by decide +kernel
theorem test_inv_scalar : elemAfter .S 192 (exec (.inv .S 192 176) (st .S [10])) = some 10 := by
  decide +kernel
theorem test_makeodd : elemAfter .F 176 (exec (.makeodd .F 176) (st .F [160])) = some 5 ∧
    flagsAfter (exec (.makeodd .F 176) (st .F [160])) = some (false, false, 5) := by decide +kernel
theorem test_batchinv :
    elemAfter .F 256 (exec (.batchinv .F 256 176 3) (st .F [5, 12, 1])) = some 11 ∧
    elemAfter .F 264 (exec (.batchinv .F 256 176 3) (st .F [5, 12, 1])) = some 10 ∧
    elemAfter .F 272 (exec (.batchinv .F 256 176 3) (st .F [5, 12, 1])) = some 3 := by decide +kernel
theorem test_batchinv_refused :
    refusalOf (exec (.batchinv .F 184 176 2) (st .F [5, 12])) = some .batchinvOverlap := by
  decide +kernel

/-! ### SquareRootSolver (R196) -/

theorem test_sqrt : elemAfter .F 192 (exec (.sqrt .F 512 192 176) (st .F [10])) = some 8 ∧
    flagsAfter (exec (.sqrt .F 512 192 176) (st .F [10])) = some (true, false, 0) := by
  decide +kernel
theorem test_sqrt_non_residue :
    flagsAfter (exec (.sqrt .F 512 192 176) (st .F [5, 5, 5])) = some (false, false, 0) ∧
    elemAfter .F 192 (exec (.sqrt .F 512 192 176) (st .F [5, 5, 5])) = none := by decide +kernel

/-! ### ScalarDecomposer (R236, R232) -/

theorem test_decompose :
    elemAfter .S 256 (exec (.decompose 256 264 176) (st .S [4])) = some 255 ∧
    elemAfter .S 264 (exec (.decompose 256 264 176) (st .S [4])) = some 254 := by decide +kernel
/-- R71: the overlap of the two outputs is unspecified, the rest is written. -/
theorem test_decompose_overlap : byteAfter 256 (exec (.decompose 256 260 176) (st .S [4])) = some 15 ∧
    byteAfter 260 (exec (.decompose 256 260 176) (st .S [4])) = none ∧
    byteAfter 264 (exec (.decompose 256 260 176) (st .S [4])) = some 15 := by decide +kernel
theorem test_decompose_nomsb :
    elemAfter .S 256 (exec (.decomposeNomsb 256 264 176) (st .S [7])) = some 2 ∧
    elemAfter .S 264 (exec (.decomposeNomsb 256 264 176) (st .S [7])) = some 254 := by decide +kernel
theorem test_decompose_gen :
    elemAfter .S 256 (exec (.decomposeGen 256 264 176 184) (st .S [5, 11])) = some 0 ∧
    elemAfter .S 264 (exec (.decomposeGen 256 264 176 184) (st .S [5, 11])) = some 253 := by
  decide +kernel
/-- R232: T13 with `GLV_EPS = 0`, `lam' = 1`, `s = 10`: `s0 = -9`, `OK = 0`. -/
theorem test_decompose_gen_slack :
    elemAfter .S 256 (exec (.decomposeGen 256 264 176 184)
      { st .S [10, 1] with cfg := { t13 with glvEps := 0 } }) = some 247 ∧
    flagsAfter (exec (.decomposeGen 256 264 176 184)
      { st .S [10, 1] with cfg := { t13 with glvEps := 0 } }) = some (false, false, 0) := by
  decide +kernel

/-! ### CurveOps (R244 (a), R247) -/

theorem test_addaffine :
    elemAfter .F 256 (exec (.addaffine 512 256 176 192 208) (st .F [9, 10, 5, 11, 9])) = some 2 ∧
    elemAfter .F 264 (exec (.addaffine 512 256 176 192 208) (st .F [9, 10, 5, 11, 9])) = some 11 := by
  decide +kernel
theorem test_addaffine_overlap :
    elemAfter .F 176 (exec (.addaffine 512 176 176 192 208) (st .F [9, 10, 5, 11, 9])) = some 2 ∧
    refusalOf (exec (.addaffine 512 200 176 192 208) (st .F [9, 10, 5, 11, 9])) =
      some .addaffineOverlap := by decide +kernel
theorem test_endo : elemAfter .F 256 (exec (.endo 256 176) (st .F [12, 200])) = some 4 ∧
    elemAfter .F 264 (exec (.endo 256 176) (st .F [12, 200])) = some 200 := by decide +kernel

/-! ### MemoryArena and LimbLayout (R261, R262) -/

theorem test_alloc_stable :
    allocAfter (exec (.allocStable .F 3) (st .F [])) = some (176, 200, 200) ∧
    faultAfter (exec (.allocStable .F 1) { st .F [] with base := 200, offset := 240 }) =
      some (0x604, 240) := by decide +kernel
theorem test_alloc_scratch :
    allocAfter (exec (.allocScratch .F 102) { st .F [] with base := 208, offset := 208 }) =
      some (208, 208, 1024) ∧
    faultAfter (exec (.allocScratch .F 1) { st .F [] with base := 208, offset := 1024 }) =
      some (0x704, 1) := by decide +kernel
theorem test_reset_scratch :
    allocAfter (exec .resetScratch { st .F [] with base := 200, offset := 240, res := 232 }) =
      some (232, 200, 200) := by decide +kernel
theorem test_from_packed :
    elemAfter .F 256 (exec (.fromPacked .F 256 1023 1) ((st .F []).hostWriteMem 1023 [2])) = some 5 ∧
    refusalOf (exec (.fromPacked .F 256 1023 1) ((st .F []).hostWriteMem 1023 [13])) =
      some .packedBound := by decide +kernel
theorem test_to_packed : byteAfter 1023 (exec (.toPacked .F 1023 176 1) (st .F [18])) = some 2 ∧
    faultAfter (exec (.toPacked .F 1023 176 2) (st .F [18])) = some (0x204, 2) := by decide +kernel

/-! ### Faults (R290) and the precondition on reads (U9, U10) -/

theorem test_fault_illegal :
    faultAfter (issue ⟨0, 0, 0, 0, 0, 0⟩ (st .F [])) = some (0x104, 0) ∧
    faultAfter (issue ⟨0x210, 0xB8, 0xB0, 0x20, 0, 0⟩ (st .F [])) = some (0x104, 0x210) := by
  decide +kernel
theorem test_fault_order :
    faultAfter (issue ⟨0x63, 2, 0x3FD, 2, 0, 0⟩ (st .F [])) = some (0x204, 2) ∧
    faultAfter (issue ⟨4, 0xB2, 0xB0, 0x7D0, 0, 0⟩ (st .F [])) = some (0x304, 178) ∧
    faultAfter (issue ⟨4, 0x7D0, 0xB1, 0xB3, 0, 0⟩ (st .F [])) = some (0x304, 177) ∧
    faultAfter (issue ⟨4, 8, 0x3FC, 0xB8, 0, 0⟩ (st .F [])) = some (0x404, 1020) ∧
    faultAfter (issue ⟨0x108, 0xAC, 0, 0, 0, 0⟩ (st .F [])) = some (0x504, 172) := by
  decide +kernel
theorem test_fault_size_zero :
    faultAfter (issue ⟨0x22, 0, 0, 0, 0, 0⟩ (st .F [])) = some (0, 0) ∧
    faultAfter (issue ⟨0x22, 0x404, 0x400, 0, 0, 0⟩ (st .F [])) = some (0x404, 1028) := by
  decide +kernel
theorem test_faulted_ignores :
    nextOf (exec (.iszero .F 0) ((st .F []).raise .writeProtect 8)) =
      some ((st .F []).raise .writeProtect 8) := by decide +kernel
theorem test_refused_reads :
    refusalOf (exec (.copy .F 256 176) (st .F [])) = some .unwrittenByte ∧
    refusalOf (exec (.copy .F 256 176) ((st .F [0]).hostWriteMem 180 [0x10])) =
      some .malformedSlot := by decide +kernel

/-! ### Witnesses of the obligations' hypotheses -/

/-- The moduli of T13 are prime. -/
theorem t13_prime : t13.PrimeModuli :=
  ⟨show Nat.Prime 13 by norm_num, show Nat.Prime 19 by norm_num⟩

theorem witness_IllegalDescriptorsFault :
    (st .F []).faulted = false ∧ (⟨0x162, 0, 0, 0, 0, 0⟩ : Descriptor).legal = false ∧
    (⟨0x62, 0, 0, 0, 0, 0⟩ : Descriptor).legal = true := by decide +kernel

theorem witness_StepRunsTheDecodedCommand :
    ({ st .F [] with pending := [.issue ⟨1, 0, 0, 0, 0, 0⟩] } : State).cfg.wf = true ∧
    ({ st .F [] with pending := [.issue ⟨1, 0, 0, 0, 0, 0⟩] } : State).pending =
      .issue ⟨1, 0, 0, 0, 0, 0⟩ :: [] ∧
    decode ⟨1, 0, 0, 0, 0, 0⟩ = .ok (.iszero .F 0) ∧
    decodeTableWord 32 0x101 = some (.iszero .S 0) := by decide +kernel

theorem witness_IdleHoldsState :
    (st .F []).cfg.wf = true ∧ (st .F []).pending = [] ∧
    ({ st .F [] with cfg := { t13 with p := 14 } } : State).cfg.wf = false := by decide +kernel

theorem witness_FaultEntryAndStickiness :
    (st .F []).faulted = false ∧
    faultOf (st .F []) (.add .F 178 176 2000) = some (.misaligned, 178) ∧
    ((st .F []).raise .misaligned 178).faulted = true ∧ HostAction.readReg 0 ≠ .reset ∧
    nextOf (perform (.readReg 0) ((st .F []).raise .misaligned 178)) =
      some (((st .F []).raise .misaligned 178).hostReadReg 0) ∧
    nextOf (perform .reset ((st .F []).raise .misaligned 178)) =
      some ((st .F []).raise .misaligned 178).hostReset := by decide +kernel

/-- Each clause of `ChecksInOrder` on a descriptor of R290, with the split of its operand list. -/
theorem witness_ChecksInOrder :
    (st .F []).faulted = false ∧ (⟨0, 0, 0, 0, 0, 0⟩ : Descriptor).legal = false ∧
    (decode ⟨0x63, 2, 0x3FD, 2, 0, 0⟩ = .ok (.fromPacked .F 2 0x3FD 2) ∧
      (2 : Word).toNat ≠ (st .F []).cfg.packedBytes .F) ∧
    (decode ⟨4, 0x7D0, 0xB1, 0xB3, 0, 0⟩ = .ok (.add .F 2000 177 179) ∧
      operandsOf (st .F []).cfg (.add .F 2000 177 179) =
        [⟨2000, 8, true, true⟩] ++ ⟨177, 8, true, false⟩ :: [⟨179, 8, true, false⟩] ∧
      2000 % 4 = 0 ∧ 177 % 4 ≠ 0) ∧
    (decode ⟨4, 0xB0, 0x3FC, 0x7D0, 0, 0⟩ = .ok (.add .F 176 1020 2000) ∧
      operandsOf (st .F []).cfg (.add .F 176 1020 2000) =
        [⟨176, 8, true, true⟩] ++ ⟨1020, 8, true, false⟩ :: [⟨2000, 8, true, false⟩] ∧
      (∀ x ∈ operandsOf (st .F []).cfg (.add .F 176 1020 2000), x.aligned = true → x.ptr % 4 = 0) ∧
      176 + 8 ≤ (st .F []).cfg.arenaBytes ∧ (st .F []).cfg.arenaBytes < 1020 + 8) ∧
    (decode ⟨0x30, 0xB0, 0xAC, 0, 0, 0⟩ = .ok (.sqrt .F 176 172 0) ∧
      operandsOf (st .F []).cfg (.sqrt .F 176 172 0) =
        [⟨176, 32, true, true⟩] ++ ⟨172, 8, true, true⟩ :: [⟨0, 8, true, false⟩] ∧
      (∀ x ∈ operandsOf (st .F []).cfg (.sqrt .F 176 172 0), x.aligned = true → x.ptr % 4 = 0) ∧
      (∀ x ∈ operandsOf (st .F []).cfg (.sqrt .F 176 172 0),
        x.ptr + x.size ≤ (st .F []).cfg.arenaBytes) ∧
      (st .F []).cfg.tableEnd ≤ 176 ∧ 172 < (st .F []).cfg.tableEnd) ∧
    (decode ⟨0x60, 107, 0, 0, 0, 0⟩ = .ok (.allocStable .F 107) ∧
      (st .F []).offset = (st .F []).base ∧
      (st .F []).cfg.arenaBytes < (st .F []).base + 107 * (st .F []).cfg.elemBytes .F) ∧
    ({ st .F [] with offset := 180 } : State).offset ≠ ({ st .F [] with offset := 180 } : State).base ∧
    (decode ⟨0x61, 107, 0, 0, 0, 0⟩ = .ok (.allocScratch .F 107) ∧
      (st .F []).cfg.arenaBytes < (st .F []).offset + 107 * (st .F []).cfg.elemBytes .F) := by
  decide +kernel

theorem witness_FaultsIgnoreTheArena :
    (st .F []).faulted = false ∧
    nextOf (exec (.add .F 178 176 2000) (st .F [])) = some ((st .F []).raise .misaligned 178) ∧
    ((st .F []).raise .misaligned 178).faulted = true := by decide +kernel

theorem witness_ResetState :
    ({ (st .F [5]).raise .misaligned 178 with pending := [.reset] } : State).cfg.wf = true ∧
    ({ (st .F [5]).raise .misaligned 178 with pending := [.reset] } : State).pending =
      .reset :: [] := by decide +kernel

theorem witness_ConstantTableEntries : (st .F [5]).Inv := by decide +kernel

/-- A step from a state of the invariant, and an offset at the end of the tables. -/
theorem witness_StepKeepsInvariant :
    ({ st .F [5] with pending := [.issue ⟨8, 0xB8, 0xB0, 0, 0, 0⟩] } : State).Inv ∧
    nextOf (step { st .F [5] with pending := [.issue ⟨8, 0xB8, 0xB0, 0, 0, 0⟩] }) =
      some (st .F [5, 5]) ∧
    175 < ({ st .F [5] with pending := [.issue ⟨8, 0xB8, 0xB0, 0, 0, 0⟩] } : State).cfg.tableEnd := by
  decide +kernel

theorem witness_RegistersHaveOwners :
    nextOf (exec (.copy .F 184 176) (st .F [5])) = some (st .F [5, 5]) ∧
    (∀ o ∈ operandsOf (st .F [5]).cfg (.copy .F 184 176), o.written = true →
      ¬(o.ptr ≤ 183 ∧ 183 < o.ptr + o.size)) ∧
    (∀ o ∈ operandsOf (st .F [5]).cfg (.copy .F 184 176), o.written = true →
      ¬(o.ptr ≤ 192 ∧ 192 < o.ptr + o.size)) ∧
    (st .F [5, 5]).faulted = false ∧ writesOk (.copy .F 184 176) = false ∧
    writesOk (.iszero .F 0) = true ∧ writesCb (.add .F 0 0 0) = true ∧
    writesRes (.makeodd .F 0) = true ∧ writesOffset .resetScratch = true ∧
    writesBase (.allocStable .F 0) = true := by decide +kernel

/-- A completed and a refused command for `ResultsIgnoreTheFlags`. -/
theorem witness_ResultsIgnoreTheFlags :
    nextOf (exec (.copy .F 184 176) (st .F [5])) = some (st .F [5, 5]) ∧
    refusalOf (exec (.copy .F 184 176) (st .F [])) = some .unwrittenByte := by decide +kernel

/-- The last byte of an array of two elements is unspecified. -/
theorem witness_UnspecifiedInputsRefused :
    ((st .F [5, 5]).forget 191 1).Ready ∧
    faultOf ((st .F [5, 5]).forget 191 1) (.batchinv .F 256 176 2) = none ∧
    (⟨176, 16, true, false⟩ : Operand) ∈
      inputsOf ((st .F [5, 5]).forget 191 1).cfg (.batchinv .F 256 176 2) ∧
    15 < 16 ∧ ((st .F [5, 5]).forget 191 1).byteAt (176 + 15) = none := by decide +kernel

theorem witness_MalformedSlotsRefused :
    ((st .F [5]).hostWriteMem 180 [0x10]).Ready ∧
    faultOf ((st .F [5]).hostWriteMem 180 [0x10]) (.reduce .F 176) = none ∧
    (⟨176, 8, true, true⟩ : Operand) ∈
      inputsOf ((st .F [5]).hostWriteMem 180 [0x10]).cfg (.reduce .F 176) ∧
    4 * 1 + 4 ≤ 8 ∧ ((st .F [5]).hostWriteMem 180 [0x10]).HoldsBytes (176 + 4 * 1) 4 0x10 ∧
    2 ^ ((st .F [5]).hostWriteMem 180 [0x10]).cfg.limbBits (ctxOf (.reduce .F 176)) ≤ 0x10 := by
  decide +kernel

/-- Two inputs and an output of T13: the hypotheses of the statements about two-operand commands,
with the greatest stored number among the inputs. -/
abbrev TwoInputs (X : Ctx) (vx vy : Nat) : Prop :=
  (st X [vx, vy]).Ready ∧ (st X [vx, vy]).cfg.Writable 192 ((st X [vx, vy]).cfg.elemBytes X) ∧
  (st X [vx, vy]).cfg.Readable 176 ((st X [vx, vy]).cfg.elemBytes X) ∧
  (st X [vx, vy]).cfg.Readable 184 ((st X [vx, vy]).cfg.elemBytes X) ∧
  (st X [vx, vy]).HoldsElem X 176 vx ∧ (st X [vx, vy]).HoldsElem X 184 vy

theorem witness_CompareResults : TwoInputs .F 255 0 ∧ TwoInputs .S 5 5 :=
  ⟨by decide +kernel, by decide +kernel⟩
theorem witness_AddResult : TwoInputs .F 255 1 ∧ TwoInputs .S 0 0 :=
  ⟨by decide +kernel, by decide +kernel⟩
theorem witness_SubResult : TwoInputs .F 0 255 ∧ TwoInputs .S 7 7 :=
  ⟨by decide +kernel, by decide +kernel⟩
theorem witness_SubposResult : (TwoInputs .F 7 7 ∧ 7 ≤ 7) ∧ (TwoInputs .F 6 7 ∧ 6 < 7) :=
  ⟨⟨by decide +kernel, le_rfl⟩, by decide +kernel, by norm_num⟩

/-- An in-place operand: the hypotheses of the statements about REDUCE and MAKEODD. -/
abbrev InPlace (v : Nat) : Prop :=
  (st .F [v]).Ready ∧ (st .F [v]).cfg.Writable 176 ((st .F [v]).cfg.elemBytes .F) ∧
  (st .F [v]).HoldsElem .F 176 v

/-- REDUCE at `4p - 1` and `4p`. -/
theorem witness_ReduceResult : (InPlace 51 ∧ 51 < 4 * t13.modulus .F) ∧
    (InPlace 52 ∧ 4 * t13.modulus .F ≤ 52) := ⟨by decide +kernel, by decide +kernel⟩
/-- MAKEODD at 1, the greatest stored number and 0. -/
theorem witness_MakeoddResult : (InPlace 1 ∧ 1 ≠ 0) ∧ (InPlace 255 ∧ 255 ≠ 0) ∧ InPlace 0 :=
  ⟨by decide +kernel, by decide +kernel, by decide +kernel⟩

/-- One input and an output: the hypotheses of the statements about one-operand commands. -/
abbrev OneInput (X : Ctx) (v : Nat) : Prop :=
  (st X [v]).Ready ∧ (st X [v]).cfg.Writable 1016 ((st X [v]).cfg.elemBytes X) ∧
  (st X [v]).cfg.Readable 176 ((st X [v]).cfg.elemBytes X) ∧ (st X [v]).HoldsElem X 176 v

theorem witness_CopyResult : OneInput .F 255 := by decide +kernel

/-- MUL at the last factor its bound admits (`y + p = R`), and one above it. -/
theorem witness_MulResult :
    (TwoInputs .F 13 243 ∧ 243 + t13.modulus .F ≤ t13.radix .F ∧
      13 * 243 < t13.modulus .F * t13.radix .F) ∧
    (TwoInputs .F 1 244 ∧ t13.radix .F < 244 + t13.modulus .F) :=
  ⟨⟨by decide +kernel, by decide +kernel⟩, by decide +kernel, by decide +kernel⟩

theorem witness_SqrIsMulBySelf :
    (OneInput .F 57 ∧ 57 + t13.modulus .F ≤ t13.radix .F ∧
      57 * 57 < t13.modulus .F * t13.radix .F) ∧
    (OneInput .F 58 ∧ t13.modulus .F * t13.radix .F ≤ 58 * 58) :=
  ⟨⟨by decide +kernel, by decide +kernel⟩, by decide +kernel, by decide +kernel⟩

theorem witness_LshiftResult : (OneInput .F 25 ∧ 25 < 2 * t13.modulus .F) ∧
    (OneInput .F 26 ∧ 2 * t13.modulus .F ≤ 26) :=
  ⟨⟨by decide +kernel, by decide +kernel⟩, by decide +kernel, by decide +kernel⟩

theorem witness_InvResult : (st .F [25]).cfg.PrimeModuli ∧
    (OneInput .F 25 ∧ 25 < 2 * t13.modulus .F ∧ 25 % t13.modulus .F ≠ 0) ∧
    (OneInput .F 26 ∧ 2 * t13.modulus .F ≤ 26) ∧ (OneInput .F 13 ∧ 13 % t13.modulus .F = 0) :=
  ⟨t13_prime, ⟨by decide +kernel, by decide +kernel⟩, ⟨by decide +kernel, by decide +kernel⟩, by decide +kernel, by decide +kernel⟩

/-- The hypotheses of the statement about BATCHINV. -/
abbrev BatchInput (out : Nat) (vs : List Nat) : Prop :=
  (st .F vs).Ready ∧ (st .F vs).cfg.Readable out (vs.length * (st .F vs).cfg.elemBytes .F) ∧
  (0 < vs.length → (st .F vs).cfg.tableEnd ≤ out) ∧
  (st .F vs).cfg.Readable 176 (vs.length * (st .F vs).cfg.elemBytes .F) ∧
  (st .F vs).HoldsArray .F 176 vs

/-- BATCHINV with no element at the end of the arena, with two elements and its arrays apart by
nothing, overlapping by one slot, and with an element that is zero modulo `p`. -/
theorem witness_BatchinvResult :
    (st .F [5, 25]).cfg.PrimeModuli ∧
    (BatchInput 1024 [] ∧ (0 : Word).toNat = ([] : List Nat).length) ∧
    (BatchInput 192 [5, 25] ∧ (2 : Word).toNat = [5, 25].length ∧
      Apart 192 (2 * t13.elemBytes .F) 176 (2 * t13.elemBytes .F) ∧
      ∀ v ∈ [5, 25], v < 2 * t13.modulus .F ∧ v % t13.modulus .F ≠ 0) ∧
    (BatchInput 188 [5, 25] ∧ ¬Apart 188 (2 * t13.elemBytes .F) 176 (2 * t13.elemBytes .F)) ∧
    (BatchInput 192 [5, 13] ∧ ∃ v ∈ [5, 13], 2 * t13.modulus .F ≤ v ∨ v % t13.modulus .F = 0) :=
  ⟨t13_prime, by decide +kernel, by decide +kernel, by decide +kernel, by decide +kernel⟩

/-- SQRT of a square, of a non-residue, and at `2p`. -/
theorem witness_SqrtResult :
    (st .F [25]).cfg.PrimeModuli ∧
    (st .F [25]).cfg.Writable 992 (4 * (st .F [25]).cfg.elemBytes .F) ∧
    (OneInput .F 25 ∧ 25 < 2 * t13.modulus .F ∧
      ∃ r < t13.modulus .F, t13.fmul .F r r = t13.canon .F 25) ∧
    (OneInput .F 24 ∧ 24 < 2 * t13.modulus .F ∧
      ¬∃ r < t13.modulus .F, t13.fmul .F r r = t13.canon .F 24) ∧
    (OneInput .F 26 ∧ 2 * t13.modulus .F ≤ 26) :=
  ⟨t13_prime, by decide +kernel, ⟨by decide +kernel, by decide +kernel⟩, ⟨by decide +kernel, by decide +kernel⟩, by decide +kernel,
    by decide +kernel⟩

/-- A scalar, an eigenvalue and two outputs: the hypotheses of the statements about the
decomposer. -/
abbrev SplitInput (out1 v l : Nat) : Prop :=
  (st .S [v, l]).Ready ∧ (st .S [v, l]).cfg.Writable 256 ((st .S [v, l]).cfg.elemBytes .S) ∧
  (st .S [v, l]).cfg.Writable out1 ((st .S [v, l]).cfg.elemBytes .S) ∧
  (st .S [v, l]).cfg.Readable 176 ((st .S [v, l]).cfg.elemBytes .S) ∧
  (st .S [v, l]).HoldsElem .S 176 v ∧
  (st .S [v, l]).cfg.Readable 184 ((st .S [v, l]).cfg.elemBytes .S) ∧
  (st .S [v, l]).HoldsElem .S 184 l

/-- DECOMPOSE at `q - 1` with outputs that overlap, and at `q`. -/
theorem witness_DecomposeResult : (SplitInput 260 18 7 ∧ 18 < t13.q) ∧
    (SplitInput 264 19 7 ∧ t13.q ≤ 19) := ⟨by decide +kernel, by decide +kernel⟩
/-- The same states serve DECOMPOSE_NOMSB. -/
theorem witness_DecomposeNomsbResult : (SplitInput 260 18 7 ∧ 18 < t13.q) ∧
    (SplitInput 264 19 7 ∧ t13.q ≤ 19) := witness_DecomposeResult
/-- DECOMPOSE_GEN at the ends of both ranges. -/
theorem witness_DecomposeGenResult :
    (SplitInput 264 18 18 ∧ 18 < t13.q) ∧ (SplitInput 264 0 1 ∧ 0 < 1) ∧
    (SplitInput 264 19 1 ∧ t13.q ≤ 19) ∧ SplitInput 264 18 0 ∧ (SplitInput 264 18 19 ∧ t13.q ≤ 19) :=
  ⟨by decide +kernel, by decide +kernel, by decide +kernel, by decide +kernel, by decide +kernel⟩

/-- Two points and `d`: the hypotheses of the statement about ADDAFFINE. -/
abbrev PointInput (out dv : Nat) : Prop :=
  (st .F [9, 10, 5, 11, dv]).Ready ∧ t13.Writable 1008 (2 * t13.elemBytes .F) ∧
  t13.Writable out (2 * t13.elemBytes .F) ∧ t13.Readable 176 (2 * t13.elemBytes .F) ∧
  t13.Readable 192 (2 * t13.elemBytes .F) ∧ t13.Readable 208 (t13.elemBytes .F) ∧
  (st .F [9, 10, 5, 11, dv]).HoldsElem .F 176 9 ∧ (st .F [9, 10, 5, 11, dv]).HoldsElem .F 184 10 ∧
  (st .F [9, 10, 5, 11, dv]).HoldsElem .F 192 5 ∧ (st .F [9, 10, 5, 11, dv]).HoldsElem .F 200 11 ∧
  (st .F [9, 10, 5, 11, dv]).HoldsElem .F 208 dv

/-- ADDAFFINE with `out` over `P1` and `d` at `2p - 1`, with `out` over the last slot of `P2`, and
with `d` at `2p`. -/
theorem witness_AddaffineResult :
    (PointInput 176 25 ∧ Apart 176 (2 * t13.elemBytes .F) 192 (2 * t13.elemBytes .F) ∧
      ∀ v ∈ [9, 10, 5, 11, 25], v < 2 * t13.p) ∧
    (PointInput 204 25 ∧ ¬Apart 204 (2 * t13.elemBytes .F) 192 (2 * t13.elemBytes .F)) ∧
    (PointInput 176 26 ∧ ∃ v ∈ [9, 10, 5, 11, 26], 2 * t13.p ≤ v) := ⟨by decide +kernel, by decide +kernel, by decide +kernel⟩

/-- A point: the hypotheses of the statements about ENDO. -/
abbrev EndoInput (x y : Nat) : Prop :=
  (st .F [x, y]).Ready ∧ (st .F [x, y]).cfg.Writable 184 (2 * (st .F [x, y]).cfg.elemBytes .F) ∧
  (st .F [x, y]).cfg.Readable 176 (2 * (st .F [x, y]).cfg.elemBytes .F) ∧
  (st .F [x, y]).HoldsElem .F 176 x ∧
  (st .F [x, y]).HoldsElem .F (176 + (st .F [x, y]).cfg.elemBytes .F) y

/-- ENDO with `out` over half of `P`, at `2p - 1` and at `2p`; the first state serves
`EndoThriceIsIdentity` too. -/
theorem witness_EndoResult : (EndoInput 25 255 ∧ 25 < 2 * t13.p) ∧
    (EndoInput 26 0 ∧ 2 * t13.p ≤ 26) := ⟨by decide +kernel, by decide +kernel⟩
theorem witness_EndoThriceIsIdentity : EndoInput 25 255 ∧ 25 < 2 * t13.p := witness_EndoResult.1

/-- The allocator at the last element of the arena and one past it, and with live scratch. -/
theorem witness_AllocStableResult :
    ((st .F []).Ready ∧ (st .F []).offset = (st .F []).base ∧
      (st .F []).base + (106 : Word).toNat * (st .F []).cfg.elemBytes .F ≤
        (st .F []).cfg.arenaBytes ∧
      (st .F []).cfg.arenaBytes <
        (st .F []).base + (107 : Word).toNat * (st .F []).cfg.elemBytes .F) ∧
    (({ st .F [] with offset := 180 } : State).Ready ∧
      ({ st .F [] with offset := 180 } : State).offset ≠
        ({ st .F [] with offset := 180 } : State).base) := by decide +kernel
theorem witness_AllocScratchResult :
    (st .F []).Ready ∧
    (st .F []).offset + (106 : Word).toNat * (st .F []).cfg.elemBytes .F ≤
      (st .F []).cfg.arenaBytes ∧
    (st .F []).cfg.arenaBytes <
      (st .F []).offset + (107 : Word).toNat * (st .F []).cfg.elemBytes .F := by decide +kernel
theorem witness_ResetScratchResult : ({ st .F [] with offset := 180 } : State).Ready := by
  decide +kernel

/-- A packed value in the arena's last byte: the hypotheses of the statement about FROM_PACKED. -/
abbrev PackedInput (v : Nat) (b : Byte) : Prop :=
  ((st .F []).hostWriteMem 1023 [b]).Ready ∧ t13.Writable 176 (t13.elemBytes .F) ∧
  (1 : Word).toNat = t13.packedBytes .F ∧ 1023 + t13.packedBytes .F ≤ t13.arenaBytes ∧
  ((st .F []).hostWriteMem 1023 [b]).HoldsBytes 1023 (t13.packedBytes .F) v

/-- FROM_PACKED with a wrong length, of `p - 1` and of `p`. -/
theorem witness_FromPackedResult :
    ((st .F []).Ready ∧ (2 : Word).toNat ≠ (st .F []).cfg.packedBytes .F) ∧
    (PackedInput 12 12 ∧ 12 < t13.modulus .F) ∧ (PackedInput 13 13 ∧ t13.modulus .F ≤ 13) :=
  ⟨by decide +kernel, by decide +kernel, by decide +kernel⟩

/-- An element and the arena's last byte: the hypotheses of the statement about TO_PACKED. -/
abbrev UnpackInput (v : Nat) : Prop :=
  (st .F [v]).Ready ∧ (1 : Word).toNat = (st .F [v]).cfg.packedBytes .F ∧
  (st .F [v]).cfg.Readable 176 ((st .F [v]).cfg.elemBytes .F) ∧ (st .F [v]).cfg.tableEnd ≤ 1023 ∧
  1023 + (st .F [v]).cfg.packedBytes .F ≤ (st .F [v]).cfg.arenaBytes ∧
  (st .F [v]).HoldsElem .F 176 v

/-- TO_PACKED with a wrong length, of `4p - 1` and of `4p`. -/
theorem witness_ToPackedResult :
    (2 : Word).toNat ≠ (st .F [51]).cfg.packedBytes .F ∧
    (UnpackInput 51 ∧ 51 < 4 * t13.modulus .F) ∧ (UnpackInput 52 ∧ 4 * t13.modulus .F ≤ 52) :=
  ⟨by decide +kernel, by decide +kernel, by decide +kernel⟩

/-- Host writes at both ends of the writable arena, one below it and one past it. -/
theorem witness_HostWriteStoresOrIsDropped :
    ({ st .F [] with pending := [.writeMem 176 [1, 2]] } : State).cfg.wf = true ∧
    ({ st .F [] with pending := [.writeMem 176 [1, 2]] } : State).pending =
      .writeMem 176 [1, 2] :: [] ∧
    (st .F []).cfg.tableEnd ≤ 176 ∧ 1022 + [1, 2].length ≤ (st .F []).cfg.arenaBytes ∧
    175 < (st .F []).cfg.tableEnd ∧ (st .F []).cfg.arenaBytes < 1023 + [1, 2].length := by
  decide +kernel
theorem witness_HostRegisterRead :
    ({ st .F [] with pending := [.readReg 5] } : State).cfg.wf = true ∧
    ({ st .F [] with pending := [.readReg 5] } : State).pending = .readReg 5 :: [] := by
  decide +kernel
theorem witness_HostArenaRead :
    ({ st .F [5] with pending := [.readMem 176 8] } : State).cfg.wf = true ∧
    ({ st .F [5] with pending := [.readMem 176 8] } : State).pending = .readMem 176 8 :: [] ∧
    176 + 8 ≤ (st .F [5]).cfg.arenaBytes ∧ (st .F [5]).byteAt (176 + 0) = some 5 := by
  decide +kernel
/-- Two reads of the arena's last, unspecified bytes, and one that leaves the arena by a byte. -/
theorem witness_HostArenaRead_ends :
    (({ st .F [] with pending := [.readMem 1016 8, .readMem 1016 8] } : State).pending =
      .readMem 1016 8 :: .readMem 1016 8 :: [] ∧ 1016 + 8 ≤ (st .F []).cfg.arenaBytes) ∧
    (({ st .F [] with pending := [.readMem 1017 8] } : State).cfg.wf = true ∧
      ({ st .F [] with pending := [.readMem 1017 8] } : State).pending = .readMem 1017 8 :: [] ∧
      (st .F []).cfg.arenaBytes < 1017 + 8) := by
  decide +kernel

/-- The statements about the internal units: T13 is well formed, with prime moduli, and the factors
at the border of R153 (a). -/
theorem witness_LimbAlgorithmIsMul : t13.wf = true ∧ 255 < t13.radix .F ∧
    243 + t13.modulus .F ≤ t13.radix .F := by decide +kernel
theorem witness_BatchIsElementwise : t13.wf = true ∧ t13.PrimeModuli ∧
    ∀ x ∈ [1, 12], 0 < x ∧ x < t13.modulus .F :=
  ⟨by decide +kernel, t13_prime, by decide +kernel⟩
theorem witness_BasisSpansTheLattice : 0 < 1 ∧ 1 < 19 ∧ Nat.Coprime 19 1 ∧ Nat.Coprime 19 18 := by
  decide
theorem witness_BarrettStepsAreExact : t13.wf = true ∧ t13.PrimeModuli ∧ 18 < t13.q ∧
    t13.glvBasis.b1.natAbs < t13.q ∧ t13.glvBasis.b2.natAbs < t13.q :=
  ⟨by decide +kernel, t13_prime, by decide +kernel⟩
theorem witness_DefaultInstanceSplitsShort : (t13.wf = true ∧ t13.PrimeModuli ∧ 18 < t13.q ∧
    t13.glvBasis.b1.natAbs < t13.q ∧ t13.glvBasis.b2.natAbs < t13.q) ∧ bls32.q - 1 < bls32.q :=
  ⟨witness_BarrettStepsAreExact, by decide +kernel⟩
theorem witness_AddaffineAddsPoints : t13.wf = true ∧
    (t13.p : Int) ∣ (1 : Nat) * (((2 : Nat) : Int) - (1 : Nat)) - 1 ∧
    (t13.p : Int) ∣ ((4 : Nat) : Int) ^ 2 - (((1 : Nat) : Int) ^ 3 + 0 * (1 : Nat) + 2) ∧
    (t13.p : Int) ∣ ((7 : Nat) : Int) ^ 2 - (((2 : Nat) : Int) ^ 3 + 0 * (2 : Nat) + 2) := by
  decide +kernel

theorem witness_DecomposersSplitTheScalar :
    (SplitInput 264 18 7 ∧ Apart 256 (t13.elemBytes .S) 264 (t13.elemBytes .S) ∧ 18 < t13.q ∧
      0 < 7 ∧ 7 < t13.q ∧ 7 = t13.lambda) ∧ (SplitInput 264 18 18 ∧ 18 < t13.q) := ⟨by decide +kernel, by decide +kernel⟩

theorem witness_GeneralSplitOfLambda :
    (st .S [18]).Inv ∧ (st .S [18]).cfg.glvBasis.b1.natAbs < (st .S [18]).cfg.q ∧
    (st .S [18]).cfg.glvBasis.b2.natAbs < (st .S [18]).cfg.q := by decide +kernel

theorem witness_CodecsRoundTrip :
    (UnpackInput 51 ∧ t13.Writable 256 (t13.elemBytes .F) ∧ 51 < 4 * t13.modulus .F) ∧
    (UnpackInput 12 ∧ 176 + t13.packedBytes .F ≤ t13.arenaBytes ∧
      (st .F [12]).HoldsBytes 176 (t13.packedBytes .F) 12 ∧ 12 < t13.modulus .F) := ⟨by decide +kernel, by decide +kernel⟩

/-- MODADD and MODDBL just below `4p`, MODSUB with the least and the greatest second operand. -/
theorem witness_ModularAddSubDouble :
    (TwoInputs .F 25 26 ∧ 25 + 26 < t13.radix .F ∧ 25 + 26 < 4 * t13.modulus .F ∧
      2 * 25 < t13.radix .F ∧ 2 * 25 < 4 * t13.modulus .F) ∧
    (TwoInputs .F 0 13 ∧ Apart 192 (t13.elemBytes .F) 184 (t13.elemBytes .F) ∧
      0 + t13.modulus .F < t13.radix .F ∧ 13 ≤ 0 + t13.modulus .F ∧
      0 + t13.modulus .F - 13 < 4 * t13.modulus .F) :=
  ⟨⟨by decide +kernel, by decide +kernel⟩, by decide +kernel, by decide +kernel⟩

/-- TOMONT and FROMMONT of the greatest stored number, and the operands of the product. -/
theorem witness_MontgomeryProductProgram :
    OneInput .F 255 ∧ TwoInputs .F 255 254 ∧ t13.Writable 192 (t13.elemBytes .F) ∧ t13.Writable 200 (t13.elemBytes .F) ∧
    Apart 192 (t13.elemBytes .F) 200 (t13.elemBytes .F) ∧
    Apart 192 (t13.elemBytes .F) 184 (t13.elemBytes .F) :=
  ⟨by decide +kernel, by decide +kernel, by decide +kernel⟩

/-- The records and states the remaining statements speak of: T13 and BLS32 are well formed, T13 has
prime moduli, and its state after reset has the invariant. -/
theorem witness_MuIsUnique : t13.wf = true ∧ 0 < 2 ^ t13.limbBits .F := by decide +kernel
theorem witness_PowerIsExponentiation : t13.wf = true := witness_MuIsUnique.1
theorem witness_SqrtPrecomputation : t13.wf = true ∧ t13.PrimeModuli :=
  ⟨witness_MuIsUnique.1, t13_prime⟩
theorem witness_ResetHasInvariant : t13.wf = true ∧ bls32.wf = true := test_wf_instances
theorem witness_ConstantTablesNeverChange : (st .F [5]).Inv ∧ 175 < (st .F [5]).cfg.tableEnd := by
  decide +kernel

end Sys2Proof.Tests
end

section
/-! The per-limb constant `mu` of the Montgomery multiplier (00_scope.md R8,
41_montgomery_multiplier.md R150): the negated inverse of the modulus, modulo `2^w`. -/

namespace Sys2Proof

namespace Config

variable {c : Config}

theorem mu_lt (c : Config) (X : Ctx) : c.mu X < 2 ^ c.limbBits X :=
  Nat.mod_lt _ (by positivity)

/-- R150: `mu` is minus the inverse of the modulus modulo `2^w`; this is what clears the low limb
of the accumulator. -/
theorem two_pow_limbBits_dvd_modulus_mul_mu (h : c.wf = true) (X : Ctx) :
    2 ^ c.limbBits X ∣ c.modulus X * c.mu X + 1 := by
  set W := 2 ^ c.limbBits X
  set m := c.modulus X
  set inv := invPow2 m (c.limbBits X)
  have hinv : m * inv ≡ 1 [MOD W] := invPow2_spec (modulus_odd h X) _
  have hle : inv ≤ W := (invPow2_lt m _).le
  refine (Nat.modEq_zero_iff_dvd).1 ?_
  calc m * c.mu X + 1
      ≡ m * (W - inv) + m * inv [MOD W] :=
        ((Nat.mod_modEq _ _).mul_left m).add hinv.symm
    _ = m * W := by rw [← mul_add, Nat.sub_add_cancel hle]
    _ ≡ 0 [MOD W] := (Nat.modEq_zero_iff_dvd).2 (dvd_mul_left W m)

theorem two_pow_limbBits_coprime (h : c.wf = true) (X : Ctx) :
    Nat.Coprime (2 ^ c.limbBits X) (c.modulus X) :=
  (Nat.coprime_two_left.2 (Nat.odd_iff.2 (modulus_odd h X))).pow_left _

/-- R150: the modulus is odd, hence cancels modulo `2^w`, so two numbers below `2^w` that both
solve the equation of `mu` are equal. -/
theorem eq_mu_of_dvd (h : c.wf = true) {X : Ctx} {v : Nat} (hv : v < 2 ^ c.limbBits X)
    (hdvd : 2 ^ c.limbBits X ∣ c.modulus X * v + 1) : v = c.mu X := by
  have hsum : c.modulus X * v + 1 ≡ c.modulus X * c.mu X + 1 [MOD 2 ^ c.limbBits X] :=
    ((Nat.modEq_zero_iff_dvd).2 hdvd).trans
      ((Nat.modEq_zero_iff_dvd).2 (two_pow_limbBits_dvd_modulus_mul_mu h X)).symm
  have hmod : v ≡ c.mu X [MOD 2 ^ c.limbBits X] :=
    Nat.ModEq.cancel_left_of_coprime (two_pow_limbBits_coprime h X) (hsum.add_right_cancel' 1)
  exact hmod.eq_of_lt_of_lt hv (mu_lt c X)

end Config

/-- Settles O46: `mu` lies below `2^w` and solves the equation because it is the negated inverse of
the odd modulus; the modulus cancels modulo `2^w`, so no other number does. -/
theorem muIsUnique : Obligations.MuIsUnique := by
  intro c X hwf
  refine ⟨c.mu_lt X, ?_, fun v hv heq => ?_⟩
  · exact Nat.mod_eq_zero_of_dvd (Config.two_pow_limbBits_dvd_modulus_mul_mu hwf X)
  · exact Config.eq_mu_of_dvd hwf hv (Nat.dvd_of_mod_eq_zero heq)

end Sys2Proof
end

section
/-! What can happen to the arena, said once (20_memory.md R69, 10_state.md R33): bytes are written,
or become unspecified, and nothing else of the state changes. -/

namespace Sys2Proof.Machine

/-- Every offset of the interval `[a, a+k)` is in `P`. -/
def Covers (P : Nat → Prop) (a k : Nat) : Prop := ∀ x, a ≤ x → x < a + k → P x

theorem Covers.sub {P : Nat → Prop} {a k b l : Nat} (h : Covers P a k) (hl : a ≤ b)
    (hr : b + l ≤ a + k) : Covers P b l :=
  fun x h1 h2 => h x (by omega) (by omega)

/-- `t` comes from `s` by writing bytes and by making bytes unspecified, all at offsets in `P`. -/
inductive State.Edits (P : Nat → Prop) (s : State) : State → Prop
  | refl : Edits P s s
  | writeBytes {t : State} {a : Nat} {bs : List Byte} (h : Edits P s t)
      (hP : Covers P a bs.length) : Edits P s (t.writeBytes a bs)
  | forget {t : State} {a k : Nat} (h : Edits P s t) (hP : Covers P a k) : Edits P s (t.forget a k)

/-- The part of `State.Inv` about the arena: the canonical form of its bytes and of the counts
behind the free values, and written bytes only where writing is allowed (R69). -/
def State.ArenaOk (s : State) : Prop :=
  Memory.wf s.cfg s.mem = true ∧ Memory.inRange s.cfg s.mem = true ∧
    Renewals.wf s.free.renewals = true

namespace State.Edits

variable {P : Nat → Prop} {s t : State}

/-- Edits change the arena and the choice of free values only. -/
theorem frame (h : s.Edits P t) : t = { s with mem := t.mem, free := t.free } := by
  induction h with
  | refl => rfl
  | @writeBytes t a bs _ _ ih =>
    exact congrArg (fun v : State => { v with mem := (t.writeBytes a bs).mem }) ih
  | @forget t a k _ _ ih => exact congrArg (·.forget a k) ih

theorem cfg_eq (h : s.Edits P t) : t.cfg = s.cfg := by rw [h.frame]

/-- Edits where writing is allowed keep the arena's part of the invariant. -/
theorem arenaOk (h : s.Edits P t) (hP : ∀ x, P x → s.cfg.tableEnd ≤ x ∧ x < s.cfg.arenaBytes)
    (hs : s.ArenaOk) : t.ArenaOk := by
  induction h with
  | refl => exact hs
  | @writeBytes t a bs h hbs ih =>
    obtain ⟨hwf, hrange, hfree⟩ := ih
    refine ⟨Memory.wf_writeBytes a bs hwf, ?_, hfree⟩
    cases bs with
    | nil => exact hrange
    | cons b bs =>
      rw [List.length_cons] at hbs
      have hlow := hP a (hbs a le_rfl (by omega))
      have hhigh := hP (a + bs.length) (hbs _ (by omega) (by omega))
      rw [← h.cfg_eq] at hlow hhigh
      exact Memory.inRange_writeBytes (c := t.cfg) _ hlow.1 (by rw [List.length_cons]; omega) hrange
  | @forget t a k _ _ ih =>
    obtain ⟨hwf, hrange, hfree⟩ := ih
    exact ⟨Memory.wf_forget a k hwf, Memory.inRange_forget a k hrange,
      Renewals.wf_bumpRange a k hfree⟩

theorem writeLimbs {a : Nat} {xs : List Nat} (h : s.Edits P t) (hP : Covers P a (4 * xs.length)) :
    s.Edits P (t.writeLimbs a xs) :=
  h.writeBytes (by rwa [length_limbBytes])

theorem writeElem {X : Ctx} {a v : Nat} (h : s.Edits P t) (hP : Covers P a (s.cfg.elemBytes X)) :
    s.Edits P (t.writeElem X a v) :=
  h.writeLimbs (by rw [length_limbsOf, h.cfg_eq]; exact hP)

/-- The two coordinates of a point (R67). -/
theorem writePoint {X : Ctx} {a x y : Nat} (h : s.Edits P t)
    (hP : Covers P a (2 * s.cfg.elemBytes X)) :
    s.Edits P ((t.writeElem X a x).writeElem X (a + s.cfg.elemBytes X) y) :=
  (h.writeElem (hP.sub le_rfl (by omega))).writeElem (hP.sub (by omega) (by omega))

theorem memWrite {a k v : Nat} (h : s.Edits P t) (hP : Covers P a k) :
    s.Edits P (t.memWrite a k v) :=
  h.writeBytes (by rwa [length_bytesOf])

theorem writeArray {X : Ctx} {a : Nat} {vs : List Nat} (h : s.Edits P t)
    (hP : Covers P a (vs.length * s.cfg.elemBytes X)) : s.Edits P (t.writeArray X a vs) := by
  induction vs generalizing t a with
  | nil => exact h
  | cons v vs ih =>
    rw [List.length_cons, add_mul, one_mul] at hP
    have h1 : s.Edits P (t.writeElem X a v) := h.writeElem (hP.sub le_rfl (by omega))
    refine ih h1 (hP.sub ?_ ?_) <;> rw [h.cfg_eq] <;> omega

theorem forgetOverlap {a b k : Nat} (h : s.Edits P t) (hP : Covers P a k) :
    s.Edits P (t.forgetOverlap a b k) := by
  unfold State.forgetOverlap
  split
  · exact h.forget (hP.sub (by omega) (by omega))
  · exact h

end State.Edits

end Sys2Proof.Machine
end

section
/-! What a command that completes did, said once: it edits its written operands, changes the
registers it owns (10_state.md R25 to R29) and has read every byte of its inputs (R33). -/

namespace Sys2Proof.Machine

variable {i : Instr} {s t u : State}

/-- The offset belongs to an operand the command writes (R94). -/
def InWritten (c : Config) (i : Instr) (x : Nat) : Prop :=
  ∃ o ∈ operandsOf c i, o.written = true ∧ o.ptr ≤ x ∧ x < o.ptr + o.size

theorem covers_operand {c : Config} {o : Operand} (ho : o ∈ operandsOf c i)
    (hw : o.written = true) : Covers (InWritten c i) o.ptr o.size :=
  fun _ h1 h2 => ⟨o, ho, hw, h1, h2⟩

theorem covers_first {c : Config} {p n : Nat} {al : Bool} {rest : List Operand}
    (h : operandsOf c i = ⟨p, n, al, true⟩ :: rest) : Covers (InWritten c i) p n :=
  covers_operand (o := ⟨p, n, al, true⟩) (by simp [h]) rfl

theorem covers_second {c : Config} {p n : Nat} {al : Bool} {o : Operand} {rest : List Operand}
    (h : operandsOf c i = o :: ⟨p, n, al, true⟩ :: rest) : Covers (InWritten c i) p n :=
  covers_operand (o := ⟨p, n, al, true⟩) (by simp [h]) rfl

/-- None of the `k` bytes from `a` on is unspecified (R33). -/
def State.Specified (s : State) (a k : Nat) : Prop := ∀ j < k, s.byteAt (a + j) ≠ none

/-- The part of `State.Inv` about the allocator (R29). -/
def State.AllocOk (s : State) : Prop :=
  s.cfg.tableEnd ≤ s.base ∧ s.base ≤ s.offset ∧ s.offset ≤ s.cfg.arenaBytes ∧
    s.base % 4 = 0 ∧ s.offset % 4 = 0

/-- `t` is a state in which the command `i` can complete from `s`. -/
structure Completes (i : Instr) (s t : State) : Prop where
  /-- the arena is edited at written operands; beside it only five registers may change -/
  frame : ∃ u, s.Edits (InWritten s.cfg i) u ∧
    t = { u with ok := t.ok, cb := t.cb, res := t.res, base := t.base, offset := t.offset }
  ok : writesOk i = false → t.ok = s.ok
  cb : writesCb i = false → t.cb = s.cb
  res : writesRes i = false → t.res = s.res
  base : writesBase i = false → t.base = s.base
  offset : writesOffset i = false → t.offset = s.offset
  alloc : s.AllocOk → t.AllocOk
  inputs : (inputsOf s.cfg i).Forall fun o => s.Specified o.ptr o.size

namespace Completes

/-- A command that only edits the arena. -/
theorem of_edits (h : s.Edits (InWritten s.cfg i) t)
    (hin : (inputsOf s.cfg i).Forall fun o => s.Specified o.ptr o.size) : Completes i s t where
  frame := ⟨t, h, rfl⟩
  ok _ := by rw [h.frame]
  cb _ := by rw [h.frame]
  res _ := by rw [h.frame]
  base _ := by rw [h.frame]
  offset _ := by rw [h.frame]
  alloc hs := by rw [h.frame]; exact hs
  inputs := hin

theorem setOk (h : Completes i s t) (hw : writesOk i = true) (b : Bool) :
    Completes i s (t.setOk b) :=
  { h with
    frame := by
      obtain ⟨u, hu, ht⟩ := h.frame
      exact ⟨u, hu, congrArg (·.setOk b) ht⟩
    ok := fun hn => absurd (hw.symm.trans hn) nofun }

theorem setCb (h : Completes i s t) (hw : writesCb i = true) (b : Bool) :
    Completes i s (t.setCb b) :=
  { h with
    frame := by
      obtain ⟨u, hu, ht⟩ := h.frame
      exact ⟨u, hu, congrArg (·.setCb b) ht⟩
    cb := fun hn => absurd (hw.symm.trans hn) nofun }

theorem setRes (h : Completes i s t) (hw : writesRes i = true) (v : Nat) :
    Completes i s (t.setRes v) :=
  { h with
    frame := by
      obtain ⟨u, hu, ht⟩ := h.frame
      exact ⟨u, hu, congrArg (·.setRes v) ht⟩
    res := fun hn => absurd (hw.symm.trans hn) nofun }

/-- The allocator's registers, changed by a command that owns OFFSET and so that R29 still holds. -/
theorem setAlloc (h : Completes i s t) (hw : writesOffset i = true) {b o : Nat}
    (hb : writesBase i = false → b = t.base)
    (ha : s.AllocOk → ({ t with base := b, offset := o } : State).AllocOk) :
    Completes i s { t with base := b, offset := o } :=
  { h with
    frame := by
      obtain ⟨u, hu, ht⟩ := h.frame
      exact ⟨u, hu, congrArg (fun v : State => { v with base := b, offset := o }) ht⟩
    base := fun hn => (hb hn).trans (h.base hn)
    offset := fun hn => absurd (hw.symm.trans hn) nofun
    alloc := ha }

end Completes

end Sys2Proof.Machine
end

section
/-! How many numbers the list procedures of the commands write: never more than the operand has
room for, whatever the limbs. -/

namespace Sys2Proof.Machine

theorem length_addLimbs_le (w : Nat) (xs ys : List Nat) (c : Nat) :
    (addLimbs w xs ys c).1.length ≤ xs.length := by
  induction xs generalizing ys c with
  | nil => simp [addLimbs]
  | cons x xs ih =>
    cases ys with
    | nil => simp [addLimbs]
    | cons y ys => exact Nat.succ_le_succ (ih ys _)

theorem length_subLimbs_le (w : Nat) (xs ys : List Nat) (b : Nat) :
    (subLimbs w xs ys b).1.length ≤ xs.length := by
  induction xs generalizing ys b with
  | nil => simp [subLimbs]
  | cons x xs ih =>
    cases ys with
    | nil => simp [subLimbs]
    | cons y ys => exact Nat.succ_le_succ (ih ys _)

theorem length_reduceLimbs_le (w : Nat) (ps : List Nat) (n : Nat) (xs : List Nat) :
    (reduceLimbs w ps n xs).length ≤ xs.length := by
  induction n generalizing xs with
  | zero => exact le_rfl
  | succ n ih =>
    rw [reduceLimbs]
    split
    · exact le_rfl
    · exact (ih _).trans (length_subLimbs_le w xs ps 0)

theorem length_peelInverses_le (c : Config) (X : Ctx) (I : Nat) (xs ps : List Nat) :
    (peelInverses c X I xs ps).length ≤ xs.length + 1 := by
  induction xs generalizing I ps with
  | nil => simp [peelInverses]
  | cons x xs ih =>
    cases ps with
    | nil => simp [peelInverses]
    | cons p ps => exact Nat.succ_le_succ (ih _ ps)

theorem length_batchInvValues_le (c : Config) (X : Ctx) (xs : List Nat) :
    (batchInvValues c X xs).length ≤ xs.length := by
  cases xs with
  | nil => exact le_rfl
  | cons x xs =>
    rw [batchInvValues, List.length_reverse, List.length_cons, ← List.length_reverse (as := xs)]
    exact length_peelInverses_le c X _ _ _

theorem State.length_readLimbs {s : State} {X : Ctx} {a : Nat} {xs : List Nat}
    (h : s.readLimbs X a = .ok xs) : xs.length = s.cfg.limbs X :=
  (State.bytes_of_readSlots h).1

theorem State.length_readArray {s : State} {X : Ctx} {m a : Nat} {vs : List Nat}
    (h : s.readArray X m a = .ok vs) : vs.length = m := by
  induction m generalizing a vs with
  | zero => cases h; rfl
  | succ m ih =>
    rw [State.readArray] at h
    split at h
    · cases h
    · split at h
      · cases h
      · rename_i us hus
        cases h
        exact congrArg Nat.succ (ih hus)

end Sys2Proof.Machine
end

section
/-! A read that a command makes succeeds only where every byte is specified (R33, U9). -/

namespace Sys2Proof.Machine

variable {s : State} {X : Ctx}

theorem State.Specified.append {a k l : Nat} (h1 : s.Specified a k) (h2 : s.Specified (a + k) l) :
    s.Specified a (k + l) := fun j hj => by
  by_cases hjk : j < k
  · exact h1 j hjk
  · have h := h2 (j - k) (by omega)
    rwa [show a + k + (j - k) = a + j by omega] at h

theorem State.specified_of_bytes {a k : Nat} {f : Nat → Byte}
    (h : ∀ j < k, s.byteAt (a + j) = some (f j)) : s.Specified a k :=
  fun j hj => by rw [h j hj]; nofun

theorem State.specified_of_readPacked {a k v : Nat} (h : s.readPacked a k = .ok v) :
    s.Specified a k := by
  unfold State.readPacked at h
  split at h
  · cases h
  · rename_i u hu
    exact State.specified_of_bytes (State.bytes_of_memRead hu).2

theorem State.specified_of_readLimbs {a : Nat} {xs : List Nat} (h : s.readLimbs X a = .ok xs) :
    s.Specified a (s.cfg.elemBytes X) :=
  State.specified_of_bytes (State.holds_of_readLimbs h).2.2

theorem State.specified_of_readElem {a v : Nat} (h : s.readElem X a = .ok v) :
    s.Specified a (s.cfg.elemBytes X) :=
  State.specified_of_bytes (State.holds_of_readElem h).2

theorem State.specified_of_readArray {m a : Nat} {vs : List Nat}
    (h : s.readArray X m a = .ok vs) : s.Specified a (m * s.cfg.elemBytes X) := by
  induction m generalizing a vs with
  | zero => intro j hj; omega
  | succ m ih =>
    rw [State.readArray] at h
    split at h
    · cases h
    · rename_i v hv
      split at h
      · cases h
      · rename_i us hus
        rw [add_mul, one_mul, add_comm]
        exact (State.specified_of_readElem hv).append (ih hus)

theorem State.specified_point {a u v : Nat} (hx : s.readElem X a = .ok u)
    (hy : s.readElem X (a + s.cfg.elemBytes X) = .ok v) :
    s.Specified a (2 * s.cfg.elemBytes X) := by
  rw [two_mul]
  exact (State.specified_of_readElem hx).append (State.specified_of_readElem hy)

end Sys2Proof.Machine
end

section
/-! The rule of every command, read once: where it gives a state, the command completes in it
(`Completes`). Each proof follows the reads of the rule and then names what it writes. -/

namespace Sys2Proof.Machine

open State

variable (s : State) (X : Ctx)

/-- The command has a rule, and whatever state the rule gives, the command completes in it. -/
def RuleCompletes (i : Instr) : Prop :=
  ∃ body, exec i s = s.command i body ∧
    ∀ t, faultOf s i = none → body = .ok t → Completes i s t

/-! ### FieldEngine -/

theorem iszero_completes (x : Word) : RuleCompletes s (.iszero X x) := by
  refine ⟨_, rfl, fun t _ h => ?_⟩
  obtain ⟨xs, hx, h⟩ := bind_eq_ok h
  cases h
  refine .setOk (.of_edits .refl ?_) rfl _
  exact specified_of_readLimbs hx

theorem isequal_completes (x y : Word) : RuleCompletes s (.isequal X x y) := by
  refine ⟨_, rfl, fun t _ h => ?_⟩
  obtain ⟨xs, hx, h⟩ := bind_eq_ok h
  obtain ⟨ys, hy, h⟩ := bind_eq_ok h
  cases h
  refine .setOk (.of_edits .refl ?_) rfl _
  exact And.intro (specified_of_readLimbs hx) (specified_of_readLimbs hy)

theorem isgreater_completes (x y : Word) : RuleCompletes s (.isgreater X x y) := by
  refine ⟨_, rfl, fun t _ h => ?_⟩
  obtain ⟨xs, hx, h⟩ := bind_eq_ok h
  obtain ⟨ys, hy, h⟩ := bind_eq_ok h
  cases h
  refine .setOk (.of_edits .refl ?_) rfl _
  exact And.intro (specified_of_readLimbs hx) (specified_of_readLimbs hy)

/-- Limbs that fit an element, written to the first operand. -/
theorem edits_writeLimbs_first {i : Instr} {p : Nat} {al : Bool} {rest : List Operand}
    {xs : List Nat} (ho : operandsOf s.cfg i = ⟨p, s.cfg.elemBytes X, al, true⟩ :: rest)
    (hl : xs.length ≤ s.cfg.limbs X) : s.Edits (InWritten s.cfg i) (s.writeLimbs p xs) :=
  Edits.refl.writeLimbs ((covers_first ho).sub le_rfl (by unfold Config.elemBytes; omega))

/-- An element, written to the first operand. -/
theorem edits_writeElem_first {i : Instr} {p : Nat} {al : Bool} {rest : List Operand} {v : Nat}
    (ho : operandsOf s.cfg i = ⟨p, s.cfg.elemBytes X, al, true⟩ :: rest) :
    s.Edits (InWritten s.cfg i) (s.writeElem X p v) :=
  Edits.refl.writeElem (covers_first ho)

theorem add_completes (out x y : Word) : RuleCompletes s (.add X out x y) := by
  refine ⟨_, rfl, fun t _ h => ?_⟩
  obtain ⟨xs, hx, h⟩ := bind_eq_ok h
  obtain ⟨ys, hy, h⟩ := bind_eq_ok h
  cases h
  have hl := length_addLimbs_le (s.cfg.limbBits X) xs ys 0
  rw [length_readLimbs hx] at hl
  refine .setCb (.of_edits (edits_writeLimbs_first s X rfl hl) ?_) rfl _
  exact And.intro (specified_of_readLimbs hx) (specified_of_readLimbs hy)

theorem sub_completes (out x y : Word) : RuleCompletes s (.sub X out x y) := by
  refine ⟨_, rfl, fun t _ h => ?_⟩
  obtain ⟨xs, hx, h⟩ := bind_eq_ok h
  obtain ⟨ys, hy, h⟩ := bind_eq_ok h
  cases h
  have hl := length_subLimbs_le (s.cfg.limbBits X) xs ys 0
  rw [length_readLimbs hx] at hl
  refine .setCb (.of_edits (edits_writeLimbs_first s X rfl hl) ?_) rfl _
  exact And.intro (specified_of_readLimbs hx) (specified_of_readLimbs hy)

theorem subpos_completes (out x y : Word) : RuleCompletes s (.subpos X out x y) := by
  refine ⟨_, rfl, fun t _ h => ?_⟩
  obtain ⟨xv, hx, h⟩ := bind_eq_ok h
  obtain ⟨yv, hy, h⟩ := bind_eq_ok h
  obtain ⟨_, -, h⟩ := bind_eq_ok h
  cases h
  exact .of_edits (edits_writeElem_first s X rfl)
    (And.intro (specified_of_readElem hx) (specified_of_readElem hy))

theorem reduce_completes (x : Word) : RuleCompletes s (.reduce X x) := by
  refine ⟨_, rfl, fun t _ h => ?_⟩
  obtain ⟨xs, hx, h⟩ := bind_eq_ok h
  obtain ⟨_, -, h⟩ := bind_eq_ok h
  obtain ⟨ps, -, h⟩ := bind_eq_ok h
  cases h
  have hl := length_reduceLimbs_le (s.cfg.limbBits X) ps 4 xs
  rw [length_readLimbs hx] at hl
  exact .of_edits (edits_writeLimbs_first s X rfl hl) (specified_of_readLimbs hx)

theorem copy_completes (out x : Word) : RuleCompletes s (.copy X out x) := by
  refine ⟨_, rfl, fun t _ h => ?_⟩
  obtain ⟨xs, hx, h⟩ := bind_eq_ok h
  cases h
  exact .of_edits (edits_writeLimbs_first s X rfl (length_readLimbs hx).le)
    (specified_of_readLimbs hx)

/-! ### MontgomeryMultiplier -/

theorem mul_completes (out x y : Word) : RuleCompletes s (.mul X out x y) := by
  refine ⟨_, rfl, fun t _ h => ?_⟩
  obtain ⟨xv, hx, h⟩ := bind_eq_ok h
  obtain ⟨yv, hy, h⟩ := bind_eq_ok h
  obtain ⟨_, -, h⟩ := bind_eq_ok h
  cases h
  exact .of_edits (edits_writeElem_first s X rfl)
    (And.intro (specified_of_readElem hx) (specified_of_readElem hy))

theorem sqr_completes (out x : Word) : RuleCompletes s (.sqr X out x) := by
  refine ⟨_, rfl, fun t _ h => ?_⟩
  obtain ⟨xv, hx, h⟩ := bind_eq_ok h
  obtain ⟨_, -, h⟩ := bind_eq_ok h
  cases h
  exact .of_edits (edits_writeElem_first s X rfl) (specified_of_readElem hx)

theorem lshift_completes (out x k : Word) : RuleCompletes s (.lshift X out x k) := by
  refine ⟨_, rfl, fun t _ h => ?_⟩
  obtain ⟨xv, hx, h⟩ := bind_eq_ok h
  obtain ⟨_, -, h⟩ := bind_eq_ok h
  cases h
  exact .of_edits (edits_writeElem_first s X rfl) (specified_of_readElem hx)

/-! ### Inverter -/

theorem inv_completes (out x : Word) : RuleCompletes s (.inv X out x) := by
  refine ⟨_, rfl, fun t _ h => ?_⟩
  obtain ⟨xv, hx, h⟩ := bind_eq_ok h
  obtain ⟨_, -, h⟩ := bind_eq_ok h
  cases h
  exact .of_edits (edits_writeElem_first s X rfl) (specified_of_readElem hx)

theorem makeodd_completes (x : Word) : RuleCompletes s (.makeodd X x) := by
  refine ⟨_, rfl, fun t _ h => ?_⟩
  obtain ⟨xv, hx, h⟩ := bind_eq_ok h
  obtain ⟨_, -, h⟩ := bind_eq_ok h
  cases h
  refine .setRes (.of_edits (edits_writeElem_first s X rfl) ?_) rfl _
  exact specified_of_readElem hx

theorem batchinv_completes (out x m : Word) : RuleCompletes s (.batchinv X out x m) := by
  refine ⟨_, rfl, fun t _ h => ?_⟩
  obtain ⟨_, -, h⟩ := bind_eq_ok h
  obtain ⟨xs, hx, h⟩ := bind_eq_ok h
  obtain ⟨_, -, h⟩ := bind_eq_ok h
  cases h
  have hl := length_batchInvValues_le s.cfg X (xs.map (s.cfg.canon X))
  rw [List.length_map, length_readArray hx] at hl
  have hfit := Nat.add_le_add_left (Nat.mul_le_mul_right (s.cfg.elemBytes X) hl) out.toNat
  exact .of_edits (Edits.refl.writeArray ((covers_first rfl).sub le_rfl hfit))
    (specified_of_readArray hx)

/-! ### SquareRootSolver -/

theorem sqrt_completes (scratch out x : Word) : RuleCompletes s (.sqrt X scratch out x) := by
  refine ⟨_, rfl, fun t _ h => ?_⟩
  obtain ⟨xv, hx, h⟩ := bind_eq_ok h
  obtain ⟨_, -, h⟩ := bind_eq_ok h
  obtain ⟨g, -, h⟩ := bind_eq_ok h
  split at h <;> cases h
  · refine .setOk (.of_edits ?_ ?_) rfl _
    · exact (Edits.refl.writeElem (covers_second rfl)).forget (covers_first rfl)
    · exact specified_of_readElem hx
  · refine .setOk (.of_edits ?_ ?_) rfl _
    · exact (Edits.refl.forget (covers_second rfl)).forget (covers_first rfl)
    · exact specified_of_readElem hx

/-! ### ScalarDecomposer -/

/-- The two outputs of a decomposer command and its OK. -/
theorem writeSplit_completes {i : Instr} {p q : Nat} {al bl : Bool} {rest : List Operand}
    (ho : operandsOf s.cfg i =
      ⟨p, s.cfg.elemBytes .S, al, true⟩ :: ⟨q, s.cfg.elemBytes .S, bl, true⟩ :: rest)
    (hw : writesOk i = true) (v : Int × Int)
    (hin : (inputsOf s.cfg i).Forall fun o => s.Specified o.ptr o.size) :
    Completes i s (s.writeSplit p q v) :=
  .setOk (.of_edits (((Edits.refl.writeElem (covers_first ho)).writeElem
    (covers_second ho)).forgetOverlap (covers_first ho)) hin) hw _

theorem decompose_completes (out0 out1 sc : Word) : RuleCompletes s (.decompose out0 out1 sc) := by
  refine ⟨_, rfl, fun t _ h => ?_⟩
  obtain ⟨v, hv, h⟩ := bind_eq_ok h
  obtain ⟨_, -, h⟩ := bind_eq_ok h
  cases h
  exact writeSplit_completes s rfl rfl _ (specified_of_readElem hv)

theorem decomposeNomsb_completes (out0 out1 sc : Word) :
    RuleCompletes s (.decomposeNomsb out0 out1 sc) := by
  refine ⟨_, rfl, fun t _ h => ?_⟩
  obtain ⟨v, hv, h⟩ := bind_eq_ok h
  obtain ⟨_, -, h⟩ := bind_eq_ok h
  cases h
  exact writeSplit_completes s rfl rfl _ (specified_of_readElem hv)

theorem decomposeGen_completes (out0 out1 sc lam : Word) :
    RuleCompletes s (.decomposeGen out0 out1 sc lam) := by
  refine ⟨_, rfl, fun t _ h => ?_⟩
  obtain ⟨v, hv, h⟩ := bind_eq_ok h
  obtain ⟨l, hl, h⟩ := bind_eq_ok h
  obtain ⟨_, -, h⟩ := bind_eq_ok h
  obtain ⟨_, -, h⟩ := bind_eq_ok h
  cases h
  exact writeSplit_completes s rfl rfl _
    (And.intro (specified_of_readElem hv) (specified_of_readElem hl))

/-! ### CurveOps -/

theorem addaffine_completes (scratch out p1 p2 d : Word) :
    RuleCompletes s (.addaffine scratch out p1 p2 d) := by
  refine ⟨_, rfl, fun t _ h => ?_⟩
  obtain ⟨_, -, h⟩ := bind_eq_ok h
  obtain ⟨x1, hx1, h⟩ := bind_eq_ok h
  obtain ⟨y1, hy1, h⟩ := bind_eq_ok h
  obtain ⟨x2, hx2, h⟩ := bind_eq_ok h
  obtain ⟨y2, hy2, h⟩ := bind_eq_ok h
  obtain ⟨dv, hd, h⟩ := bind_eq_ok h
  obtain ⟨_, -, h⟩ := bind_eq_ok h
  cases h
  exact .of_edits ((Edits.refl.writePoint (covers_second rfl)).forget (covers_first rfl))
    (And.intro (specified_point hx1 hy1)
      (And.intro (specified_point hx2 hy2) (specified_of_readElem hd)))

theorem endo_completes (out p : Word) : RuleCompletes s (.endo out p) := by
  refine ⟨_, rfl, fun t _ h => ?_⟩
  obtain ⟨x, hx, h⟩ := bind_eq_ok h
  obtain ⟨y, hy, h⟩ := bind_eq_ok h
  obtain ⟨_, -, h⟩ := bind_eq_ok h
  obtain ⟨beta, -, h⟩ := bind_eq_ok h
  cases h
  exact .of_edits (Edits.refl.writePoint (covers_first rfl)) (specified_point hx hy)

/-! ### MemoryArena and LimbLayout -/

theorem fromPacked_completes (elem bytes len : Word) :
    RuleCompletes s (.fromPacked X elem bytes len) := by
  refine ⟨_, rfl, fun t _ h => ?_⟩
  obtain ⟨v, hv, h⟩ := bind_eq_ok h
  obtain ⟨_, -, h⟩ := bind_eq_ok h
  cases h
  exact .of_edits (edits_writeElem_first s X rfl) (specified_of_readPacked hv)

theorem toPacked_completes (bytes elem len : Word) :
    RuleCompletes s (.toPacked X bytes elem len) := by
  refine ⟨_, rfl, fun t _ h => ?_⟩
  obtain ⟨a, ha, h⟩ := bind_eq_ok h
  obtain ⟨_, -, h⟩ := bind_eq_ok h
  cases h
  exact .of_edits (Edits.refl.memWrite (covers_first rfl)) (specified_of_readElem ha)

/-- A command that passes all checks of R289 passes those of its operands and the allocator's. -/
theorem faultOf_none_parts {s : State} {i : Instr} (h : faultOf s i = none) :
    operandFault s.cfg (operandsOf s.cfg i) = none ∧ allocFault s i = none := by
  unfold faultOf at h
  split at h
  · cases h
  · split at h
    · cases h
    · exact ⟨‹_›, h⟩

/-- An allocation keeps the alignment of the allocator (R29). -/
theorem alloc_mod_four (c : Config) {b : Nat} (hb : b % 4 = 0) (k : Nat) :
    (b + k * c.elemBytes X) % 4 = 0 := by
  have h : k * c.elemBytes X % 4 = 0 := by rw [Nat.mul_mod, Config.elemBytes_mod_four]; rfl
  omega

theorem allocStable_completes (k : Word) : RuleCompletes s (.allocStable X k) := by
  refine ⟨.ok _, rfl, fun t hn h => ?_⟩
  cases h
  have hroom : s.base + k.toNat * s.cfg.elemBytes X ≤ s.cfg.arenaBytes := by
    by_contra hc
    have := (faultOf_none_parts hn).2
    simp only [allocFault] at this
    split_ifs at this; omega
  refine .setAlloc (.setRes (.of_edits .refl ?_) rfl _) rfl nofun fun hs => ?_
  · exact trivial
  obtain ⟨hlow, -, -, hb4, -⟩ := hs
  have h4 := alloc_mod_four X s.cfg hb4 k.toNat
  exact ⟨hlow.trans (Nat.le_add_right _ _), le_rfl, hroom, h4, h4⟩

theorem allocScratch_completes (k : Word) : RuleCompletes s (.allocScratch X k) := by
  refine ⟨.ok _, rfl, fun t hn h => ?_⟩
  cases h
  have hroom : s.offset + k.toNat * s.cfg.elemBytes X ≤ s.cfg.arenaBytes := by
    by_contra hc
    have := (faultOf_none_parts hn).2
    simp only [allocFault] at this
    split_ifs at this; omega
  refine .setAlloc (.setRes (.of_edits .refl ?_) rfl _) rfl (fun _ => rfl) fun hs => ?_
  · exact trivial
  obtain ⟨hlow, hle, -, hb4, ho4⟩ := hs
  exact ⟨hlow, hle.trans (Nat.le_add_right _ _), hroom, hb4, alloc_mod_four X s.cfg ho4 k.toNat⟩

theorem resetScratch_completes : RuleCompletes s .resetScratch := by
  refine ⟨.ok _, rfl, fun t _ h => ?_⟩
  cases h
  refine .setAlloc (.of_edits .refl ?_) rfl (fun _ => rfl) fun hs => ?_
  · exact trivial
  obtain ⟨hlow, hle, hhigh, hb4, -⟩ := hs
  exact ⟨hlow, le_rfl, hle.trans hhigh, hb4, hb4⟩

/-- The rule of every command, whatever its operands. -/
theorem rule_completes : ∀ i : Instr, RuleCompletes s i
  | .iszero X x => iszero_completes s X x
  | .isequal X x y => isequal_completes s X x y
  | .isgreater X x y => isgreater_completes s X x y
  | .add X out x y => add_completes s X out x y
  | .sub X out x y => sub_completes s X out x y
  | .subpos X out x y => subpos_completes s X out x y
  | .reduce X x => reduce_completes s X x
  | .copy X out x => copy_completes s X out x
  | .mul X out x y => mul_completes s X out x y
  | .sqr X out x => sqr_completes s X out x
  | .lshift X out x k => lshift_completes s X out x k
  | .inv X out x => inv_completes s X out x
  | .makeodd X x => makeodd_completes s X x
  | .batchinv X out x m => batchinv_completes s X out x m
  | .sqrt X scratch out x => sqrt_completes s X scratch out x
  | .decompose out0 out1 sc => decompose_completes s out0 out1 sc
  | .decomposeNomsb out0 out1 sc => decomposeNomsb_completes s out0 out1 sc
  | .decomposeGen out0 out1 sc lam => decomposeGen_completes s out0 out1 sc lam
  | .addaffine scratch out p1 p2 d => addaffine_completes s scratch out p1 p2 d
  | .endo out p => endo_completes s out p
  | .allocStable X k => allocStable_completes s X k
  | .allocScratch X k => allocScratch_completes s X k
  | .resetScratch => resetScratch_completes s
  | .fromPacked X elem bytes len => fromPacked_completes s X elem bytes len
  | .toPacked X bytes elem len => toPacked_completes s X bytes elem len

/-- R281: a command that answers a next state was ignored, took a fault, or completed. -/
theorem exec_next {s t : State} {i : Instr} (h : exec i s = .next t) :
    (s.faulted = true ∧ t = s) ∨
    (s.faulted = false ∧ ∃ f, faultOf s i = some f ∧ t = s.raise f.1 f.2) ∨
    (s.faulted = false ∧ faultOf s i = none ∧ Completes i s t) := by
  obtain ⟨body, hexec, hbody⟩ := rule_completes s i
  rw [hexec] at h
  rcases command_next h with hign | hfault | ⟨hf, hn, hok⟩
  · exact .inl hign
  · exact .inr (.inl hfault)
  · exact .inr (.inr ⟨hf, hn, hbody t hn hok⟩)

end Sys2Proof.Machine
end

section
/-! The invariant `State.Inv` in its parts, and that every step keeps it: an induction's base
(reset, 10_state.md R310) and its step (R28, R29, R69). -/

namespace Sys2Proof.Machine

variable {s t : State} {i : Instr}

/-- The part of `State.Inv` about ERR and FAULTINFO (R28). -/
def State.FaultOk (s : State) : Prop :=
  (s.faulted = false → s.err = 0#8 ∧ s.faultInfo = 0#32) ∧
    (s.faulted = true → 1#8 ≤ s.err ∧ s.err ≤ 7#8)

theorem State.inv_iff :
    s.Inv ↔ s.cfg.wf = true ∧ s.ArenaOk ∧ s.AllocOk ∧ s.FaultOk := by
  constructor
  · rintro ⟨hwf, hmem, hrange, h1, h2, h3, h4, h5, hrun, hstop, hfree⟩
    exact ⟨hwf, ⟨hmem, hrange, hfree⟩, ⟨h1, h2, h3, h4, h5⟩, hrun, hstop⟩
  · rintro ⟨hwf, ⟨hmem, hrange, hfree⟩, ⟨h1, h2, h3, h4, h5⟩, hrun, hstop⟩
    exact ⟨hwf, hmem, hrange, h1, h2, h3, h4, h5, hrun, hstop, hfree⟩

theorem State.resetOf_inv {c : Config} (h : c.wf = true) : (State.resetOf c).Inv :=
  State.inv_iff.2 ⟨h, ⟨rfl, rfl, rfl⟩,
    ⟨le_rfl, le_rfl, Config.tableEnd_le_arena h, c.tableEnd_mod_four, c.tableEnd_mod_four⟩,
    fun _ => ⟨rfl, rfl⟩, nofun⟩

/-- Nothing of the invariant is about the host's fields or the count of resets, so it holds after a
reset by the host as it does after `State.resetOf`. -/
theorem State.hostReset_inv (h : s.Inv) : s.hostReset.Inv :=
  have hwf : s.cfg.wf = true := h.1
  State.resetOf_inv hwf

theorem errCode_bounds (code : FaultCode) : 1#8 ≤ errCode code ∧ errCode code ≤ 7#8 := by
  cases code <;> decide

theorem State.raise_inv (h : s.Inv) (code : FaultCode) (info : Nat) : (s.raise code info).Inv := by
  obtain ⟨hwf, harena, halloc, -⟩ := State.inv_iff.1 h
  exact State.inv_iff.2 ⟨hwf, harena, halloc, nofun, fun _ => errCode_bounds code⟩

theorem State.Edits.inv {P : Nat → Prop} (h : s.Edits P t)
    (hP : ∀ x, P x → s.cfg.tableEnd ≤ x ∧ x < s.cfg.arenaBytes) (hs : s.Inv) : t.Inv := by
  obtain ⟨hwf, harena, halloc, hfault⟩ := State.inv_iff.1 hs
  refine State.inv_iff.2 ⟨h.cfg_eq ▸ hwf, h.arenaOk hP harena, ?_, ?_⟩ <;> rw [h.frame]
  · exact halloc
  · exact hfault

/-- A command that passes the checks of R289 writes only where writing is allowed (R68, R69). -/
theorem inWritten_writable (hn : faultOf s i = none) {x : Nat} (hx : InWritten s.cfg i x) :
    s.cfg.tableEnd ≤ x ∧ x < s.cfg.arenaBytes := by
  obtain ⟨o, ho, hw, hlow, hhigh⟩ := hx
  obtain ⟨-, hrange, hprot⟩ := operandFault_eq_none.1 (faultOf_none_parts hn).1 o ho
  simp only [Operand.outOfRange, decide_eq_false_iff_not] at hrange
  simp only [Operand.writeProtected, hw, Bool.true_and, Bool.and_eq_false_iff,
    decide_eq_false_iff_not] at hprot
  omega

namespace Completes

/-- What no command that completes changes. -/
theorem kept (h : Completes i s t) :
    t.cfg = s.cfg ∧ t.pending = s.pending ∧ t.reply = s.reply ∧
      t.faulted = s.faulted ∧ t.err = s.err ∧ t.faultInfo = s.faultInfo := by
  obtain ⟨u, hu, ht⟩ := h.frame
  rw [ht, hu.frame]
  exact ⟨rfl, rfl, rfl, rfl, rfl, rfl⟩

theorem inv (h : Completes i s t) (hn : faultOf s i = none) (hs : s.Inv) : t.Inv := by
  obtain ⟨u, hu, ht⟩ := h.frame
  obtain ⟨hwf, harena, -, hfault⟩ :=
    State.inv_iff.1 (hu.inv (fun _ => inWritten_writable hn) hs)
  refine State.inv_iff.2 ⟨?_, ?_, h.alloc (State.inv_iff.1 hs).2.2.1, ?_⟩ <;> rw [ht]
  · exact hwf
  · exact harena
  · exact hfault

end Completes

theorem exec_keeps_inv (hs : s.Inv) (h : exec i s = .next t) : t.Inv ∧ t.cfg = s.cfg := by
  rcases exec_next h with ⟨-, rfl⟩ | ⟨-, f, -, rfl⟩ | ⟨-, hn, hc⟩
  · exact ⟨hs, rfl⟩
  · exact ⟨State.raise_inv hs f.1 f.2, rfl⟩
  · exact ⟨hc.inv hn hs, hc.kept.1⟩

theorem issue_keeps_inv {d : Descriptor} (hs : s.Inv) (h : issue d s = .next t) :
    t.Inv ∧ t.cfg = s.cfg := by
  unfold issue at h
  split at h
  · cases h; exact ⟨hs, rfl⟩
  · split at h
    · exact exec_keeps_inv hs h
    · cases h; exact ⟨State.raise_inv hs _ _, rfl⟩

/-- A host write is dropped or lies where writing is allowed (R69, R73). -/
theorem State.hostWriteMem_edits (s : State) (offset : Nat) (bytes : List Byte) :
    s.Edits (fun x => s.cfg.tableEnd ≤ x ∧ x < s.cfg.arenaBytes) (s.hostWriteMem offset bytes) := by
  unfold State.hostWriteMem
  split
  · exact .writeBytes .refl fun x _ _ => by omega
  · exact .refl

/-- A host read changes nothing the invariant is about. -/
theorem State.hostReadMem_inv (hs : s.Inv) (offset count : Nat) :
    (s.hostReadMem offset count).Inv := by
  obtain ⟨hwf, ⟨hmem, hrange, hfree⟩, halloc, hfault⟩ := State.inv_iff.1 hs
  refine State.inv_iff.2 ⟨hwf, ⟨hmem, hrange, ?_⟩, halloc, hfault⟩
  rw [State.hostReadMem_free]
  split <;> exact hfree

theorem perform_keeps_inv {a : HostAction} (hs : s.Inv) (h : perform a s = .next t) :
    t.Inv ∧ t.cfg = s.cfg := by
  cases a with
  | issue d => exact issue_keeps_inv hs h
  | reset => cases h; exact ⟨State.hostReset_inv hs, rfl⟩
  | readReg number => cases h; exact ⟨hs, rfl⟩
  | readMem offset count => cases h; exact ⟨State.hostReadMem_inv hs offset count, rfl⟩
  | writeMem offset bytes =>
    cases h
    have he := s.hostWriteMem_edits offset bytes
    exact ⟨he.inv (fun _ hx => hx) hs, he.cfg_eq⟩

/-- With an action pending, a step performs it (R72). -/
theorem step_of_pending {a : HostAction} {rest : List HostAction} (hwf : s.cfg.wf = true)
    (hp : s.pending = a :: rest) : step s = perform a { s with pending := rest } := by
  unfold step
  rw [if_pos hwf, hp]

/-- With nothing pending a step holds the state (R297). -/
theorem step_of_idle (hwf : s.cfg.wf = true) (hp : s.pending = []) : step s = .next s := by
  unfold step
  rw [if_pos hwf, hp]

end Sys2Proof.Machine

namespace Sys2Proof

open Machine

theorem bls32_wf : bls32.wf = true := by decide +kernel

/-- Settles O12: every part of the invariant is read off the reset state. -/
theorem resetHasInvariant : Obligations.ResetHasInvariant :=
  ⟨State.resetOf_inv bls32_wf, fun _ => State.resetOf_inv⟩

/-- Settles O13: a step idles or performs one host action, and each action keeps the invariant; of
a command because it was ignored, took a fault, or edited the arena at operands that passed the
checks of R289 and left the allocator in order. -/
theorem stepKeepsInvariant : Obligations.StepKeepsInvariant := by
  intro s t hs h
  have hwf : s.cfg.wf = true := hs.1
  cases hp : s.pending with
  | nil =>
    rw [step_of_idle hwf hp] at h
    cases h
    exact ⟨hs, rfl⟩
  | cons a rest =>
    rw [step_of_pending hwf hp] at h
    exact perform_keeps_inv (s := { s with pending := rest }) hs h

/-- Settles O14: before and after the step the invariant holds, and under it a byte below `CT_END`
reads as reset wrote it. -/
theorem constantTablesNeverChange : Obligations.ConstantTablesNeverChange := by
  intro s t a hs h ha
  obtain ⟨ht, hcfg⟩ := stepKeepsInvariant s t hs h
  obtain ⟨-, ⟨-, hrange_s, -⟩, -⟩ := State.inv_iff.1 hs
  obtain ⟨-, ⟨-, hrange_t, -⟩, -⟩ := State.inv_iff.1 ht
  calc t.byteAt a = t.cfg.resetByte a := Memory.read_table hrange_t (hcfg ▸ ha)
    _ = s.cfg.resetByte a := by rw [hcfg]
    _ = s.byteAt a := (Memory.read_table hrange_s ha).symm

/-- Settles O15: an ignored command changes nothing, a fault only FAULTED, ERR and FAULTINFO, and a
command that completes only the registers it owns. -/
theorem registersHaveOwners : Obligations.RegistersHaveOwners := by
  intro s t i h
  rcases exec_next h with ⟨hf, rfl⟩ | ⟨hf, f, -, rfl⟩ | ⟨hf, -, hc⟩
  · simp [hf]
  · simp
  · obtain ⟨hcfg, hpending, hreply, hfaulted, herr, hinfo⟩ := hc.kept
    refine ⟨hcfg, hpending, hreply, hc.ok, hc.cb, hc.res, hc.base, hc.offset, fun ht => ?_,
      fun _ => ⟨herr, hinfo, hf⟩⟩
    rw [hfaulted, hf] at ht
    cases ht

/-- Settles O18: a command that completes has read every byte of its inputs, and where no check
fails the only other outcome is a refusal. -/
theorem unspecifiedInputsRefused : Obligations.UnspecifiedInputsRefused := by
  intro s i o k hready hn ho hk hnone
  obtain ⟨-, hrun⟩ := hready
  cases h : exec i s with
  | refused r => exact ⟨r, rfl⟩
  | fault f =>
    obtain ⟨body, hbody⟩ := exec_is_command i s
    exact absurd (hbody.symm.trans h) (State.command_ne_fault f)
  | next t =>
    rcases exec_next h with ⟨hf, -⟩ | ⟨-, f, hf, -⟩ | ⟨-, -, hc⟩
    · simp [hrun] at hf
    · simp [hn] at hf
    · exact absurd hnone (List.forall_iff_forall_mem.1 hc.inputs o ho k hk)

end Sys2Proof
end

section
/-! The host's view of the registers (10_state.md R24). -/

namespace Sys2Proof.Machine

/-- The bits of STATUS, counted off field by field from bit 0 (R24). -/
theorem State.getLsbD_statusWord (s : State) (k : Nat) :
    s.statusWord.getLsbD k =
      if k < 1 then (BitVec.ofBool s.ok).getLsbD k
      else if k - 1 < 1 then (BitVec.ofBool s.cb).getLsbD (k - 1)
      else if k - 1 - 1 < 1 then (BitVec.ofBool s.faulted).getLsbD (k - 1 - 1)
      else if k - 1 - 1 - 1 < 5 then (0#5).getLsbD (k - 1 - 1 - 1)
      else if k - 1 - 1 - 1 - 5 < 8 then s.err.getLsbD (k - 1 - 1 - 1 - 5)
      else (0#16).getLsbD (k - 1 - 1 - 1 - 5 - 8) := by
  unfold State.statusWord
  simp only [BitVec.getLsbD_append]

/-- The layout of STATUS (R24). -/
theorem State.statusWord_fields (s : State) :
    s.statusWord.getLsbD 0 = s.ok ∧ s.statusWord.getLsbD 1 = s.cb ∧
      s.statusWord.getLsbD 2 = s.faulted ∧ s.statusWord.extractLsb' 3 5 = 0#5 ∧
      s.statusWord.extractLsb' 8 8 = s.err ∧ s.statusWord.extractLsb' 16 16 = 0#16 := by
  refine ⟨?_, ?_, ?_, BitVec.eq_of_getLsbD_eq fun j hj => ?_,
    BitVec.eq_of_getLsbD_eq fun j hj => ?_, BitVec.eq_of_getLsbD_eq fun j hj => ?_⟩
  · rw [getLsbD_statusWord]; simp
  · rw [getLsbD_statusWord]; simp
  · rw [getLsbD_statusWord]; simp
  · rw [BitVec.getLsbD_extractLsb', getLsbD_statusWord]; simp [Nat.not_le.2 hj]
  · rw [BitVec.getLsbD_extractLsb', getLsbD_statusWord]; simp [hj]
  · rw [BitVec.getLsbD_extractLsb', getLsbD_statusWord]; simp [show ¬13 + j - 5 < 8 by omega]

/-- A number that names none of the five registers reads 0 (R24). -/
theorem State.readReg_of_five_le (s : State) {n : Nat} (h : 5 ≤ n) : s.readReg n = 0 := by
  obtain ⟨k, rfl⟩ := Nat.exists_eq_add_of_le' h
  rfl

end Sys2Proof.Machine

namespace Sys2Proof

open Machine

/-- Settles O44: the step answers `State.readReg`, whose cases are the registers. -/
theorem hostRegisterRead : Obligations.HostRegisterRead := by
  intro s n rest hwf hp
  refine ⟨s.readReg n, (step_of_pending hwf hp).trans rfl, ?_, ?_, ?_, ?_, ?_, ?_⟩
  · rintro rfl; exact s.statusWord_fields
  · rintro rfl; rfl
  · rintro rfl; rfl
  · rintro rfl; rfl
  · rintro rfl; rfl
  · exact s.readReg_of_five_le

end Sys2Proof
end

section
/-! The stored integers of the constant tables (10_state.md R30). -/

namespace Sys2Proof

namespace Config

variable {c : Config}

theorem lambda_lt (h : c.wf = true) : c.lambda < c.q := by
  obtain ⟨-, -, -, hlambda, -⟩ := wf_parts h
  simp only [lambdaOk, Bool.and_eq_true, decide_eq_true_eq] at hlambda
  exact hlambda.1.2

theorem invCorrection_eq (c : Config) (X : Ctx) :
    c.invCorrection X = 2 ^ (3 * c.radixBits X - 2 * c.bl X) % c.modulus X :=
  powMod_eq _ _ _

/-- Every table entry but P is below its modulus (R30). -/
theorem tableEntry_lt_modulus (h : c.wf = true) (X : Ctx) {e : Nat} (he : e ≠ 2) :
    c.tableEntry X e < c.modulus X := by
  have h3 := three_le_modulus h X
  have hmod : ∀ v, v % c.modulus X < c.modulus X := fun v => Nat.mod_lt v (by omega)
  unfold tableEntry
  split
  case h_1 | h_2 | h_12 => omega
  case h_3 => contradiction
  case h_6 => rw [invCorrection_eq]; exact hmod _
  case h_11 =>
    cases X with
    | F => exact hmod _
    | S => exact lambda_lt h
  all_goals exact hmod _

/-- Every table entry is an element (R30). -/
theorem tableEntry_lt_radix (h : c.wf = true) (X : Ctx) (e : Nat) :
    c.tableEntry X e < c.radix X := by
  have hR := two_modulus_lt_radix h X
  by_cases he : e = 2
  · subst he
    change c.modulus X < _
    omega
  · have := tableEntry_lt_modulus h X he
    omega

end Config

open Machine

/-- Settles O11: under the invariant no written byte lies below `CT_END`, so every entry reads as
reset wrote it, and each entry is below `R`. -/
theorem constantTableEntries : Obligations.ConstantTableEntries := by
  intro s hs X
  obtain ⟨hwf, ⟨-, hrange, -⟩, -⟩ := State.inv_iff.1 hs
  have entry : ∀ (Y : Ctx) (e v : Nat), e < 11 → s.cfg.tableEntry Y e = v →
      s.HoldsElem Y (s.cfg.entryPtr Y e) v := by
    rintro Y e v he rfl
    exact State.holds_entry hwf hrange he (Config.tableEntry_lt_radix hwf Y e)
  refine ⟨?_, ?_, rfl, fun e => ?_, entry X 0 _ (by omega) rfl, entry X 1 _ (by omega) rfl,
    entry X 2 _ (by omega) rfl, entry X 3 _ (by omega) ?_, entry X 4 _ (by omega) ?_,
    entry X 5 _ (by omega) ?_, entry X 6 _ (by omega) rfl, entry X 7 _ (by omega) rfl,
    entry X 8 _ (by omega) rfl, entry X 9 _ (by omega) ?_, entry .F 10 _ (by omega) rfl,
    entry .S 10 _ (by omega) rfl⟩
  · simp [Config.entryPtr, Config.tableStart]
  · simp [Config.entryPtr, Config.tableStart]
  · simp [Config.entryPtr]
  · simp [Config.tableEntry, Config.mont]
  · simp [Config.tableEntry, pow_two]
  · exact s.cfg.invCorrection_eq X
  · simp [Config.tableEntry, Config.mont, Config.sqrtC0, powMod_eq]

end Sys2Proof
end

section
/-! The frame of a command (20_memory.md R70): outside the edited offsets the arena holds, and the
host reads, what it did before. -/

namespace Sys2Proof.Machine

variable {i : Instr} {s t : State}

/-- Edits leave every byte outside their offsets alone, an unspecified one with its free value. -/
theorem State.Edits.reads_eq {P : Nat → Prop} {x : Nat} (h : s.Edits P t) (hx : ¬P x) :
    t.byteAt x = s.byteAt x ∧ t.hostByte x = s.hostByte x := by
  have outside : ∀ {a k : Nat}, Covers P a k → ¬(a ≤ x ∧ x < a + k) :=
    fun hP ⟨hlow, hhigh⟩ => hx (hP x hlow hhigh)
  induction h with
  | refl => exact ⟨rfl, rfl⟩
  | @writeBytes t a bs _ hP ih =>
    have hout := outside hP
    exact ⟨((State.byteAt_writeBytes a bs x).trans (if_neg hout)).trans ih.1,
      (State.hostByte_writeBytes hout).trans ih.2⟩
  | @forget t a k _ hP ih =>
    have hout := outside hP
    exact ⟨((Memory.read_forget t.cfg t.mem a k x).trans (if_neg hout)).trans ih.1,
      (State.hostByte_forget hout).trans ih.2⟩

/-- The registers of a command are no part of the arena. -/
theorem Completes.reads_eq {x : Nat} (h : Completes i s t) (hx : ¬InWritten s.cfg i x) :
    t.byteAt x = s.byteAt x ∧ t.hostByte x = s.hostByte x := by
  obtain ⟨u, hu, ht⟩ := h.frame
  rw [ht]
  exact hu.reads_eq hx

end Sys2Proof.Machine

namespace Sys2Proof

open Machine

/-- Settles O16: an ignored or faulting command has no effect on the arena, and one that completes
edits it at its written operands only. -/
theorem onlyWrittenOperandsChange : Obligations.OnlyWrittenOperandsChange := by
  intro s t i a h hout
  rcases exec_next h with ⟨-, rfl⟩ | ⟨-, f, -, rfl⟩ | ⟨-, -, hc⟩
  · exact ⟨rfl, rfl⟩
  · exact ⟨rfl, rfl⟩
  · exact hc.reads_eq fun ⟨o, ho, hw, hin⟩ => hout o ho hw hin

end Sys2Proof
end

section
/-! Limb slots (20_memory.md R65): a read of limbs, of an element, of an array or of a point
succeeds only where every slot is below `2^w` (U10). -/

namespace Sys2Proof.Machine

variable {s : State} {X : Ctx}

/-- Every 4-byte slot of the `k` bytes from `a` on that holds a number holds one below `2^w`. -/
def State.SlotsFit (s : State) (X : Ctx) (a k : Nat) : Prop :=
  ∀ j v, 4 * j + 4 ≤ k → s.HoldsBytes (a + 4 * j) 4 v → v < 2 ^ s.cfg.limbBits X

/-- The second interval's slots are slots of the whole where the first holds whole slots. -/
theorem State.SlotsFit.append {a k l : Nat} (h1 : s.SlotsFit X a k) (h2 : s.SlotsFit X (a + k) l)
    (hk : k % 4 = 0) : s.SlotsFit X a (k + l) := fun j v hj hv => by
  by_cases hjk : 4 * j + 4 ≤ k
  · exact h1 j v hjk hv
  · refine h2 (j - k / 4) v (by omega) ?_
    rwa [show a + k + 4 * (j - k / 4) = a + 4 * j by omega]

theorem State.slotsFit_of_readLimbs {a : Nat} {xs : List Nat} (h : s.readLimbs X a = .ok xs) :
    s.SlotsFit X a (s.cfg.elemBytes X) := by
  obtain ⟨hlen, hlt, hbytes⟩ := State.bytes_of_readSlots h
  intro j v hj hv
  have hjn : j < xs.length := by rw [hlen]; unfold Config.elemBytes at hj; omega
  have hlimb : xs.getD j 0 < 2 ^ s.cfg.limbBits X := by
    rw [List.getD_eq_getElem _ _ hjn]
    exact hlt _ (List.getElem_mem hjn)
  have hread : s.memRead (a + 4 * j) 4 = some (xs.getD j 0 % 256 ^ 4) :=
    State.memRead_of_bytes fun i hi => by
      have := hbytes (4 * j + i) (by omega)
      rwa [show (4 * j + i) / 4 = j by omega, show (4 * j + i) % 4 = i by omega,
        ← Nat.add_assoc] at this
  have hv_eq : v = xs.getD j 0 % 256 ^ 4 := by
    rw [State.memRead_of_bytes hv.2, Nat.mod_eq_of_lt hv.1] at hread
    exact Option.some.inj hread
  exact hv_eq ▸ (Nat.mod_le _ _).trans_lt hlimb

theorem State.slotsFit_of_readElem {a v : Nat} (h : s.readElem X a = .ok v) :
    s.SlotsFit X a (s.cfg.elemBytes X) := by
  unfold State.readElem at h
  split at h
  · cases h
  · rename_i xs hxs
    exact State.slotsFit_of_readLimbs hxs

theorem State.slotsFit_of_readArray {m a : Nat} {vs : List Nat} (h : s.readArray X m a = .ok vs) :
    s.SlotsFit X a (m * s.cfg.elemBytes X) := by
  induction m generalizing a vs with
  | zero => intro j v hj; omega
  | succ m ih =>
    rw [State.readArray] at h
    split at h
    · cases h
    · rename_i v hv
      split at h
      · cases h
      · rename_i us hus
        rw [add_mul, one_mul, add_comm]
        exact (State.slotsFit_of_readElem hv).append (ih hus) (s.cfg.elemBytes_mod_four X)

end Sys2Proof.Machine
end

section
/-! Which operands the rule of a command reads as limb slots, read off the rule's own reads: one
combinator per form of operand (30_encoding.md R94), then one line per command. -/

namespace Sys2Proof.Machine

variable {s : State} {X : Ctx}

/-- Where the rule `body` gives a state, the slots of every aligned operand of `ops` fit. -/
def ReadsSlots (s : State) (X : Ctx) (ops : List Operand) (body : Except Refusal State) : Prop :=
  ∀ t, body = .ok t → ∀ o ∈ ops, o.aligned = true → s.SlotsFit X o.ptr o.size

namespace ReadsSlots

variable {ops : List Operand} {w : Bool} {p : Nat}

theorem nil {body : Except Refusal State} : ReadsSlots s X [] body := by
  intro t _ o ho
  cases ho

/-- A precondition, or the read of a constant-table entry. -/
theorem skip {α : Type} {x : Except Refusal α} {f : α → Except Refusal State}
    (hf : ∀ a, ReadsSlots s X ops (f a)) : ReadsSlots s X ops (x >>= f) := by
  intro t h
  obtain ⟨a, -, h⟩ := bind_eq_ok h
  exact hf a t h

/-- A first read that succeeds only where the slots of the first operand fit. -/
theorem read {α : Type} {x : Except Refusal α} {f : α → Except Refusal State} {al : Bool} {n : Nat}
    (hx : ∀ a, x = .ok a → s.SlotsFit X p n) (hf : ∀ a, ReadsSlots s X ops (f a)) :
    ReadsSlots s X (⟨p, n, al, w⟩ :: ops) (x >>= f) := by
  intro t h o ho hal
  obtain ⟨a, ha, h⟩ := bind_eq_ok h
  rcases List.mem_cons.1 ho with rfl | ho
  · exact hx a ha
  · exact hf a t h o ho hal

theorem limbs {f : List Nat → Except Refusal State} (hf : ∀ xs, ReadsSlots s X ops (f xs)) :
    ReadsSlots s X (⟨p, s.cfg.elemBytes X, true, w⟩ :: ops) (s.readLimbs X p >>= f) :=
  read (fun _ => State.slotsFit_of_readLimbs) hf

theorem elem {f : Nat → Except Refusal State} (hf : ∀ v, ReadsSlots s X ops (f v)) :
    ReadsSlots s X (⟨p, s.cfg.elemBytes X, true, w⟩ :: ops) (s.readElem X p >>= f) :=
  read (fun _ => State.slotsFit_of_readElem) hf

theorem array {m : Nat} {f : List Nat → Except Refusal State}
    (hf : ∀ vs, ReadsSlots s X ops (f vs)) :
    ReadsSlots s X (⟨p, m * s.cfg.elemBytes X, true, w⟩ :: ops) (s.readArray X m p >>= f) :=
  read (fun _ => State.slotsFit_of_readArray) hf

theorem point {f : Nat → Nat → Except Refusal State} (hf : ∀ x y, ReadsSlots s X ops (f x y)) :
    ReadsSlots s X (⟨p, 2 * s.cfg.elemBytes X, true, w⟩ :: ops)
      (s.readElem X p >>= fun x => s.readElem X (p + s.cfg.elemBytes X) >>= fun y => f x y) := by
  intro t h o ho hal
  obtain ⟨x, hx, h⟩ := bind_eq_ok h
  obtain ⟨y, hy, h⟩ := bind_eq_ok h
  rcases List.mem_cons.1 ho with rfl | ho
  · rw [two_mul]
    exact (State.slotsFit_of_readElem hx).append (State.slotsFit_of_readElem hy)
      (s.cfg.elemBytes_mod_four X)
  · exact hf x y t h o ho hal

/-- A byte string has no slots (R67). -/
theorem packed {n : Nat} {body : Except Refusal State} (h : ReadsSlots s X ops body) :
    ReadsSlots s X (⟨p, n, false, w⟩ :: ops) body := by
  intro t ht o ho hal
  rcases List.mem_cons.1 ho with rfl | ho
  · cases hal
  · exact h t ht o ho hal

end ReadsSlots

open ReadsSlots in
/-- The rule of every command reads its inputs (R94) as the forms they have. -/
theorem rule_readsSlots (s : State) : ∀ i : Instr,
    ∃ body, exec i s = s.command i body ∧ ReadsSlots s (ctxOf i) (inputsOf s.cfg i) body
  | .iszero _ _ => ⟨_, rfl, limbs fun _ => nil⟩
  | .isequal _ _ _ => ⟨_, rfl, limbs fun _ => limbs fun _ => nil⟩
  | .isgreater _ _ _ => ⟨_, rfl, limbs fun _ => limbs fun _ => nil⟩
  | .add _ _ _ _ => ⟨_, rfl, limbs fun _ => limbs fun _ => nil⟩
  | .sub _ _ _ _ => ⟨_, rfl, limbs fun _ => limbs fun _ => nil⟩
  | .subpos _ _ _ _ => ⟨_, rfl, elem fun _ => elem fun _ => nil⟩
  | .reduce _ _ => ⟨_, rfl, limbs fun _ => nil⟩
  | .copy _ _ _ => ⟨_, rfl, limbs fun _ => nil⟩
  | .mul _ _ _ _ => ⟨_, rfl, elem fun _ => elem fun _ => nil⟩
  | .sqr _ _ _ => ⟨_, rfl, elem fun _ => nil⟩
  | .lshift _ _ _ _ => ⟨_, rfl, elem fun _ => nil⟩
  | .inv _ _ _ => ⟨_, rfl, elem fun _ => nil⟩
  | .makeodd _ _ => ⟨_, rfl, elem fun _ => nil⟩
  | .batchinv _ _ _ _ => ⟨_, rfl, skip fun _ => array fun _ => nil⟩
  | .sqrt _ _ _ _ => ⟨_, rfl, elem fun _ => nil⟩
  | .decompose _ _ _ => ⟨_, rfl, elem fun _ => nil⟩
  | .decomposeNomsb _ _ _ => ⟨_, rfl, elem fun _ => nil⟩
  | .decomposeGen _ _ _ _ => ⟨_, rfl, elem fun _ => elem fun _ => nil⟩
  | .addaffine _ _ _ _ _ =>
    ⟨_, rfl, skip fun _ => point fun _ _ => point fun _ _ => elem fun _ => nil⟩
  | .endo _ _ => ⟨_, rfl, point fun _ _ => nil⟩
  | .allocStable _ _ => ⟨.ok _, rfl, nil⟩
  | .allocScratch _ _ => ⟨.ok _, rfl, nil⟩
  | .resetScratch => ⟨.ok _, rfl, nil⟩
  | .fromPacked _ _ _ _ => ⟨_, rfl, packed nil⟩
  | .toPacked _ _ _ _ => ⟨_, rfl, elem fun _ => nil⟩

end Sys2Proof.Machine

namespace Sys2Proof

open Machine

/-- Settles O19: where no check fails, a command is refused or its rule gives a state, and then its
reads have shown that every slot of its inputs is below `2^w`. -/
theorem malformedSlotsRefused : Obligations.MalformedSlotsRefused := by
  intro s i o j v hready hn ho hal hj hv hbig
  obtain ⟨-, hrun⟩ := hready
  obtain ⟨body, hexec, hreads⟩ := rule_readsSlots s i
  cases hb : body with
  | error r => exact ⟨r, hexec.trans (State.command_of_error hrun hn hb)⟩
  | ok t => exact absurd (hreads t hb o ho hal j v hj hv) (Nat.not_lt.2 hbig)

end Sys2Proof
end

section
/-! The host's port to the arena (20_memory.md R73): an access in range, and one that is not. -/

namespace Sys2Proof.Machine

variable {s : State} {offset count : Nat} {bytes : List Byte}

theorem perform_writeMem_of_writable (hlow : s.cfg.tableEnd ≤ offset)
    (hhigh : offset + bytes.length ≤ s.cfg.arenaBytes) :
    perform (.writeMem offset bytes) s = .next (s.writeBytes offset bytes) :=
  congrArg Host.Outcome.next (if_pos ⟨hlow, hhigh⟩)

/-- R69, R73: a write that begins below `CT_END` or leaves the arena is dropped whole. -/
theorem perform_writeMem_of_not_writable
    (h : offset < s.cfg.tableEnd ∨ s.cfg.arenaBytes < offset + bytes.length) :
    perform (.writeMem offset bytes) s = .next s :=
  congrArg Host.Outcome.next (if_neg (by omega))

/-- R73: in range a read answers what the host reads of each byte, and nothing else changes. -/
theorem perform_readMem_of_inRange (h : offset + count ≤ s.cfg.arenaBytes) :
    perform (.readMem offset count) s = .next { s with
      reply := .bytes ((List.range count).map fun j => s.hostByte (offset + j)) } := by
  simp only [perform, State.hostReadMem, if_pos h]

/-- R73, U22: out of range a read answers stray bytes and is counted. -/
theorem perform_readMem_of_outOfRange (h : s.cfg.arenaBytes < offset + count) :
    perform (.readMem offset count) s = .next { s with
      reply := .bytes ((List.range count).map fun j =>
        Config.strayByte s.free.strayReads (offset + j))
      free := { s.free with strayReads := s.free.strayReads + 1 } } := by
  simp only [perform, State.hostReadMem, if_neg (Nat.not_le.2 h)]

end Sys2Proof.Machine

namespace Sys2Proof

open Machine

/-- Settles O43: the step performs the write, whose range check splits the two clauses; it does not
look at FAULTED. -/
theorem hostWriteStoresOrIsDropped : Obligations.HostWriteStoresOrIsDropped := by
  intro s offset bytes rest hwf hp
  refine ⟨fun hlow hhigh => ?_, fun hout => ?_⟩
  · exact ⟨_, (step_of_pending hwf hp).trans (perform_writeMem_of_writable hlow hhigh), rfl,
      State.byteAt_writeBytes offset bytes⟩
  · exact (step_of_pending hwf hp).trans (perform_writeMem_of_not_writable hout)

/-- Settles O45: in range the reply is a function of the arena and the free values, and a read
changes neither, so a second one gives the same reply; out of range only the reply and the count of
stray reads change. -/
theorem hostArenaRead : Obligations.HostArenaRead := by
  intro s offset count rest hwf hp
  refine ⟨fun hin => ?_, fun hout => ?_⟩
  · refine ⟨_, (step_of_pending hwf hp).trans (perform_readMem_of_inRange hin), rfl,
      fun j _ b hb => State.hostByte_of_some hb, ?_⟩
    rintro rest' rfl
    exact Eq.trans (step_of_pending hwf rfl) (perform_readMem_of_inRange hin)
  · exact ⟨_, by simp, (step_of_pending hwf hp).trans (perform_readMem_of_outOfRange hout)⟩

end Sys2Proof
end

section
/-! Issuing a descriptor (60_exceptions.md R281), and the descriptor of a table word
(30_encoding.md R90). -/

namespace Sys2Proof

/-- A word of a descriptor needs only the 192 bits of R90. -/
theorem ofNat_mod_div_eq (n : Nat) {k : Nat} (hk : k + 32 ≤ 192) :
    BitVec.ofNat 32 (n % 2 ^ 192 / 2 ^ k) = BitVec.ofNat 32 (n / 2 ^ k) := by
  apply BitVec.eq_of_toNat_eq
  have hsplit : 2 ^ 192 = 2 ^ k * 2 ^ (192 - k) := by rw [← pow_add]; congr 1; omega
  rw [BitVec.toNat_ofNat, BitVec.toNat_ofNat, hsplit, Nat.mod_mul_right_div_self,
    Nat.mod_mod_of_dvd _ (pow_dvd_pow 2 (by omega))]

theorem Descriptor.ofNat_mod (n : Nat) : Descriptor.ofNat (n % 2 ^ 192) = Descriptor.ofNat n := by
  have hword := @ofNat_mod_div_eq n
  have hword0 := hword (k := 0) (by omega)
  simp only [pow_zero, Nat.div_one] at hword0
  unfold Descriptor.ofNat
  rw [hword0, hword (by omega), hword (by omega), hword (by omega), hword (by omega),
    hword (by omega)]

/-- A command read from the 24 bytes of a number is the one its descriptor decodes to. -/
theorem decode_of_decodeBytes {n : Nat} {i : Instr} {rest : List Byte}
    (h : decodeBytes (bytesOf 24 n) = .ok (i, rest)) : decode (Descriptor.ofNat n) = .ok i := by
  have hlen := length_bytesOf 24 n
  have hval : leNat (bytesOf 24 n) = n % 2 ^ 192 := leNat_bytesOf 24 n
  unfold decodeBytes at h
  rw [if_neg (by omega), List.take_of_length_le hlen.le, hval, Descriptor.ofNat_mod] at h
  split at h
  · rename_i j hj
    cases h
    exact hj
  · cases h

theorem decode_of_decodeTableWord {nbits w : Nat} {i : Instr}
    (h : decodeTableWord nbits w = some i) :
    decode (Descriptor.ofNat (w % 2 ^ nbits)) = .ok i := by
  unfold decodeTableWord at h
  split at h
  · rename_i j rest hj
    cases h
    exact decode_of_decodeBytes hj
  · cases h

namespace Machine

/-- R287: while faulted every command is ignored. -/
theorem exec_of_faulted {s : State} (hf : s.faulted = true) (i : Instr) : exec i s = .next s := by
  obtain ⟨body, hbody⟩ := exec_is_command i s
  rw [hbody]
  exact if_pos hf

/-- R281: a descriptor that decodes runs as its command, faulted or not. -/
theorem issue_of_decode {d : Descriptor} {i : Instr} (hd : decode d = .ok i) (s : State) :
    issue d s = exec i s := by
  unfold issue
  cases hf : s.faulted with
  | true => exact (exec_of_faulted hf i).symm
  | false => simp [hd]

/-- R72: the step whose action issues a decodable descriptor runs its command. -/
theorem step_of_issue {s : State} {d : Descriptor} {rest : List HostAction} {i : Instr}
    (hwf : s.cfg.wf = true) (hp : s.pending = .issue d :: rest) (hd : decode d = .ok i) :
    step s = exec i { s with pending := rest } :=
  (step_of_pending hwf hp).trans (issue_of_decode hd _)

end Machine

open Machine

/-- Settles O5: a step performs the issue, which runs the decoded command; a table word is placed as
the descriptor that its bytes decode as. -/
theorem stepRunsTheDecodedCommand : Obligations.StepRunsTheDecodedCommand := by
  refine ⟨fun s d rest i hwf hp hd => step_of_issue hwf hp hd, fun s nbits w i hwf h => ?_⟩
  exact step_of_issue (s := s.withFetchWord nbits w) hwf rfl (decode_of_decodeTableWord h)

end Sys2Proof
end

section
/-! The decoder and the encoder (30_encoding.md R90 to R98): the decoder is read once, opcode by
opcode, against the clauses of R97 as `WellFormed.lean` writes them. -/

namespace Sys2Proof

/-- R97 (b) to (d): the last checks let a command through exactly where all three hold. -/
theorem finishDecode_eq_ok {w : Word} {ctxOk unusedOk : Bool} {i j : Instr} :
    finishDecode w ctxOk unusedOk i = .ok j ↔
      w.extractLsb' 9 23 = 0#23 ∧ ctxOk = true ∧ unusedOk = true ∧ i = j := by
  unfold finishDecode
  by_cases hres : w.extractLsb' 9 23 = 0#23 <;> cases ctxOk <;> cases unusedOk <;> simp [hres]

namespace Descriptor

variable {d : Descriptor}

theorem toNat_opcode_bits (d : Descriptor) : (d.w0.extractLsb' 0 8).toNat = d.opcode := by
  simp [opcode]

/-- R92: `ctx` 1 is S. -/
theorem ctx_bit (d : Descriptor) : d.w0.getLsbD 8 = (d.ctx == .S) := by
  unfold ctx
  rw [BitVec.getLsbD, Nat.testBit_eq_decide_div_mod_eq]
  rcases Nat.mod_two_eq_zero_or_one (d.w0.toNat / 2 ^ 8) with h | h <;> simp_all

theorem reservedZero_iff : d.reservedZero = true ↔ d.w0.extractLsb' 9 23 = 0#23 := by
  have hlt := d.w0.isLt
  have hbits : (d.w0.extractLsb' 9 23).toNat = d.reserved := by
    simp [reserved, Nat.shiftRight_eq_div_pow]
    omega
  rw [← BitVec.toNat_inj, hbits]
  simp [reservedZero]

/-- R91: with the reserved bits zero, `W0` is the opcode and the context. -/
theorem w0_eq (h : d.reservedZero = true) : d.w0 = word0 d.opcode d.ctx := by
  have hres : d.w0.toNat / 512 = 0 := by simpa [reservedZero, reserved] using h
  apply BitVec.eq_of_toNat_eq
  unfold ctx opcode
  split <;> simp [word0] <;> omega

/-- A descriptor in its fields, where the reserved one is zero. -/
theorem eq_fields (h : d.reservedZero = true) :
    d = ⟨word0 d.opcode d.ctx, d.w1, d.w2, d.w3, d.w4, d.w5⟩ := by rw [← w0_eq h]

end Descriptor

theorem Ctx.ite_eq_S (X : Ctx) : (if X = .S then Ctx.S else Ctx.F) = X := by cases X <;> rfl

theorem Ctx.not_beq_S (X : Ctx) : (!(X == .S)) = (X == .F) := by cases X <;> rfl

theorem finishDecode_congr {w : Word} {ctxOk ctxOk' unusedOk unusedOk' : Bool} (i : Instr)
    (hc : ctxOk = ctxOk') (hu : unusedOk = unusedOk') :
    finishDecode w ctxOk unusedOk i = finishDecode w ctxOk' unusedOk' i := by rw [hc, hu]

/-- What the decoder answers, said once for every opcode. -/
theorem decode_cases (d : Descriptor) :
    d.opcodeAssigned = false ∧ decode d = .error .unassignedOpcode ∨
    d.opcodeAssigned = true ∧ ∃ i, decode d = finishDecode d.w0 d.contextOk d.unusedZero i ∧
      (d.reservedZero = true → d.contextOk = true → d.unusedZero = true → d = encode i) := by
  unfold decode
  simp only [d.ctx_bit, d.toNat_opcode_bits, beq_iff_eq, Ctx.ite_eq_S, Ctx.not_beq_S]
  split
  case h_26 =>
    refine .inl ⟨?_, rfl⟩
    simp only [imp_false] at *
    simp [Descriptor.opcodeAssigned]
    omega
  all_goals
    rename_i hop
    refine .inr ⟨by simp [Descriptor.opcodeAssigned, hop], _, finishDecode_congr _ ?_ ?_,
      fun hres hctx hun => (Descriptor.eq_fields hres).trans ?_⟩
    · simp [Descriptor.contextOk, hop]
    · simp [Descriptor.unusedZero, Descriptor.operandCount, hop]
    · simp_all [Descriptor.contextOk, Descriptor.unusedZero, Descriptor.operandCount, encode]

theorem Descriptor.legal_iff {d : Descriptor} : d.legal = true ↔
    d.opcodeAssigned = true ∧ d.reservedZero = true ∧ d.contextOk = true ∧ d.unusedZero = true := by
  simp only [Descriptor.legal, Bool.and_eq_true, and_assoc]

/-- R97: the decoder accepts a legal descriptor. -/
theorem exists_decode_of_legal {d : Descriptor} (h : d.legal = true) : ∃ i, decode d = .ok i := by
  obtain ⟨hop, hres, hctx, hun⟩ := Descriptor.legal_iff.1 h
  rcases decode_cases d with ⟨hno, -⟩ | ⟨-, i, hdec, -⟩
  · rw [hno] at hop; contradiction
  · refine ⟨i, hdec.trans (finishDecode_eq_ok.2 ?_)⟩
    exact ⟨Descriptor.reservedZero_iff.1 hres, hctx, hun, rfl⟩

/-- The decoder accepts nothing but a legal descriptor that encodes the command it answers. -/
theorem legal_and_eq_encode_of_decode {d : Descriptor} {i : Instr} (h : decode d = .ok i) :
    d.legal = true ∧ d = encode i := by
  rcases decode_cases d with ⟨-, hno⟩ | ⟨hop, j, hdec, henc⟩
  · rw [hno] at h; contradiction
  · obtain ⟨hbits, hctx, hun, rfl⟩ := finishDecode_eq_ok.1 (hdec.symm.trans h)
    have hres := Descriptor.reservedZero_iff.2 hbits
    exact ⟨Descriptor.legal_iff.2 ⟨hop, hres, hctx, hun⟩, henc hres hctx hun⟩

section Word0

variable {op : Nat} (X : Ctx)

theorem opcode_bits_word0 (h : op < 256) : ((word0 op X).extractLsb' 0 8).toNat = op := by
  cases X <;> simp [word0] <;> omega

theorem ctx_bit_word0 (h : op < 256) : (word0 op X).getLsbD 8 = (X == .S) := by
  have hF : op % 2 ^ 32 / 256 % 2 = 0 := by omega
  have hS : (op + 256) % 2 ^ 32 / 256 % 2 = 1 := by omega
  cases X <;> simp_all [word0, BitVec.getLsbD, Nat.testBit_eq_decide_div_mod_eq]

theorem reserved_bits_word0 (h : op < 256) : (word0 op X).extractLsb' 9 23 = 0#23 := by
  apply BitVec.eq_of_toNat_eq
  cases X <;> simp [word0, Nat.shiftRight_eq_div_pow] <;> omega

end Word0

/-- R91, R94: the encoder's descriptor of a command decodes to that command. -/
theorem decode_encode (i : Instr) : decode (encode i) = .ok i := by
  cases i <;>
    simp only [decode, encode, opcode_bits_word0, ctx_bit_word0, Nat.reduceLT] <;>
    simp [finishDecode, reserved_bits_word0, Ctx.ite_eq_S]

/-- Settles O2: an accepted descriptor encodes its command, and the encoder's descriptors are
accepted. -/
theorem decodeAcceptsExactlyEncodings : Obligations.DecodeAcceptsExactlyEncodings :=
  fun _ i => ⟨fun h => (legal_and_eq_encode_of_decode h).2, fun h => h ▸ decode_encode i⟩

theorem leNat_append (xs ys : List Byte) :
    leNat (xs ++ ys) = leNat xs + 256 ^ xs.length * leNat ys := by
  induction xs with
  | nil => simp [leNat]
  | cons x xs ih => simp only [List.cons_append, leNat, ih, List.length_cons, pow_succ]; ring

/-- R90: the four bytes of a word stand for it. -/
theorem leNat_bytesOf_word (w : Word) : leNat (bytesOf 4 w.toNat) = w.toNat := by
  rw [leNat_bytesOf]
  exact Nat.mod_eq_of_lt w.isLt

namespace Descriptor

theorem length_bytes (d : Descriptor) : d.bytes.length = 24 := by simp [bytes]

/-- R90: a descriptor is read back from its 24 bytes. -/
theorem ofNat_leNat_bytes (d : Descriptor) : Descriptor.ofNat (leNat d.bytes) = d := by
  obtain ⟨w0, w1, w2, w3, w4, w5⟩ := d
  have hval : leNat (bytes ⟨w0, w1, w2, w3, w4, w5⟩) = w0.toNat + 2 ^ 32 * (w1.toNat + 2 ^ 32 *
      (w2.toNat + 2 ^ 32 * (w3.toNat + 2 ^ 32 * (w4.toNat + 2 ^ 32 * w5.toNat)))) := by
    simp [bytes, leNat_append, leNat_bytesOf_word]
  have hw : ∀ w : Word, w.toNat < 2 ^ 32 := fun w => w.isLt
  have h0 := hw w0
  have h1 := hw w1
  have h2 := hw w2
  have h3 := hw w3
  have h4 := hw w4
  have h5 := hw w5
  rw [hval]
  simp only [ofNat, mk.injEq]
  refine ⟨?_, ?_, ?_, ?_, ?_, ?_⟩ <;> apply BitVec.eq_of_toNat_eq <;> simp <;> omega

end Descriptor

/-- R90: the decoder reads a descriptor's 24 bytes as the descriptor, and leaves the rest. -/
theorem decodeBytes_append {d : Descriptor} {i : Instr} (h : decode d = .ok i) (rest : List Byte) :
    decodeBytes (d.bytes ++ rest) = .ok (i, rest) := by
  have hlen := d.length_bytes
  have htake : (d.bytes ++ rest).take 24 = d.bytes := List.take_left' hlen
  have hdrop : (d.bytes ++ rest).drop 24 = rest := List.drop_left' hlen
  unfold decodeBytes
  rw [if_neg (by simp [hlen]), htake, hdrop, d.ofNat_leNat_bytes, h]

/-- Settles O1: the bytes are read as the encoder's descriptor, which decodes to the command. -/
theorem decodeBytesOfEncodeBytes : Obligations.DecodeBytesOfEncodeBytes :=
  fun i rest => decodeBytes_append (decode_encode i) rest

/-- Settles O3: each legal word is the encoding of its command; each illegal one breaks the clause
of R97 that its error names. -/
theorem specWordsDecode : Obligations.SpecWordsDecode :=
  ⟨decode_encode (.mul .F 184 176 32), decode_encode (.add .F 178 176 2000),
    decode_encode (.copy .S 172 0), decode_encode (.sqrt .F 160 200 24),
    decode_encode (.fromPacked .F 2 1021 2), decode_encode (.toPacked .F 175 24 1),
    decode_encode (.batchinv .F 1028 1024 0), rfl, rfl, rfl, rfl⟩

namespace Machine

/-- R97: an illegal descriptor takes its fault. -/
theorem issue_of_illegal {s : State} {d : Descriptor} (hf : s.faulted = false)
    (hd : d.legal = false) : issue d s = .next (s.raise .illegalCommand d.w0.toNat) := by
  unfold issue
  rw [hf]
  cases hdec : decode d with
  | error r => rfl
  | ok i =>
    rw [(legal_and_eq_encode_of_decode hdec).1] at hd
    contradiction

end Machine

/-- Settles O4: the decoder accepts exactly the legal descriptors (R97). -/
theorem illegalDescriptorsFault : Obligations.IllegalDescriptorsFault := by
  refine ⟨fun s d hf hd => ?_, fun d hd => ?_, rfl⟩
  · rw [Machine.issue_of_illegal hf hd, Machine.State.raise, BitVec.ofNat_toNat,
      BitVec.setWidth_eq]
    rfl
  · obtain ⟨i, hdec⟩ := exists_decode_of_legal hd
    exact ⟨i, hdec, Machine.issue_of_decode hdec⟩

end Sys2Proof
end

section
/-! The arithmetic commands on stored numbers (40_field_engine.md R125 to R129,
41_montgomery_multiplier.md R151): each lays one number at its `out`, said once for programs of
several commands to be read command by command. -/

namespace Sys2Proof.Machine

section Ready

variable {s : State}

theorem State.Ready.wf (h : s.Ready) : s.cfg.wf = true := h.1.1

theorem State.Ready.inRange (h : s.Ready) : Memory.inRange s.cfg s.mem = true := h.1.2.2.1

end Ready

/-- `t` is a ready state that differs from `s` by the number `v` stored at `a` and by nothing
else. -/
structure State.Lays (s : State) (X : Ctx) (a v : Nat) (t : State) : Prop where
  ready : t.Ready
  lt_radix : v < s.cfg.radix X
  frame : t = { s with mem := t.mem }
  byteAt_eq : t.byteAt = withElem s.cfg X a v s.byteAt

namespace State.Lays

variable {s t r : State} {X : Ctx} {a v : Nat}

theorem cfg_eq (h : s.Lays X a v t) : t.cfg = s.cfg := by rw [h.frame]

theorem cb_eq (h : s.Lays X a v t) : t.cb = s.cb := by rw [h.frame]

/-- The stored number is read back. -/
theorem holds (h : s.Lays X a v t) : t.HoldsElem X a v := by
  refine ⟨h.cfg_eq ▸ h.lt_radix, fun i hi => ?_⟩
  rw [h.cfg_eq] at hi ⊢
  rw [h.byteAt_eq]
  exact withElem_hit _ _ _ _ _ hi

/-- An element apart from the stored one holds what it held. -/
theorem holds_of_apart {b u : Nat} (h : s.Lays X a v t) (hb : s.HoldsElem X b u)
    (hd : Apart a (s.cfg.elemBytes X) b (s.cfg.elemBytes X)) : t.HoldsElem X b u := by
  refine ⟨h.cfg_eq ▸ hb.1, fun i hi => ?_⟩
  rw [h.cfg_eq] at hi ⊢
  rw [h.byteAt_eq, withElem_miss _ _ _ _ _ (by omega)]
  exact hb.2 i hi

/-- Of two numbers stored at one place the second stays. -/
theorem trans {u : Nat} (h : s.Lays X a u t) (h' : t.Lays X a v r) : s.Lays X a v r := by
  refine ⟨h'.ready, h.cfg_eq ▸ h'.lt_radix, h'.frame.trans (by rw [h.frame]), ?_⟩
  rw [h'.byteAt_eq, h.cfg_eq, h.byteAt_eq]
  funext x
  unfold withElem
  split <;> rfl

end State.Lays

section Limbs

variable {w n a b : Nat}

/-- R13: a limb array is the limbs of its number. -/
theorem eq_limbsOf {xs : List Nat} (hl : xs.length = n) (hx : ∀ x ∈ xs, x < 2 ^ w) :
    xs = limbsOf w n (limbsVal w xs) := by rw [← hl, limbsOf_limbsVal w xs hx]

theorem limbsVal_limbsOf_of_lt (ha : a < 2 ^ (n * w)) : limbsVal w (limbsOf w n a) = a := by
  rw [limbsVal_limbsOf, Nat.mod_eq_of_lt ha]

/-- The limb loop of ADD on the limbs of two numbers (R125). -/
theorem addLimbs_limbsOf (ha : a < 2 ^ (n * w)) (hb : b < 2 ^ (n * w)) :
    addLimbs w (limbsOf w n a) (limbsOf w n b) 0 =
      (limbsOf w n ((a + b) % 2 ^ (n * w)), (a + b) / 2 ^ (n * w)) := by
  obtain ⟨hlen, hlt, -, hsum⟩ := addLimbs_spec w (limbsOf w n a) (limbsOf w n b) 0 (by simp)
    (fun _ => limbsOf_lt _ _ _ _) (fun _ => limbsOf_lt _ _ _ _) (by omega)
  rw [length_limbsOf] at hlen hsum
  rw [limbsVal_limbsOf_of_lt ha, limbsVal_limbsOf_of_lt hb, Nat.add_zero] at hsum
  have hval := limbsVal_lt w _ hlt
  rw [hlen] at hval
  refine Prod.ext ((eq_limbsOf hlen hlt).trans ?_) ?_
  · rw [← hsum, Nat.add_mul_mod_self_left, Nat.mod_eq_of_lt hval]
  · rw [← hsum, Nat.add_mul_div_left _ _ (by positivity), Nat.div_eq_of_lt hval, zero_add]

/-- The loop of REDUCE on the limbs of a number below four moduli (R128). -/
theorem reduceLimbs_limbsOf {p : Nat} (ha : a < 2 ^ (n * w)) (hp : p < 2 ^ (n * w))
    (h4 : a < 4 * p) :
    reduceLimbs w (limbsOf w n p) 4 (limbsOf w n a) = limbsOf w n (a % p) := by
  have hva := limbsVal_limbsOf_of_lt ha
  have hvp := limbsVal_limbsOf_of_lt hp
  obtain ⟨hlen, hlt, hval⟩ := reduceLimbs_spec w (limbsOf w n p) 3 (limbsOf w n a) (by simp)
    (fun _ => limbsOf_lt _ _ _ _) (fun _ => limbsOf_lt _ _ _ _) (by rw [hva, hvp]; exact h4)
  rw [hva, hvp] at hval
  rw [length_limbsOf] at hlen
  exact (eq_limbsOf hlen hlt).trans (by rw [hval])

end Limbs

section Commands

variable {s r : State} {X : Ctx} {i : Instr} {out x y : Word} {vx vy v a e : Nat}

/-- A command that stores one number keeps the machine ready. -/
theorem lays_of_exec (hs : s.Ready) (hr : r.faulted = false) (hv : v < r.cfg.radix X)
    (h : exec i s = .next (r.writeElem X a v)) :
    ∃ t, exec i s = .next t ∧ r.Lays X a v t :=
  ⟨_, h, ⟨(exec_keeps_inv hs.1 h).1, hr⟩, hv, r.writeElem_frame X a v, r.byteAt_writeElem X a v⟩

/-- The checks of R289 pass for `out` and two inputs. -/
theorem faultOf_eq_none_of_three (hl : lengthFault s.cfg i = none) (ha : allocFault s i = none)
    (ho : operandsOf s.cfg i = [outElem s.cfg X out, inElem s.cfg X x, inElem s.cfg X y])
    (hout : s.cfg.Writable out.toNat (s.cfg.elemBytes X))
    (hx : s.cfg.Readable x.toNat (s.cfg.elemBytes X))
    (hy : s.cfg.Readable y.toNat (s.cfg.elemBytes X)) : faultOf s i = none := by
  refine faultOf_eq_none hl ha ?_
  rw [ho]
  simp only [List.forall_mem_cons, List.not_mem_nil, false_imp_iff, implies_true, and_true]
  exact ⟨Operand.write_ok hout, Operand.read_ok hx, Operand.read_ok hy⟩

/-- ADD (R125): the sum modulo `R`, the carry in `CB`. -/
theorem exec_add (hs : s.Ready) (hout : s.cfg.Writable out.toNat (s.cfg.elemBytes X))
    (hx : s.cfg.Readable x.toNat (s.cfg.elemBytes X))
    (hy : s.cfg.Readable y.toNat (s.cfg.elemBytes X))
    (hvx : s.HoldsElem X x.toNat vx) (hvy : s.HoldsElem X y.toNat vy) :
    ∃ t, exec (.add X out x y) s = .next t ∧
      (s.setCb ((vx + vy) / s.cfg.radix X == 1)).Lays X out.toNat ((vx + vy) % s.cfg.radix X) t := by
  have hw := Config.limbBits_le hs.wf X
  refine lays_of_exec hs hs.2 (Nat.mod_lt _ (Config.radix_pos _ _)) ?_
  refine State.command_of_ok hs.2 (faultOf_eq_none_of_three rfl rfl rfl hout hx hy) ?_
  rw [State.readLimbs_of_holds hw hvx, State.readLimbs_of_holds hw hvy, ok_bind, ok_bind,
    addLimbs_limbsOf hvx.1 hvy.1]
  rfl

/-- SUBPOS (R127): the difference of `x >= y`. -/
theorem exec_subpos (hs : s.Ready) (hout : s.cfg.Writable out.toNat (s.cfg.elemBytes X))
    (hx : s.cfg.Readable x.toNat (s.cfg.elemBytes X))
    (hy : s.cfg.Readable y.toNat (s.cfg.elemBytes X))
    (hvx : s.HoldsElem X x.toNat vx) (hvy : s.HoldsElem X y.toNat vy) (hle : vy ≤ vx) :
    ∃ t, exec (.subpos X out x y) s = .next t ∧ s.Lays X out.toNat (vx - vy) t := by
  have hw := Config.limbBits_le hs.wf X
  refine lays_of_exec hs hs.2 (lt_of_le_of_lt (Nat.sub_le _ _) hvx.1) ?_
  refine State.command_of_ok hs.2 (faultOf_eq_none_of_three rfl rfl rfl hout hx hy) ?_
  rw [State.readElem_of_holds hw hvx, State.readElem_of_holds hw hvy, ok_bind, ok_bind,
    need_of (decide_eq_true hle), ok_bind]

/-- MUL (R151): the Montgomery product, below `2p`. -/
theorem exec_mul (hs : s.Ready) (hout : s.cfg.Writable out.toNat (s.cfg.elemBytes X))
    (hx : s.cfg.Readable x.toNat (s.cfg.elemBytes X))
    (hy : s.cfg.Readable y.toNat (s.cfg.elemBytes X))
    (hvx : s.HoldsElem X x.toNat vx) (hvy : s.HoldsElem X y.toNat vy)
    (hsum : vy + s.cfg.modulus X ≤ s.cfg.radix X)
    (hprod : vx * vy < s.cfg.modulus X * s.cfg.radix X) :
    ∃ t, exec (.mul X out x y) s = .next t ∧ s.Lays X out.toNat (s.cfg.mulValue X vx vy) t := by
  have hw := Config.limbBits_le hs.wf X
  have hlt := Config.mulValue_lt hs.wf hprod
  have hR := Config.two_modulus_lt_radix hs.wf X
  have hbound : mulBoundOk s.cfg X vx vy = true := by simp [mulBoundOk, hsum, hprod]
  refine lays_of_exec hs hs.2 (by omega) ?_
  refine State.command_of_ok hs.2 (faultOf_eq_none_of_three rfl rfl rfl hout hx hy) ?_
  rw [State.readElem_of_holds hw hvx, State.readElem_of_holds hw hvy, ok_bind, ok_bind,
    need_of hbound, ok_bind]

/-- REDUCE (R129): the residue of a number below `4p`, in place. -/
theorem exec_reduce (hs : s.Ready) (hx : s.cfg.Writable x.toNat (s.cfg.elemBytes X))
    (hvx : s.HoldsElem X x.toNat vx) (h4 : vx < 4 * s.cfg.modulus X) :
    ∃ t, exec (.reduce X x) s = .next t ∧ s.Lays X x.toNat (vx % s.cfg.modulus X) t := by
  have hw := Config.limbBits_le hs.wf X
  have hp : s.cfg.modulus X < s.cfg.radix X := Config.tableEntry_lt_radix hs.wf X 2
  have hentry : s.HoldsElem X (s.cfg.entryPtr X 2) (s.cfg.modulus X) :=
    State.holds_entry hs.wf hs.inRange (by omega) hp
  have hok : faultOf s (.reduce X x) = none := by
    refine faultOf_eq_none rfl rfl fun o ho => ?_
    rw [List.mem_singleton.1 ho]
    exact Operand.write_ok hx
  have hval := limbsVal_limbsOf_of_lt hvx.1
  refine lays_of_exec hs hs.2 ((Nat.mod_le _ _).trans_lt hvx.1) ?_
  refine State.command_of_ok hs.2 hok ?_
  rw [State.readLimbs_of_holds hw hvx, ok_bind, hval, need_of (decide_eq_true h4), ok_bind,
    State.readLimbs_of_holds hw hentry, ok_bind, reduceLimbs_limbsOf hvx.1 hp h4]
  rfl

/-- The operand word of a constant-table entry points at it (R99). -/
theorem toNat_entryWord {c : Config} (h : c.wf = true) (he : e < 11) :
    (entryWord c X e).toNat = c.entryPtr X e := by
  have hend := Config.entryPtr_add_le (c := c) he X
  have hpos := Config.elemBytes_pos h X
  have harena := Config.tableEnd_le_arena h
  have hle := Config.arena_le h
  unfold entryWord
  rw [BitVec.toNat_ofNat, Nat.mod_eq_of_lt (by omega)]

/-- A constant-table entry is an input every command may read. -/
theorem readable_entryWord {c : Config} (h : c.wf = true) (he : e < 11) :
    c.Readable (entryWord c X e).toNat (c.elemBytes X) := by
  rw [toNat_entryWord h he]
  exact ⟨Config.entryPtr_mod_four _ _ _,
    (Config.entryPtr_add_le he X).trans (Config.tableEnd_le_arena h)⟩

/-- A constant-table entry holds the number of R30. -/
theorem holds_entryWord (hs : s.Ready) (he : e < 11) :
    s.HoldsElem X (entryWord s.cfg X e).toNat (s.cfg.tableEntry X e) := by
  rw [toNat_entryWord hs.wf he]
  exact State.holds_entry hs.wf hs.inRange he (Config.tableEntry_lt_radix hs.wf X e)

end Commands

end Sys2Proof.Machine
end

section
/-! The pseudo-instructions as programs (30_encoding.md R100), and the Montgomery product as one
(41_montgomery_multiplier.md R157). -/

namespace Sys2Proof.Machine

section Programs

variable {s t u : State} {X : Ctx} {i : Instr} {is js : List Instr} {out x y : Word}
  {vx vy v e : Nat}

theorem execAll_cons (h : exec i s = .next t) : execAll (i :: is) s = execAll is t := by
  simp only [execAll, h]

theorem execAll_append (h : execAll is s = .next t) : execAll (is ++ js) s = execAll js t := by
  induction is generalizing s with
  | nil => cases h; rfl
  | cons i is ih =>
    rw [List.cons_append]
    simp only [execAll] at h ⊢
    cases hi : exec i s with
    | next u => rw [hi] at h; exact ih h
    | fault f => rw [hi] at h; cases h
    | refused r => rw [hi] at h; cases h

/-- A stored number below `4p` is replaced by its residue: the last command of every
pseudo-instruction (R100). -/
theorem State.Lays.reduce (h : s.Lays X x.toNat v t)
    (hx : s.cfg.Writable x.toNat (s.cfg.elemBytes X)) (h4 : v < 4 * s.cfg.modulus X) :
    ∃ u, execAll [.reduce X x] t = .next u ∧ s.Lays X x.toNat (v % s.cfg.modulus X) u := by
  rw [← h.cfg_eq] at hx h4
  obtain ⟨u, hu, hlays⟩ := exec_reduce h.ready hx h.holds h4
  rw [h.cfg_eq] at hlays
  exact ⟨u, execAll_cons hu, h.trans hlays⟩

/-- ADD without a carry (R125). -/
theorem exec_add_of_lt (hs : s.Ready) (hout : s.cfg.Writable out.toNat (s.cfg.elemBytes X))
    (hx : s.cfg.Readable x.toNat (s.cfg.elemBytes X))
    (hy : s.cfg.Readable y.toNat (s.cfg.elemBytes X))
    (hvx : s.HoldsElem X x.toNat vx) (hvy : s.HoldsElem X y.toNat vy)
    (hlt : vx + vy < s.cfg.radix X) :
    ∃ t, exec (.add X out x y) s = .next t ∧
      (s.setCb false).Lays X out.toNat (vx + vy) t := by
  have hadd := exec_add hs hout hx hy hvx hvy
  rwa [Nat.div_eq_of_lt hlt, Nat.mod_eq_of_lt hlt] at hadd

/-- MODADD (R100): the residue of the sum, without a carry. -/
theorem execAll_modadd (hs : s.Ready) (hout : s.cfg.Writable out.toNat (s.cfg.elemBytes X))
    (hx : s.cfg.Readable x.toNat (s.cfg.elemBytes X))
    (hy : s.cfg.Readable y.toNat (s.cfg.elemBytes X))
    (hvx : s.HoldsElem X x.toNat vx) (hvy : s.HoldsElem X y.toNat vy)
    (hlt : vx + vy < s.cfg.radix X) (h4 : vx + vy < 4 * s.cfg.modulus X) :
    ∃ t, execAll (modadd X out x y) s = .next t ∧
      (s.setCb false).Lays X out.toNat ((vx + vy) % s.cfg.modulus X) t := by
  obtain ⟨t, ht, hadd⟩ := exec_add_of_lt hs hout hx hy hvx hvy hlt
  obtain ⟨u, hu, hred⟩ := hadd.reduce hout h4
  exact ⟨u, (execAll_cons ht).trans hu, hred⟩

/-- MODSUB (R100): the residue of the difference, without a carry, where `out` does not overlap
`y`. -/
theorem execAll_modsub (hs : s.Ready) (hout : s.cfg.Writable out.toNat (s.cfg.elemBytes X))
    (hx : s.cfg.Readable x.toNat (s.cfg.elemBytes X))
    (hy : s.cfg.Readable y.toNat (s.cfg.elemBytes X))
    (hvx : s.HoldsElem X x.toNat vx) (hvy : s.HoldsElem X y.toNat vy)
    (hapart : Apart out.toNat (s.cfg.elemBytes X) y.toNat (s.cfg.elemBytes X))
    (hlt : vx + s.cfg.modulus X < s.cfg.radix X) (hle : vy ≤ vx + s.cfg.modulus X)
    (h4 : vx + s.cfg.modulus X - vy < 4 * s.cfg.modulus X) :
    ∃ t, execAll (modsub s.cfg X out x y) s = .next t ∧
      (s.setCb false).Lays X out.toNat ((vx + s.cfg.modulus X - vy) % s.cfg.modulus X) t := by
  obtain ⟨t, ht, hadd⟩ := exec_add_of_lt hs hout hx (readable_entryWord hs.wf (by omega)) hvx
    (holds_entryWord (e := 2) hs (by omega)) hlt
  have hcfg : t.cfg = s.cfg := hadd.cfg_eq
  have hvy' := hadd.holds_of_apart hvy hapart
  obtain ⟨u, hu, hsub⟩ := exec_subpos (X := X) (out := out) (x := out) (y := y) hadd.ready
    (hcfg ▸ hout) (hcfg ▸ ⟨hout.1, hout.2.1⟩) (hcfg ▸ hy) hadd.holds hvy' hle
  obtain ⟨r, hr, hred⟩ := (hadd.trans hsub).reduce hout h4
  exact ⟨r, (execAll_cons ht).trans ((execAll_cons hu).trans hr), hred⟩

/-- The expansion that TOMONT and FROMMONT share (R100): the Montgomery product with a table entry,
reduced. -/
theorem execAll_mul_entry_reduce (hs : s.Ready)
    (hout : s.cfg.Writable out.toNat (s.cfg.elemBytes X))
    (hx : s.cfg.Readable x.toNat (s.cfg.elemBytes X)) (hv : s.HoldsElem X x.toNat v)
    (he : e < 11) (hP : e ≠ 2) :
    ∃ t, execAll [.mul X out x (entryWord s.cfg X e), .reduce X out] s = .next t ∧
      s.Lays X out.toNat (s.cfg.fmul X v (s.cfg.tableEntry X e)) t := by
  have hlt := Config.tableEntry_lt_modulus hs.wf X hP
  have hR := Config.two_modulus_lt_radix hs.wf X
  have hprod : v * s.cfg.tableEntry X e < s.cfg.modulus X * s.cfg.radix X := by
    rw [mul_comm (s.cfg.modulus X)]
    exact Nat.mul_lt_mul'' hv.1 hlt
  have hbound := Config.mulValue_lt hs.wf hprod
  obtain ⟨t, ht, hmul⟩ := exec_mul hs hout hx (readable_entryWord hs.wf he) hv
    (holds_entryWord hs he) (by omega) hprod
  obtain ⟨u, hu, hred⟩ := hmul.reduce hout (by omega)
  rw [← Config.canon_eq_mod hbound] at hred
  exact ⟨u, (execAll_cons ht).trans hu, hred⟩

end Programs

end Sys2Proof.Machine

namespace Sys2Proof

namespace Config

variable {c : Config} {X : Ctx} {v : Nat}

/-- R14: multiplying by R2 gives the Montgomery form. -/
theorem fmul_r2 (h : c.wf = true) (hv : v < c.radix X) :
    c.fmul X v (c.tableEntry X 4) = c.mont X v := by
  have hlt := tableEntry_lt_modulus h X (e := 4) (by omega)
  have hprod : v * c.tableEntry X 4 < c.modulus X * c.radix X := by
    rw [mul_comm (c.modulus X)]
    exact Nat.mul_lt_mul'' hv hlt
  refine eq_of_radix h (canon_lt (mulValue_lt h hprod)) (mont_lt h X v) ?_
  calc c.fmul X v (c.tableEntry X 4) * c.radix X
      ≡ v * c.tableEntry X 4 [MOD c.modulus X] := fmul_mul_radix h hprod
    _ ≡ v * (c.radix X * c.radix X) [MOD c.modulus X] := (Nat.mod_modEq _ _).mul_left _
    _ = v * c.radix X * c.radix X := by ring
    _ ≡ c.mont X v * c.radix X [MOD c.modulus X] := (Nat.mod_modEq _ _).symm.mul_right _

theorem mul_one_lt (h : c.wf = true) (hv : v < c.radix X) :
    v * 1 < c.modulus X * c.radix X := by
  have hp := modulus_pos h X
  rw [mul_one]
  exact hv.trans_le (Nat.le_mul_of_pos_left _ hp)

theorem fmul_one_lt (h : c.wf = true) (hv : v < c.radix X) : c.fmul X v 1 < c.modulus X :=
  canon_lt (mulValue_lt h (mul_one_lt h hv))

/-- Multiplying by 1 takes the radix out. -/
theorem fmul_one_mul_radix (h : c.wf = true) (hv : v < c.radix X) :
    c.fmul X v 1 * c.radix X ≡ v [MOD c.modulus X] := by
  have hmul := fmul_mul_radix h (mul_one_lt h hv)
  rwa [mul_one] at hmul

/-- The product of two Montgomery forms, taken out of Montgomery form (R157). -/
theorem fmul_one_mulValue_mont (h : c.wf = true) (u v : Nat) :
    c.fmul X (c.mulValue X (c.mont X u) (c.mont X v)) 1 = u * v % c.modulus X := by
  have hprod := mul_lt_of_canonical h (mont_lt h X u) (mont_lt h X v)
  have hR := two_modulus_lt_radix h X
  have hlt := mulValue_lt h hprod
  refine eq_of_radix h (fmul_one_lt h (by omega)) (Nat.mod_lt _ (modulus_pos h X)) ?_
  calc c.fmul X (c.mulValue X (c.mont X u) (c.mont X v)) 1 * c.radix X
      ≡ c.mulValue X (c.mont X u) (c.mont X v) [MOD c.modulus X] :=
        fmul_one_mul_radix h (by omega)
    _ ≡ c.fmul X (c.mont X u) (c.mont X v) [MOD c.modulus X] := by
        unfold fmul
        rw [canon_eq_mod hlt]
        exact (Nat.mod_modEq _ _).symm
    _ = c.mont X (u * v) := fmul_mont h u v
    _ ≡ u * v * c.radix X [MOD c.modulus X] := Nat.mod_modEq _ _
    _ ≡ u * v % c.modulus X * c.radix X [MOD c.modulus X] := (Nat.mod_modEq _ _).symm.mul_right _

end Config

namespace Machine

variable {s : State} {X : Ctx} {out x : Word} {v : Nat}

/-- TOMONT (R100): the Montgomery form. -/
theorem execAll_tomont (hs : s.Ready) (hout : s.cfg.Writable out.toNat (s.cfg.elemBytes X))
    (hx : s.cfg.Readable x.toNat (s.cfg.elemBytes X)) (hv : s.HoldsElem X x.toNat v) :
    ∃ t, execAll (tomont s.cfg X out x) s = .next t ∧ s.Lays X out.toNat (s.cfg.mont X v) t := by
  rw [← Config.fmul_r2 hs.wf hv.1]
  exact execAll_mul_entry_reduce hs hout hx hv (by omega) (by omega)

/-- FROMMONT (R100): the Montgomery product with ONE. -/
theorem execAll_frommont (hs : s.Ready) (hout : s.cfg.Writable out.toNat (s.cfg.elemBytes X))
    (hx : s.cfg.Readable x.toNat (s.cfg.elemBytes X)) (hv : s.HoldsElem X x.toNat v) :
    ∃ t, execAll (frommont s.cfg X out x) s = .next t ∧ s.Lays X out.toNat (s.cfg.fmul X v 1) t :=
  execAll_mul_entry_reduce hs hout hx hv (by omega) (by omega)

end Machine

open Machine

/-- Settles O58: each expansion lays the residue at `out` in the state with `CB` cleared; MODDBL is
MODADD of an operand with itself. -/
theorem modularAddSubDouble : Obligations.ModularAddSubDouble := by
  intro s X out x y vx vy hs hout hx hy hvx hvy
  refine ⟨fun hlt h4 => ?_, fun hlt h4 => ?_, fun hapart hlt hle h4 => ?_⟩
  · obtain ⟨t, ht, hlays⟩ := execAll_modadd hs hout hx hy hvx hvy hlt h4
    exact ⟨t, ht, hlays.cb_eq, hlays.holds⟩
  · rw [two_mul] at hlt h4 ⊢
    obtain ⟨t, ht, hlays⟩ := execAll_modadd hs hout hx hx hvx hvx hlt h4
    exact ⟨t, ht, hlays.cb_eq, hlays.holds⟩
  · obtain ⟨t, ht, hlays⟩ := execAll_modsub hs hout hx hy hvx hvy hapart hlt hle h4
    exact ⟨t, ht, hlays.cb_eq, hlays.holds⟩

section Product

variable {s : State} {X : Ctx} {a b x y : Word} {vx vy : Nat}

/-- MUL of two Montgomery forms and FROMMONT: the product of the represented values (R157). -/
theorem execAll_mul_frommont (hs : s.Ready) (ha : s.cfg.Writable a.toNat (s.cfg.elemBytes X))
    (hb : s.cfg.Readable b.toNat (s.cfg.elemBytes X))
    (hva : s.HoldsElem X a.toNat (s.cfg.mont X vx)) (hvb : s.HoldsElem X b.toNat (s.cfg.mont X vy)) :
    ∃ t, execAll (.mul X a a b :: frommont s.cfg X a a) s = .next t ∧
      s.Lays X a.toNat (vx * vy % s.cfg.modulus X) t := by
  have hxm := Config.mont_lt hs.wf X vx
  have hym := Config.mont_lt hs.wf X vy
  have hR := Config.two_modulus_lt_radix hs.wf X
  have har : s.cfg.Readable a.toNat (s.cfg.elemBytes X) := ⟨ha.1, ha.2.1⟩
  obtain ⟨t, ht, hmul⟩ := exec_mul hs ha har hb hva hvb (by omega)
    (Config.mul_lt_of_canonical hs.wf hxm hym)
  have hcfg := hmul.cfg_eq
  obtain ⟨u, hu, hfrom⟩ := execAll_frommont hmul.ready (hcfg ▸ ha) (hcfg ▸ har) hmul.holds
  rw [hcfg] at hu hfrom
  rw [Config.fmul_one_mulValue_mont hs.wf] at hfrom
  exact ⟨u, (execAll_cons ht).trans hu, hmul.trans hfrom⟩

/-- The program of the document's property (R157): both operands into Montgomery form, then their
product out of it. -/
theorem execAll_montgomery_product (hs : s.Ready)
    (ha : s.cfg.Writable a.toNat (s.cfg.elemBytes X))
    (hb : s.cfg.Writable b.toNat (s.cfg.elemBytes X))
    (hx : s.cfg.Readable x.toNat (s.cfg.elemBytes X))
    (hy : s.cfg.Readable y.toNat (s.cfg.elemBytes X))
    (hab : Apart a.toNat (s.cfg.elemBytes X) b.toNat (s.cfg.elemBytes X))
    (hay : Apart a.toNat (s.cfg.elemBytes X) y.toNat (s.cfg.elemBytes X))
    (hvx : s.HoldsElem X x.toNat vx) (hvy : s.HoldsElem X y.toNat vy) :
    ∃ t, execAll (tomont s.cfg X a x ++ tomont s.cfg X b y ++ [.mul X a a b] ++
        frommont s.cfg X a a) s = .next t ∧
      t.HoldsElem X a.toNat (vx * vy % s.cfg.modulus X) := by
  obtain ⟨t, ht, hlaysA⟩ := execAll_tomont hs ha hx hvx
  have hct := hlaysA.cfg_eq
  obtain ⟨u, hu, hlaysB⟩ := execAll_tomont hlaysA.ready (hct ▸ hb) (hct ▸ hy)
    (hlaysA.holds_of_apart hvy hay)
  rw [hct] at hu hlaysB
  have hcu : u.cfg = s.cfg := hlaysB.cfg_eq.trans hct
  have hbr : s.cfg.Readable b.toNat (s.cfg.elemBytes X) := ⟨hb.1, hb.2.1⟩
  have hva := hlaysB.holds_of_apart hlaysA.holds (hct ▸ hab.symm)
  obtain ⟨r, hr, hlays⟩ := execAll_mul_frommont hlaysB.ready (hcu ▸ ha) (hcu ▸ hbr) (hcu ▸ hva)
    (hcu ▸ hlaysB.holds)
  rw [hcu] at hr hlays
  refine ⟨r, ?_, hlays.holds⟩
  rw [List.append_assoc, List.append_assoc, execAll_append ht, execAll_append hu]
  exact hr

end Product

/-- Settles O59: TOMONT and FROMMONT each lay one number, and the program is read command by
command. -/
theorem montgomeryProductProgram : Obligations.MontgomeryProductProgram := by
  refine ⟨fun s X out x v hs hout hx hv => ⟨?_, ?_⟩, ?_⟩
  · obtain ⟨t, ht, hlays⟩ := execAll_tomont hs hout hx hv
    exact ⟨t, ht, hlays.frame, congrFun hlays.byteAt_eq⟩
  · obtain ⟨t, ht, hlays⟩ := execAll_frommont hs hout hx hv
    exact ⟨t, _, ht, hlays.frame, Config.fmul_one_lt hs.wf hv.1,
      Config.fmul_one_mul_radix hs.wf hv.1, congrFun hlays.byteAt_eq⟩
  · intro s X a b x y vx vy hs ha hb hx hy hab hay hvx hvy
    exact execAll_montgomery_product hs ha hb hx hy hab hay hvx hvy

end Sys2Proof
end

section
/-! The FieldEngine commands as results on stored numbers (40_field_engine.md R122 to R131): the
limb loops on the limbs of two numbers, the refusals, and SUB, COPY and the comparisons command by
command. -/

namespace Sys2Proof.Machine

section Limbs

variable {w n a b : Nat}

/-- The limb loop of SUB on the limbs of two numbers (R126): the two's-complement pattern of the
difference, and the borrow. -/
theorem subLimbs_limbsOf (ha : a < 2 ^ (n * w)) (hb : b < 2 ^ (n * w)) :
    subLimbs w (limbsOf w n a) (limbsOf w n b) 0 =
      (limbsOf w n (if a < b then 2 ^ (n * w) - (b - a) else a - b), if a < b then 1 else 0) := by
  obtain ⟨hlen, hlt, hbor, hdiff⟩ := subLimbs_spec w (limbsOf w n a) (limbsOf w n b) 0 (by simp)
    (fun _ => limbsOf_lt _ _ _ _) (fun _ => limbsOf_lt _ _ _ _) (by omega)
  rw [length_limbsOf] at hlen hdiff
  rw [limbsVal_limbsOf_of_lt ha, limbsVal_limbsOf_of_lt hb, Nat.add_zero] at hdiff
  have hval := limbsVal_lt w _ hlt
  rw [hlen] at hval
  obtain h0 | h1 := Nat.le_one_iff_eq_zero_or_eq_one.1 hbor
  · rw [h0] at hdiff
    rw [if_neg (by omega), if_neg (by omega)]
    exact Prod.ext ((eq_limbsOf hlen hlt).trans (congrArg _ (by omega))) h0
  · rw [h1] at hdiff
    rw [if_pos (by omega), if_pos (by omega)]
    exact Prod.ext ((eq_limbsOf hlen hlt).trans (congrArg _ (by omega))) h1

theorem zeroLimbs_limbsOf (ha : a < 2 ^ (n * w)) :
    zeroLimbs (limbsOf w n a) = decide (a = 0) := by
  rw [zeroLimbs_eq w, limbsVal_limbsOf_of_lt ha]

theorem equalLimbs_limbsOf (ha : a < 2 ^ (n * w)) (hb : b < 2 ^ (n * w)) :
    equalLimbs (limbsOf w n a) (limbsOf w n b) = decide (a = b) := by
  rw [equalLimbs_eq w _ _ (by simp) (fun _ => limbsOf_lt _ _ _ _) (fun _ => limbsOf_lt _ _ _ _),
    limbsVal_limbsOf_of_lt ha, limbsVal_limbsOf_of_lt hb]

theorem greaterLimbs_limbsOf (ha : a < 2 ^ (n * w)) (hb : b < 2 ^ (n * w)) :
    greaterLimbs (limbsOf w n a) (limbsOf w n b) = decide (a > b) := by
  rw [greaterLimbs_eq w _ _ (by simp) (fun _ => limbsOf_lt _ _ _ _) (fun _ => limbsOf_lt _ _ _ _),
    limbsVal_limbsOf_of_lt ha, limbsVal_limbsOf_of_lt hb]

/-- A sum of two numbers below `n` has quotient 1 by `n` exactly where it reaches `n`. -/
theorem add_div_beq_one_of_lt (ha : a < n) (hb : b < n) :
    ((a + b) / n == 1) = decide (n ≤ a + b) := by
  by_cases h : n ≤ a + b
  · rw [Nat.div_eq_of_lt_le (k := 1) (by omega) (by omega)]
    simp [h]
  · rw [Nat.div_eq_of_lt (by omega)]
    simp [h]

end Limbs

section Comparisons

variable {s : State} {X : Ctx} {x y : Word} {vx vy : Nat}

/-- ISZERO (R122). -/
theorem exec_iszero (hs : s.Ready) (hx : s.cfg.Readable x.toNat (s.cfg.elemBytes X))
    (hvx : s.HoldsElem X x.toNat vx) :
    exec (.iszero X x) s = .next (s.setOk (decide (vx = 0))) := by
  have hok : faultOf s (.iszero X x) = none := by
    refine faultOf_eq_none rfl rfl fun o ho => ?_
    rw [List.mem_singleton.1 ho]
    exact Operand.read_ok hx
  refine State.command_of_ok hs.2 hok ?_
  rw [State.readLimbs_of_holds (Config.limbBits_le hs.wf X) hvx, ok_bind,
    zeroLimbs_limbsOf hvx.1]

/-- What ISEQUAL and ISGREATER share: a rule that compares the limbs of two readable elements writes
the test of their limb arrays to `OK`. -/
theorem command_compare (hs : s.Ready) {i : Instr} {test : List Nat → List Nat → Bool}
    (hl : lengthFault s.cfg i = none) (ha : allocFault s i = none)
    (ho : operandsOf s.cfg i = [inElem s.cfg X x, inElem s.cfg X y])
    (hx : s.cfg.Readable x.toNat (s.cfg.elemBytes X))
    (hy : s.cfg.Readable y.toNat (s.cfg.elemBytes X))
    (hvx : s.HoldsElem X x.toNat vx) (hvy : s.HoldsElem X y.toNat vy) :
    (s.command i do
      let xs ← s.readLimbs X x.toNat
      let ys ← s.readLimbs X y.toNat
      .ok (s.setOk (test xs ys))) =
    .next (s.setOk (test (limbsOf (s.cfg.limbBits X) (s.cfg.limbs X) vx)
      (limbsOf (s.cfg.limbBits X) (s.cfg.limbs X) vy))) := by
  have hw := Config.limbBits_le hs.wf X
  have hok : faultOf s i = none := by
    refine faultOf_eq_none hl ha ?_
    rw [ho]
    simp only [List.forall_mem_cons, List.not_mem_nil, false_imp_iff, implies_true, and_true]
    exact ⟨Operand.read_ok hx, Operand.read_ok hy⟩
  refine State.command_of_ok hs.2 hok ?_
  rw [State.readLimbs_of_holds hw hvx, State.readLimbs_of_holds hw hvy, ok_bind, ok_bind]

/-- ISEQUAL (R123). -/
theorem exec_isequal (hs : s.Ready) (hx : s.cfg.Readable x.toNat (s.cfg.elemBytes X))
    (hy : s.cfg.Readable y.toNat (s.cfg.elemBytes X))
    (hvx : s.HoldsElem X x.toNat vx) (hvy : s.HoldsElem X y.toNat vy) :
    exec (.isequal X x y) s = .next (s.setOk (decide (vx = vy))) := by
  rw [← equalLimbs_limbsOf hvx.1 hvy.1]
  exact command_compare hs rfl rfl rfl hx hy hvx hvy

/-- ISGREATER (R124). -/
theorem exec_isgreater (hs : s.Ready) (hx : s.cfg.Readable x.toNat (s.cfg.elemBytes X))
    (hy : s.cfg.Readable y.toNat (s.cfg.elemBytes X))
    (hvx : s.HoldsElem X x.toNat vx) (hvy : s.HoldsElem X y.toNat vy) :
    exec (.isgreater X x y) s = .next (s.setOk (decide (vx > vy))) := by
  rw [← greaterLimbs_limbsOf hvx.1 hvy.1]
  exact command_compare hs rfl rfl rfl hx hy hvx hvy

end Comparisons

section Commands

variable {s : State} {X : Ctx} {out x y : Word} {vx vy : Nat}

/-- SUB (R126): the difference modulo `R`, the borrow in `CB`. -/
theorem exec_sub (hs : s.Ready) (hout : s.cfg.Writable out.toNat (s.cfg.elemBytes X))
    (hx : s.cfg.Readable x.toNat (s.cfg.elemBytes X))
    (hy : s.cfg.Readable y.toNat (s.cfg.elemBytes X))
    (hvx : s.HoldsElem X x.toNat vx) (hvy : s.HoldsElem X y.toNat vy) :
    ∃ t, exec (.sub X out x y) s = .next t ∧
      (s.setCb (decide (vx < vy))).Lays X out.toNat
        (if vx < vy then s.cfg.radix X - (vy - vx) else vx - vy) t := by
  have hw := Config.limbBits_le hs.wf X
  have hlt : (if vx < vy then s.cfg.radix X - (vy - vx) else vx - vy) < s.cfg.radix X := by
    have := hvx.1
    split <;> omega
  have hborrow : ((if vx < vy then 1 else 0 : Nat) == 1) = decide (vx < vy) := by
    split <;> simp [*]
  refine lays_of_exec hs hs.2 hlt ?_
  refine State.command_of_ok hs.2 (faultOf_eq_none_of_three rfl rfl rfl hout hx hy) ?_
  rw [State.readLimbs_of_holds hw hvx, State.readLimbs_of_holds hw hvy, ok_bind, ok_bind,
    subLimbs_limbsOf hvx.1 hvy.1, ← hborrow]
  rfl

/-- SUBPOS is refused where it would borrow (R127, U1). -/
theorem exec_subpos_refused (hs : s.Ready) (hout : s.cfg.Writable out.toNat (s.cfg.elemBytes X))
    (hx : s.cfg.Readable x.toNat (s.cfg.elemBytes X))
    (hy : s.cfg.Readable y.toNat (s.cfg.elemBytes X))
    (hvx : s.HoldsElem X x.toNat vx) (hvy : s.HoldsElem X y.toNat vy) (hlt : vx < vy) :
    exec (.subpos X out x y) s = .refused .subposBorrows := by
  have hw := Config.limbBits_le hs.wf X
  refine State.command_of_error hs.2 (faultOf_eq_none_of_three rfl rfl rfl hout hx hy) ?_
  rw [State.readElem_of_holds hw hvx, State.readElem_of_holds hw hvy, ok_bind, ok_bind,
    need_of_not (decide_eq_false hlt.not_ge), error_bind]

/-- REDUCE is refused from `4p` on (R128, U2). -/
theorem exec_reduce_refused (hs : s.Ready) (hx : s.cfg.Writable x.toNat (s.cfg.elemBytes X))
    (hvx : s.HoldsElem X x.toNat vx) (h4 : 4 * s.cfg.modulus X ≤ vx) :
    exec (.reduce X x) s = .refused .reduceBound := by
  have hok : faultOf s (.reduce X x) = none := by
    refine faultOf_eq_none rfl rfl fun o ho => ?_
    rw [List.mem_singleton.1 ho]
    exact Operand.write_ok hx
  have hval := limbsVal_limbsOf_of_lt hvx.1
  refine State.command_of_error hs.2 hok ?_
  rw [State.readLimbs_of_holds (Config.limbBits_le hs.wf X) hvx, ok_bind, hval,
    need_of_not (decide_eq_false h4.not_gt), error_bind]

/-- COPY (R131): the stored number, not reduced. -/
theorem exec_copy (hs : s.Ready) (hout : s.cfg.Writable out.toNat (s.cfg.elemBytes X))
    (hx : s.cfg.Readable x.toNat (s.cfg.elemBytes X)) (hvx : s.HoldsElem X x.toNat vx) :
    ∃ t, exec (.copy X out x) s = .next t ∧ s.Lays X out.toNat vx t := by
  have hok : faultOf s (.copy X out x) = none := by
    refine faultOf_eq_none rfl rfl ?_
    simp only [operandsOf, List.forall_mem_cons, List.not_mem_nil, false_imp_iff, implies_true,
      and_true]
    exact ⟨Operand.write_ok hout, Operand.read_ok hx⟩
  refine lays_of_exec hs hs.2 hvx.1 ?_
  refine State.command_of_ok hs.2 hok ?_
  rw [State.readLimbs_of_holds (Config.limbBits_le hs.wf X) hvx, ok_bind]
  rfl

end Commands

end Sys2Proof.Machine

namespace Sys2Proof

open Machine

/-- Settles O20: each comparison's limb test is the test of the stored numbers. -/
theorem compareResults : Obligations.CompareResults :=
  fun _ _ _ _ _ _ hs hx hvx => ⟨exec_iszero hs hx hvx, fun hy hvy =>
    ⟨exec_isequal hs hx hy hvx hvy, exec_isgreater hs hx hy hvx hvy⟩⟩

/-- Settles O21: the carry of the limb loop is 1 exactly where the sum reaches `R`. -/
theorem addResult : Obligations.AddResult := by
  intro s X out x y vx vy hs hout hx hy hvx hvy
  obtain ⟨t, ht, hlays⟩ := exec_add hs hout hx hy hvx hvy
  rw [add_div_beq_one_of_lt hvx.1 hvy.1] at hlays
  exact ⟨t, ht, hlays.frame, congrFun hlays.byteAt_eq⟩

/-- Settles O22: the borrow of the limb loop is 1 exactly where `x < y`. -/
theorem subResult : Obligations.SubResult := by
  intro s X out x y vx vy hs hout hx hy hvx hvy
  obtain ⟨t, ht, hlays⟩ := exec_sub hs hout hx hy hvx hvy
  exact ⟨t, ht, hlays.frame, congrFun hlays.byteAt_eq⟩

/-- Settles O23, by the two sides of SUBPOS's precondition. -/
theorem subposResult : Obligations.SubposResult := by
  intro s X out x y vx vy hs hout hx hy hvx hvy
  refine ⟨fun hle => ?_, exec_subpos_refused hs hout hx hy hvx hvy⟩
  obtain ⟨t, ht, hlays⟩ := exec_subpos hs hout hx hy hvx hvy hle
  exact ⟨t, ht, hlays.frame, congrFun hlays.byteAt_eq⟩

/-- Settles O24, by the two sides of REDUCE's bound. -/
theorem reduceResult : Obligations.ReduceResult := by
  intro s X x v hs hx hv
  refine ⟨fun h4 => ?_, exec_reduce_refused hs hx hv⟩
  obtain ⟨t, ht, hlays⟩ := exec_reduce hs hx hv h4
  exact ⟨t, ht, hlays.frame, congrFun hlays.byteAt_eq⟩

/-- Settles O25: the limbs read are the limbs of the stored number, and they are written back. -/
theorem copyResult : Obligations.CopyResult := by
  intro s X out x v hs hout hx hv
  obtain ⟨t, ht, hlays⟩ := exec_copy hs hout hx hv
  exact ⟨t, ht, hlays.frame, congrFun hlays.byteAt_eq⟩

end Sys2Proof
end

section
/-! The limb algorithm of MUL (41_montgomery_multiplier.md R152, R153): what one pass of the two
carry chains adds up to, the invariant of the outer loop, and the number of R151 at its end. -/

namespace Sys2Proof

section Inner

variable {w xi m cA cB : Nat} {ts ys ps : List Nat}

theorem length_ciosInner (hy : ys.length = ts.length) (hp : ps.length = ts.length) :
    (ciosInner w xi m ts ys ps cA cB).length = ts.length + 1 := by
  induction ts generalizing ys ps cA cB with
  | nil => rfl
  | cons t ts ih =>
    obtain ⟨y, ys, rfl⟩ := List.exists_cons_of_length_eq_add_one hy
    obtain ⟨p, ps, rfl⟩ := List.exists_cons_of_length_eq_add_one hp
    exact congrArg (· + 1) (ih (Nat.succ.inj hy) (Nat.succ.inj hp))

/-- R152: what the two carry chains compute. Each chain splits its sum into a digit and a carry,
and nothing is lost in either. -/
theorem limbsVal_ciosInner (hy : ys.length = ts.length) (hp : ps.length = ts.length) :
    limbsVal w (ciosInner w xi m ts ys ps cA cB) =
      limbsVal w ts + xi * limbsVal w ys + m * limbsVal w ps + cA + cB := by
  induction ts generalizing ys ps cA cB with
  | nil =>
    rw [List.length_eq_zero_iff.1 hy, List.length_eq_zero_iff.1 hp]
    simp [ciosInner, limbsVal]
  | cons t ts ih =>
    obtain ⟨y, ys, rfl⟩ := List.exists_cons_of_length_eq_add_one hy
    obtain ⟨p, ps, rfl⟩ := List.exists_cons_of_length_eq_add_one hp
    simp only [ciosInner, limbsVal, ih (Nat.succ.inj hy) (Nat.succ.inj hp)]
    have hA := Nat.mod_add_div (t + xi * y + cA) (2 ^ w)
    have hB := Nat.mod_add_div ((t + xi * y + cA) % 2 ^ w + m * p + cB) (2 ^ w)
    linear_combination hA + hB

/-- Only the top limb, the sum of the two last carries, can be too large, and it is not where the
number fits the limbs. -/
theorem ciosInner_lt (hy : ys.length = ts.length) (hp : ps.length = ts.length)
    (hval : limbsVal w (ciosInner w xi m ts ys ps cA cB) < 2 ^ ((ts.length + 1) * w)) :
    ∀ z ∈ ciosInner w xi m ts ys ps cA cB, z < 2 ^ w := by
  induction ts generalizing ys ps cA cB with
  | nil => simpa [ciosInner, limbsVal] using hval
  | cons t ts ih =>
    obtain ⟨y, ys, rfl⟩ := List.exists_cons_of_length_eq_add_one hy
    obtain ⟨p, ps, rfl⟩ := List.exists_cons_of_length_eq_add_one hp
    refine List.forall_mem_cons.2 ⟨Nat.mod_lt _ (by positivity), ?_⟩
    refine ih (Nat.succ.inj hy) (Nat.succ.inj hp) ?_
    rw [List.length_cons, Nat.succ_mul _ w, Nat.add_comm _ w, pow_add] at hval
    exact Nat.lt_of_mul_lt_mul_left ((Nat.le_add_left _ _).trans_lt hval)

end Inner

/-- What R152 and R153 (a) ask of the second factor and of the modulus, as limb arrays: equally
many limbs and at least one, `mu` the negated inverse of the modulus modulo `2^w`, and
`y + p <= R`. -/
structure CiosOperands (w mu : Nat) (ys ps : List Nat) : Prop where
  length_eq : ps.length = ys.length
  length_pos : 0 < ys.length
  mu_spec : 2 ^ w ∣ limbsVal w ps * mu + 1
  sum_le : limbsVal w ys + limbsVal w ps ≤ 2 ^ (ys.length * w)

/-- R153 (a): the invariant of the accumulator, `n` limbs below `2^w` that stand for a number below
`y + p`. -/
structure CiosInv (w : Nat) (ys ps t : List Nat) : Prop where
  length_eq : t.length = ys.length
  limb_lt : ∀ z ∈ t, z < 2 ^ w
  val_lt : limbsVal w t < limbsVal w ys + limbsVal w ps

/-- The quotient digit `a * mu` clears the low limb `a` of the accumulator (R150). -/
theorem dvd_add_digit_mul {W p mu : Nat} (h : W ∣ p * mu + 1) (a : Nat) :
    W ∣ a + a * mu % W * p := by
  refine (Nat.modEq_zero_iff_dvd).1 ?_
  calc a + a * mu % W * p ≡ a + a * mu * p [MOD W] :=
        ((Nat.mod_modEq _ _).mul_right p).add_left a
    _ = a * (p * mu + 1) := by ring
    _ ≡ 0 [MOD W] := (Nat.modEq_zero_iff_dvd).2 (h.mul_left a)

theorem limbsVal_replicate_zero (w n : Nat) : limbsVal w (List.replicate n 0) = 0 := by
  induction n with
  | zero => rfl
  | succ n ih => simp [List.replicate_succ, limbsVal, ih]

section Loop

variable {w mu xi : Nat} {ys ps t xs : List Nat}

/-- One outer step of R152 in numbers: a quotient digit `m` makes the division by `2^w` exact. The
last part bounds the limbs of the new accumulator by its number. -/
theorem CiosOperands.step (h : CiosOperands w mu ys ps) (ht : t.length = ys.length) :
    (ciosStep w mu ys ps xi t).length = ys.length ∧
    (∃ m < 2 ^ w, 2 ^ w * limbsVal w (ciosStep w mu ys ps xi t) =
      limbsVal w t + xi * limbsVal w ys + m * limbsVal w ps) ∧
    (limbsVal w (ciosStep w mu ys ps xi t) < 2 ^ (ys.length * w) →
      ∀ z ∈ ciosStep w mu ys ps xi t, z < 2 ^ w) := by
  obtain ⟨hlen, hpos, hmu, -⟩ := h
  obtain ⟨y, ys, rfl⟩ := List.exists_cons_of_length_pos hpos
  obtain ⟨p, ps, rfl⟩ := List.exists_cons_of_length_eq_add_one hlen
  obtain ⟨t, ts, rfl⟩ := List.exists_cons_of_length_eq_add_one ht
  have hty : ys.length = ts.length := (Nat.succ.inj ht).symm
  have htp : ps.length = ts.length := (Nat.succ.inj hlen).trans hty
  set A := t + xi * y
  set m := A % 2 ^ w * mu % 2 ^ w
  set B := A % 2 ^ w + m * p
  have hstep : ciosStep w mu (y :: ys) (p :: ps) xi (t :: ts) =
      ciosInner w xi m ts ys ps (A / 2 ^ w) (B / 2 ^ w) := rfl
  rw [hstep, List.length_cons, hty]
  refine ⟨length_ciosInner hty htp, ⟨m, Nat.mod_lt _ (by positivity), ?_⟩, ciosInner_lt hty htp⟩
  have hmu0 : 2 ^ w ∣ p * mu + 1 := by
    have hsplit : limbsVal w (p :: ps) * mu + 1 = 2 ^ w * (limbsVal w ps * mu) + (p * mu + 1) := by
      rw [limbsVal]; ring
    rw [hsplit] at hmu
    exact (Nat.dvd_add_right (dvd_mul_right _ _)).1 hmu
  have hA : A % 2 ^ w + 2 ^ w * (A / 2 ^ w) = t + xi * y := Nat.mod_add_div _ _
  have hB : 2 ^ w * (B / 2 ^ w) = A % 2 ^ w + m * p :=
    Nat.mul_div_cancel' (dvd_add_digit_mul hmu0 _)
  rw [limbsVal_ciosInner hty htp, limbsVal, limbsVal, limbsVal]
  linear_combination hA + hB

/-- R153 (a): one outer step keeps the invariant, for a limb `xi` of the first factor. -/
theorem CiosInv.step (hinv : CiosInv w ys ps t) (h : CiosOperands w mu ys ps) (hx : xi < 2 ^ w) :
    CiosInv w ys ps (ciosStep w mu ys ps xi t) := by
  obtain ⟨hlen, ⟨m, hm, hval⟩, hlimbs⟩ := h.step (xi := xi) hinv.length_eq
  have hlt : limbsVal w (ciosStep w mu ys ps xi t) < limbsVal w ys + limbsVal w ps := by
    refine Nat.lt_of_mul_lt_mul_left (a := 2 ^ w) ?_
    calc 2 ^ w * limbsVal w (ciosStep w mu ys ps xi t)
        = limbsVal w t + xi * limbsVal w ys + m * limbsVal w ps := hval
      _ < limbsVal w ys + limbsVal w ps + xi * limbsVal w ys + m * limbsVal w ps := by
          have := hinv.val_lt
          omega
      _ = (xi + 1) * limbsVal w ys + (m + 1) * limbsVal w ps := by ring
      _ ≤ 2 ^ w * limbsVal w ys + 2 ^ w * limbsVal w ps :=
          Nat.add_le_add (Nat.mul_le_mul_right _ hx) (Nat.mul_le_mul_right _ hm)
      _ = 2 ^ w * (limbsVal w ys + limbsVal w ps) := (mul_add _ _ _).symm
  exact ⟨hlen, hlimbs (hlt.trans_le h.sum_le), hlt⟩

/-- R153 (a): the whole loop keeps the invariant. -/
theorem CiosInv.loop (hinv : CiosInv w ys ps t) (h : CiosOperands w mu ys ps)
    (hx : ∀ x ∈ xs, x < 2 ^ w) : CiosInv w ys ps (ciosLoop w mu ys ps xs t) := by
  induction xs generalizing t with
  | nil => exact hinv
  | cons x xs ih =>
    obtain ⟨hx0, hxs⟩ := List.forall_mem_cons.1 hx
    exact ih (hinv.step h hx0) hxs

/-- R152: the loop in numbers. The quotient digits of its steps are the limbs of one number `M`. -/
theorem CiosOperands.loop (h : CiosOperands w mu ys ps) (ht : t.length = ys.length) :
    ∃ M < 2 ^ (xs.length * w), 2 ^ (xs.length * w) * limbsVal w (ciosLoop w mu ys ps xs t) =
      limbsVal w t + limbsVal w xs * limbsVal w ys + M * limbsVal w ps := by
  induction xs generalizing t with
  | nil => exact ⟨0, by simp, by simp [ciosLoop, limbsVal]⟩
  | cons x xs ih =>
    obtain ⟨hlen, ⟨m, hm, hstep⟩, -⟩ := h.step (xi := x) ht
    obtain ⟨M, hM, hloop⟩ := ih hlen
    have hpow : 2 ^ ((x :: xs).length * w) = 2 ^ w * 2 ^ (xs.length * w) := by
      rw [List.length_cons, Nat.succ_mul, Nat.add_comm, pow_add]
    refine ⟨m + 2 ^ w * M, ?_, ?_⟩
    · calc m + 2 ^ w * M < 2 ^ w * (M + 1) := by rw [mul_add, mul_one]; omega
        _ ≤ 2 ^ w * 2 ^ (xs.length * w) := Nat.mul_le_mul_left _ hM
        _ = 2 ^ ((x :: xs).length * w) := hpow.symm
    · rw [hpow, ciosLoop, limbsVal]
      linear_combination 2 ^ w * hloop + hstep

end Loop

namespace Config

variable {c : Config} {X : Ctx} {x y : Nat}

theorem limbsVal_limbsOf_modulus (h : c.wf = true) (X : Ctx) :
    limbsVal (c.limbBits X) (limbsOf (c.limbBits X) (c.limbs X) (c.modulus X)) = c.modulus X := by
  have hR := two_modulus_lt_radix h X
  exact Machine.limbsVal_limbsOf_of_lt (show c.modulus X < c.radix X by omega)

/-- The second factor of a product within the bound `y + p <= R` is an element. -/
theorem lt_radix_of_add_modulus_le (h : c.wf = true) (hy : y + c.modulus X ≤ c.radix X) :
    y < c.radix X := by
  have hp := modulus_pos h X
  omega

/-- The limb arrays of `y` and of the modulus are operands of the limb algorithm where
`y + p <= R`. -/
theorem ciosOperands (h : c.wf = true) (hy : y + c.modulus X ≤ c.radix X) :
    CiosOperands (c.limbBits X) (c.mu X) (limbsOf (c.limbBits X) (c.limbs X) y)
      (limbsOf (c.limbBits X) (c.limbs X) (c.modulus X)) := by
  refine ⟨by simp, by simpa using limbs_pos h X, ?_, ?_⟩
  · rw [limbsVal_limbsOf_modulus h]
    exact two_pow_limbBits_dvd_modulus_mul_mu h X
  · rw [limbsVal_limbsOf_modulus h, length_limbsOf,
      Machine.limbsVal_limbsOf_of_lt (lt_radix_of_add_modulus_le h hy)]
    exact hy

/-- The accumulator of all zeros meets the invariant. -/
theorem ciosInv_zero (h : c.wf = true) (y : Nat) :
    CiosInv (c.limbBits X) (limbsOf (c.limbBits X) (c.limbs X) y)
      (limbsOf (c.limbBits X) (c.limbs X) (c.modulus X)) (List.replicate (c.limbs X) 0) := by
  refine ⟨by simp, fun z hz => ?_, ?_⟩
  · rw [List.eq_of_mem_replicate hz]
    positivity
  · rw [limbsVal_replicate_zero, limbsVal_limbsOf_modulus h]
    exact Nat.add_pos_right _ (modulus_pos h X)

/-- R153 (a): the invariant holds after every number of outer steps. -/
theorem ciosInv_ciosAfter (h : c.wf = true) (hy : y + c.modulus X ≤ c.radix X) (x i : Nat) :
    CiosInv (c.limbBits X) (limbsOf (c.limbBits X) (c.limbs X) y)
      (limbsOf (c.limbBits X) (c.limbs X) (c.modulus X)) (c.ciosAfter X x y i) :=
  (ciosInv_zero h y).loop (ciosOperands h hy) fun _ hz =>
    limbsOf_lt _ _ _ _ (List.mem_of_mem_take hz)

/-- R152: the limb algorithm divides `x*y + M*p` by `R` exactly, for some `M` below `R`. -/
theorem cios_mul_radix (h : c.wf = true) (hx : x < c.radix X) (hy : y + c.modulus X ≤ c.radix X) :
    ∃ M < c.radix X, c.cios X x y * c.radix X = x * y + M * c.modulus X := by
  obtain ⟨M, hM, hloop⟩ := (ciosOperands h hy).loop
    (xs := limbsOf (c.limbBits X) (c.limbs X) x) (t := List.replicate (c.limbs X) 0) (by simp)
  rw [length_limbsOf] at hM hloop
  rw [limbsVal_replicate_zero, zero_add, Machine.limbsVal_limbsOf_of_lt hx,
    Machine.limbsVal_limbsOf_of_lt (lt_radix_of_add_modulus_le h hy), limbsVal_limbsOf_modulus h,
    mul_comm] at hloop
  refine ⟨M, hM, ?_⟩
  unfold cios ciosAfter
  rw [List.take_of_length_le (by simp)]
  exact hloop

/-- R151: the quotient digits are fixed by the division being exact, so the equation of R151 has
one solution. -/
theorem eq_mulValue (h : c.wf = true) {v M : Nat} (hM : M < c.radix X)
    (heq : v * c.radix X = x * y + M * c.modulus X) : v = c.mulValue X x y := by
  have hmul := mulValue_mul_radix (X := X) h x y
  have hmod :
      x * y + M * c.modulus X ≡ x * y + c.quotDigits X x y * c.modulus X [MOD c.radix X] := by
    rw [← heq, ← hmul]
    exact ((Nat.modEq_zero_iff_dvd).2 (dvd_mul_left _ _)).trans
      ((Nat.modEq_zero_iff_dvd).2 (dvd_mul_left _ _)).symm
  have hdigits : M = c.quotDigits X x y :=
    (Nat.ModEq.cancel_right_of_coprime (radix_coprime h X)
      (Nat.ModEq.add_left_cancel' _ hmod)).eq_of_lt_of_lt hM (quotDigits_lt x y)
  rw [hdigits, ← hmul] at heq
  exact Nat.eq_of_mul_eq_mul_right (radix_pos c X) heq

end Config

/-- Settles O47: the loop in numbers solves the equation of R151, whose solution is one number; the
limbs are bounded by the invariant of the accumulator. -/
theorem limbAlgorithmIsMul : Obligations.LimbAlgorithmIsMul := by
  intro c X x y hwf hx hy
  obtain ⟨M, hM, heq⟩ := Config.cios_mul_radix hwf hx hy
  refine ⟨Config.eq_mulValue hwf hM heq, fun i _ => ?_⟩
  have hinv := Config.ciosInv_ciosAfter hwf hy x i
  exact ⟨hinv.length_eq.trans (length_limbsOf _ _ _), hinv.limb_lt⟩

end Sys2Proof
end

section
/-! The exponentiation unit and `lshift` as arithmetic (41_montgomery_multiplier.md R156, R158). -/

namespace Sys2Proof

/-- R158: one square-and-multiply step appends bit `n` of the exponent. -/
theorem pow_div_two_pow_step (v e n : Nat) :
    v ^ (e / 2 ^ n) = if e.testBit n then v ^ (e / 2 ^ (n + 1)) * v ^ (e / 2 ^ (n + 1)) * v
      else v ^ (e / 2 ^ (n + 1)) * v ^ (e / 2 ^ (n + 1)) := by
  have hhalf : e / 2 ^ (n + 1) = e / 2 ^ n / 2 := by rw [pow_succ, Nat.div_div_eq_div_mul]
  have hsplit := Nat.div_add_mod (e / 2 ^ n) 2
  rw [Nat.testBit_eq_decide_div_mod_eq, hhalf, ← pow_add, ← pow_succ]
  simp only [decide_eq_true_eq]
  split <;> congr 1 <;> omega

namespace Config

variable {c : Config} {X : Ctx}

/-- R158: before the bits `n-1 .. 0` the loop holds the power to the bits above them. -/
theorem powerBits_mont (h : c.wf = true) (v e n : Nat) :
    c.powerBits X (c.mont X v) e n (c.mont X (v ^ (e / 2 ^ n))) = c.mont X (v ^ e) := by
  induction n with
  | zero => rw [powerBits, pow_zero, Nat.div_one]
  | succ n ih =>
    rw [powerBits, ← ih, pow_div_two_pow_step v e n]
    unfold fsqr
    split <;> simp only [fmul_mont h]

/-- R156: the closed form of LSHIFT is the residue of `x * 2^k`. -/
theorem lshiftValue_eq {v : Nat} (hv : v < 2 * c.modulus X) (k : Nat) :
    c.lshiftValue X v k = v * 2 ^ k % c.modulus X := by
  unfold lshiftValue
  rw [canon_eq_mod hv, powMod_eq, ← Nat.mul_mod]

/-- R156: `k` modular doublings of a canonical value. -/
theorem iterate_canon_double {b : Nat} (hb : b < c.modulus X) (k : Nat) :
    (fun b => c.canon X (2 * b))^[k] b = b * 2 ^ k % c.modulus X := by
  induction k with
  | zero => rw [Function.iterate_zero_apply, pow_zero, mul_one, Nat.mod_eq_of_lt hb]
  | succ k ih =>
    have hlt := Nat.mod_lt (b * 2 ^ k) (Nat.zero_lt_of_lt hb)
    rw [Function.iterate_succ_apply', ih, canon_eq_mod (by omega), Nat.mul_mod_mod, pow_succ,
      mul_comm 2, mul_assoc]

/-- R156: LSHIFT's doublings start from `canon(x)`. -/
theorem iterate_canon_double_canon {v : Nat} (hv : v < 2 * c.modulus X) (k : Nat) :
    (fun b => c.canon X (2 * b))^[k] (c.canon X v) = v * 2 ^ k % c.modulus X := by
  rw [iterate_canon_double (canon_lt hv), canon_eq_mod hv, Nat.mod_mul_mod]

end Config

/-- Settles O48: the loop over all bits of the exponent, from `mont(1)`. -/
theorem powerIsExponentiation : Obligations.PowerIsExponentiation := by
  intro c X v e hwf
  have hloop := Config.powerBits_mont (X := X) hwf v e (bitlength e)
  rwa [Nat.div_eq_of_lt (lt_two_pow_bitlength e), pow_zero] at hloop

end Sys2Proof
end

section
/-! MUL, SQR and LSHIFT as results on stored numbers (41_montgomery_multiplier.md R151, R155,
R156). -/

namespace Sys2Proof.Machine

variable {s : State} {X : Ctx} {i j : Instr} {out x y k : Word} {vx vy v : Nat}

/-- MUL is refused outside its preconditions (R153, U3). -/
theorem exec_mul_refused (hs : s.Ready) (hout : s.cfg.Writable out.toNat (s.cfg.elemBytes X))
    (hx : s.cfg.Readable x.toNat (s.cfg.elemBytes X))
    (hy : s.cfg.Readable y.toNat (s.cfg.elemBytes X))
    (hvx : s.HoldsElem X x.toNat vx) (hvy : s.HoldsElem X y.toNat vy)
    (hbad : s.cfg.radix X < vy + s.cfg.modulus X ∨ s.cfg.modulus X * s.cfg.radix X ≤ vx * vy) :
    exec (.mul X out x y) s = .refused .mulBound := by
  have hw := Config.limbBits_le hs.wf X
  have hbound : mulBoundOk s.cfg X vx vy = false := by
    simp only [mulBoundOk, Bool.and_eq_false_iff, decide_eq_false_iff_not, not_le, not_lt]
    exact hbad
  refine State.command_of_error hs.2 (faultOf_eq_none_of_three rfl rfl rfl hout hx hy) ?_
  rw [State.readElem_of_holds hw hvx, State.readElem_of_holds hw hvy, ok_bind, ok_bind,
    need_of_not hbound, error_bind]

/-- What issuing a command does depends on its checks and its rule alone (R281). -/
theorem State.command_congr {body body' : Except Refusal State} (hf : faultOf s i = faultOf s j)
    (hb : body = body') : s.command i body = s.command j body' := by
  unfold State.command
  rw [hf, hb]

theorem find?_repeat_second {α : Type} (p : α → Bool) (a b : α) :
    [a, b, b].find? p = [a, b].find? p := by
  cases ha : p a <;> cases hb : p b <;> simp [ha, hb]

/-- Checking an operand a second time finds no other fault. -/
theorem operandFault_repeat_second (c : Config) (a b : Operand) :
    operandFault c [a, b, b] = operandFault c [a, b] := by
  unfold operandFault
  rw [find?_repeat_second, find?_repeat_second, find?_repeat_second]

theorem faultOf_sqr (s : State) (X : Ctx) (out x : Word) :
    faultOf s (.sqr X out x) = faultOf s (.mul X out x x) := by
  have hops : operandFault s.cfg (operandsOf s.cfg (.mul X out x x)) =
      operandFault s.cfg (operandsOf s.cfg (.sqr X out x)) :=
    operandFault_repeat_second s.cfg (outElem s.cfg X out) (inElem s.cfg X x)
  unfold faultOf
  rw [hops]
  rfl

/-- R155: SQR is MUL with both factors in one place, in every state: the second read of `x` and the
second check of its pointer change nothing. -/
theorem exec_sqr_eq_mul (s : State) (X : Ctx) (out x : Word) :
    exec (.sqr X out x) s = exec (.mul X out x x) s := by
  refine State.command_congr (faultOf_sqr s X out x) ?_
  cases s.readElem X x.toNat with
  | ok v => rfl
  | error r => rfl

/-- The checks of R289 pass for `out` and one input. -/
theorem faultOf_eq_none_of_two (hl : lengthFault s.cfg i = none) (ha : allocFault s i = none)
    (ho : operandsOf s.cfg i = [outElem s.cfg X out, inElem s.cfg X x])
    (hout : s.cfg.Writable out.toNat (s.cfg.elemBytes X))
    (hx : s.cfg.Readable x.toNat (s.cfg.elemBytes X)) : faultOf s i = none := by
  refine faultOf_eq_none hl ha ?_
  rw [ho]
  simp only [List.forall_mem_cons, List.not_mem_nil, false_imp_iff, implies_true, and_true]
  exact ⟨Operand.write_ok hout, Operand.read_ok hx⟩

/-- LSHIFT (R156): the residue of `x * 2^k`. -/
theorem exec_lshift (hs : s.Ready) (hout : s.cfg.Writable out.toNat (s.cfg.elemBytes X))
    (hx : s.cfg.Readable x.toNat (s.cfg.elemBytes X)) (hv : s.HoldsElem X x.toNat v)
    (hlt : v < 2 * s.cfg.modulus X) :
    ∃ t, exec (.lshift X out x k) s = .next t ∧
      s.Lays X out.toNat (v * 2 ^ k.toNat % s.cfg.modulus X) t := by
  have hres := Nat.mod_lt (v * 2 ^ k.toNat) (Config.modulus_pos hs.wf X)
  have hR := Config.two_modulus_lt_radix hs.wf X
  refine lays_of_exec hs hs.2 (by omega) ?_
  refine State.command_of_ok hs.2 (faultOf_eq_none_of_two rfl rfl rfl hout hx) ?_
  rw [State.readElem_of_holds (Config.limbBits_le hs.wf X) hv, ok_bind,
    need_of (decide_eq_true hlt), ok_bind, Config.lshiftValue_eq hlt]

/-- LSHIFT is refused from `2p` on (R156, U4). -/
theorem exec_lshift_refused (hs : s.Ready) (hout : s.cfg.Writable out.toNat (s.cfg.elemBytes X))
    (hx : s.cfg.Readable x.toNat (s.cfg.elemBytes X)) (hv : s.HoldsElem X x.toNat v)
    (hle : 2 * s.cfg.modulus X ≤ v) : exec (.lshift X out x k) s = .refused .lshiftBound := by
  refine State.command_of_error hs.2 (faultOf_eq_none_of_two rfl rfl rfl hout hx) ?_
  rw [State.readElem_of_holds (Config.limbBits_le hs.wf X) hv, ok_bind,
    need_of_not (decide_eq_false hle.not_gt), error_bind]

end Sys2Proof.Machine

namespace Sys2Proof

open Machine

/-- Settles O26: the product of R151 with its quotient digits, by the two sides of its
preconditions. -/
theorem mulResult : Obligations.MulResult := by
  intro s X out x y vx vy hs hout hx hy hvx hvy
  refine ⟨fun hsum hprod => ?_, exec_mul_refused hs hout hx hy hvx hvy⟩
  obtain ⟨t, ht, hlays⟩ := exec_mul hs hout hx hy hvx hvy hsum hprod
  exact ⟨t, _, _, ht, hlays.frame, Config.quotDigits_lt vx vy,
    Config.mulValue_mul_radix hs.wf vx vy, Config.mulValue_lt hs.wf hprod,
    congrFun hlays.byteAt_eq⟩

/-- Settles O27: SQR is MUL with `y = x`, and so has its result and its refusal. -/
theorem sqrIsMulBySelf : Obligations.SqrIsMulBySelf := by
  refine ⟨exec_sqr_eq_mul, fun s X out x v hs hout hx hv => ?_⟩
  rw [exec_sqr_eq_mul]
  exact mulResult s X out x x v v hs hout hx hx hv hv

/-- Settles O28: the doublings and the closed form are one residue, by the two sides of LSHIFT's
bound. -/
theorem lshiftResult : Obligations.LshiftResult := by
  intro s X out x k v hs hout hx hv
  refine ⟨fun hlt => ?_, exec_lshift_refused hs hout hx hv⟩
  obtain ⟨t, ht, hlays⟩ := exec_lshift hs hout hx hv hlt
  exact ⟨t, _, ht, hlays.frame, (Config.iterate_canon_double_canon hlt k.toNat).symm, rfl,
    congrFun hlays.byteAt_eq⟩

end Sys2Proof
end

section
/-! The loop of INV (42_inverter.md R173): one invariant, kept by a step of either branch, carries
it to `u = v = 1` within its step bound (R174). -/

namespace Sys2Proof

/-- R176: stripping the trailing zero bits and shifting back gives the number. -/
theorem div_two_pow_tz_mul {a : Nat} (h : 0 < a) : a / 2 ^ tz a * 2 ^ tz a = a :=
  Nat.div_mul_cancel (tz_spec h).1

theorem odd_div_two_pow_tz {a : Nat} (h : 0 < a) : a / 2 ^ tz a % 2 = 1 := (tz_spec h).2

theorem tz_pos_of_even {a : Nat} (h : 0 < a) (he : a % 2 = 0) : 0 < tz a := by
  by_contra hz
  have hodd := odd_div_two_pow_tz h
  rw [Nat.eq_zero_of_not_pos hz, pow_zero, Nat.div_one] at hodd
  omega

namespace Machine

/-- The invariants of R173 for the inverse of `a` modulo `m`, with the product bound of R174: `T`
is the loop's target `KI`. -/
structure InvLoopInv (m : Nat) (a : ZMod m) (T u v r s k : Nat) : Prop where
  odd_u : u % 2 = 1
  odd_v : v % 2 = 1
  coprime : Nat.Coprime u v
  mul_s : a * s = v * 2 ^ k
  mul_r : a * r = -(u * 2 ^ k)
  sum_eq : u * s + v * r = m
  bound : u * v * 2 ^ k < 2 ^ T

namespace InvLoopInv

variable {m T u v r s k : Nat} {a : ZMod m}

/-- The pairs `(u, s)` and `(v, r)` change places as `a` changes its sign. -/
theorem swap (h : InvLoopInv m a T u v r s k) : InvLoopInv m (-a) T v u s r k where
  odd_u := h.odd_v
  odd_v := h.odd_u
  coprime := h.coprime.symm
  mul_s := by rw [neg_mul, h.mul_r, neg_neg]
  mul_r := by rw [neg_mul, h.mul_s]
  sum_eq := by rw [Nat.add_comm, h.sum_eq]
  bound := by rw [Nat.mul_comm v]; exact h.bound

/-- The step of R173 for `u > v`. -/
theorem step (h : InvLoopInv m a T u v r s k) (hlt : v < u) :
    InvLoopInv m a T ((u - v) / 2 ^ tz (u - v)) v (r + s) (s * 2 ^ tz (u - v))
      (k + tz (u - v)) := by
  obtain ⟨d, rfl⟩ := Nat.exists_eq_add_of_lt hlt
  rw [show v + d + 1 - v = d + 1 by omega]
  have hw := div_two_pow_tz_mul (Nat.succ_pos d)
  have hodd := odd_div_two_pow_tz (Nat.succ_pos d)
  generalize (d + 1) / 2 ^ tz (d + 1) = w at hw hodd ⊢
  generalize tz (d + 1) = z at hw ⊢
  have hu : v + d + 1 = w * 2 ^ z + v := by omega
  rw [hu] at h
  obtain ⟨-, hv, hcop, hs, hr, hsum, hbound⟩ := h
  refine ⟨hodd, hv, ?_, ?_, ?_, ?_, ?_⟩
  · exact (Nat.coprime_add_self_left.1 hcop).coprime_dvd_left (Nat.dvd_mul_right w _)
  · push_cast
    linear_combination 2 ^ z * hs
  · push_cast at hr ⊢
    linear_combination hr + hs
  · rw [← hsum]
    ring
  · calc w * v * 2 ^ (k + z) = w * 2 ^ z * v * 2 ^ k := by ring
      _ ≤ (w * 2 ^ z + v) * v * 2 ^ k := by gcongr; omega
      _ < 2 ^ T := hbound

/-- R174: a state of the loop has not reached the target count. -/
theorem k_lt (h : InvLoopInv m a T u v r s k) : k < T := by
  have huv : 0 < u * v := Nat.mul_pos (by have := h.odd_u; omega) (by have := h.odd_v; omega)
  exact (Nat.pow_lt_pow_iff_right Nat.one_lt_two).1
    ((Nat.le_mul_of_pos_left _ huv).trans_lt h.bound)

/-- R173: with all its fuel the loop ends at `u = v = 1`, in a state of the invariant. -/
theorem loop {fuel : Nat} (h : InvLoopInv m a T u v r s k) (hfuel : T ≤ fuel + k) :
    ∃ r', InvLoopInv m a T 1 1 r' (invLoop fuel u v r s k).1 (invLoop fuel u v r s k).2 := by
  induction fuel generalizing u v r s k with
  | zero =>
    have := h.k_lt
    omega
  | succ fuel ih =>
    have hu := h.odd_u
    have hv := h.odd_v
    rw [invLoop]
    split
    · rename_i heq
      subst heq
      obtain rfl := (Nat.coprime_self u).1 h.coprime
      exact ⟨r, h⟩
    · split
      · rename_i hlt
        have hz := tz_pos_of_even (a := u - v) (by omega) (by omega)
        exact ih (h.step hlt) (by omega)
      · have hz := tz_pos_of_even (a := v - u) (by omega) (by omega)
        have hstep := (h.swap.step (by omega)).swap
        rw [neg_neg] at hstep
        exact ih hstep (by omega)

end InvLoopInv

/-- R173: the start of the loop, `a` made odd. -/
theorem invLoopInv_start {m a n : Nat} (hm : m % 2 = 1) (ha : 0 < a) (hcop : Nat.Coprime a m)
    (hmn : m < 2 ^ n) (han : a < 2 ^ n) :
    InvLoopInv m a (2 * n) m (a / 2 ^ tz a) 0 1 (tz a) := by
  have hw := div_two_pow_tz_mul ha
  have hodd := odd_div_two_pow_tz ha
  generalize a / 2 ^ tz a = w at hw hodd ⊢
  generalize tz a = z at hw ⊢
  subst hw
  refine ⟨hm, hodd, (hcop.coprime_dvd_left (Nat.dvd_mul_right w _)).symm, ?_, ?_, ?_, ?_⟩
  · push_cast
    ring
  · simp
  · ring
  · calc m * w * 2 ^ z = m * (w * 2 ^ z) := Nat.mul_assoc _ _ _
      _ < 2 ^ n * 2 ^ n := Nat.mul_lt_mul'' hmn han
      _ = 2 ^ (2 * n) := by ring

/-- R172, R174: the loop ends with `a * s = 2^k` modulo `m`, within its target count. -/
theorem invLoop_spec {m a n : Nat} (hm : m % 2 = 1) (ha : 0 < a) (hcop : Nat.Coprime a m)
    (hmn : m < 2 ^ n) (han : a < 2 ^ n) :
    ∃ s k, invLoop (2 * n) m (a / 2 ^ tz a) 0 1 (tz a) = (s, k) ∧ s ≤ m ∧ k ≤ 2 * n ∧
      a * s ≡ 2 ^ k [MOD m] := by
  obtain ⟨r, hend⟩ := (invLoopInv_start hm ha hcop hmn han).loop (Nat.le_add_right _ _)
  refine ⟨_, _, rfl, ?_, hend.k_lt.le, ?_⟩
  · have := hend.sum_eq
    omega
  · rw [← ZMod.natCast_eq_natCast_iff]
    simpa using hend.mul_s

end Machine

end Sys2Proof
end

section
/-! The value INV computes (42_inverter.md R171): the one canonical `b` with `a * b = R^2` modulo
the modulus, for every `a` prime to it; and the walk of BATCHINV on such values (R182). -/

namespace Sys2Proof

open Machine

namespace Config

variable {c : Config} {X : Ctx} {a b p : Nat}

/-- A canonical value that has an inverse modulo the modulus. -/
def CanonUnit (c : Config) (X : Ctx) (a : Nat) : Prop :=
  a < c.modulus X ∧ Nat.Coprime a (c.modulus X)

theorem prime_modulus (h : c.PrimeModuli) (X : Ctx) : Nat.Prime (c.modulus X) := by
  cases X with
  | F => exact h.1
  | S => exact h.2

/-- With a prime modulus every canonical value but zero has an inverse. -/
theorem canonUnit_of_prime (h : c.PrimeModuli) (h0 : 0 < a) (ha : a < c.modulus X) :
    c.CanonUnit X a :=
  ⟨ha, (Nat.coprime_of_lt_prime h0.ne' ha (prime_modulus h X)).symm⟩

theorem CanonUnit.pos (ha : c.CanonUnit X a) (h : c.wf = true) : 0 < a := by
  refine Nat.pos_of_ne_zero fun h0 => ?_
  have hm := (Nat.coprime_zero_left _).1 (h0 ▸ ha.2)
  have := three_le_modulus h X
  omega

/-- R157: `fmul` of invertible values is invertible. -/
theorem CanonUnit.fmul (h : c.wf = true) (ha : c.CanonUnit X a) (hb : c.CanonUnit X b) :
    c.CanonUnit X (c.fmul X a b) := by
  refine ⟨fmul_lt h ha.1 hb.1, ?_⟩
  have hmul := (fmul_mul_radix h (mul_lt_of_canonical h ha.1 hb.1)).gcd_eq
  have hcop : Nat.Coprime (c.fmul X a b * c.radix X) (c.modulus X) :=
    hmul.trans (ha.2.mul_left hb.2)
  exact hcop.coprime_dvd_left (Nat.dvd_mul_right _ _)

theorem invCorrection_lt (h : c.wf = true) (X : Ctx) : c.invCorrection X < c.modulus X :=
  tableEntry_lt_modulus h X (e := 5) (by omega)

/-- R172: the doublings and the correction constant fill the count up to `3K`. -/
theorem two_pow_mul_correction (h : c.wf = true) (X : Ctx) {k : Nat} (hk : k ≤ c.invTarget X) :
    2 ^ k * 2 ^ (c.invTarget X - k) * 2 ^ (3 * c.radixBits X - c.invTarget X) = c.radix X ^ 3 := by
  have hbl := bl_lt_radixBits h X
  have hT : c.invTarget X = 2 * c.bl X := rfl
  rw [radix, ← pow_add, ← pow_add, ← pow_mul]
  congr 1
  omega

/-- R171, R172: INV's value is canonical, and its product with `a` is `R^2`. -/
theorem invValue_spec (h : c.wf = true) (ha : c.CanonUnit X a) :
    invValue c X a < c.modulus X ∧ a * invValue c X a ≡ c.radix X ^ 2 [MOD c.modulus X] := by
  have hbl := modulus_lt_two_pow_bl c X
  obtain ⟨s, k, hloop, hsm, hk, hs⟩ :
      ∃ s k, invLoop (c.invTarget X) (c.modulus X) (a / 2 ^ tz a) 0 1 (tz a) = (s, k) ∧
        s ≤ c.modulus X ∧ k ≤ c.invTarget X ∧ a * s ≡ 2 ^ k [MOD c.modulus X] :=
    invLoop_spec (modulus_odd h X) (ha.pos h) ha.2 hbl (ha.1.trans hbl)
  have hval : invValue c X a =
      c.fmul X (c.lshiftValue X s (c.invTarget X - k)) (c.invCorrection X) := by
    simp only [invValue, hloop]
  rw [hval]
  have hm := three_le_modulus h X
  have ht : c.lshiftValue X s (c.invTarget X - k) < c.modulus X := Nat.mod_lt _ (by omega)
  have hprod := mul_lt_of_canonical h ht (invCorrection_lt h X)
  refine ⟨fmul_lt h ht (invCorrection_lt h X), radix_cancel h ?_⟩
  rw [mul_assoc]
  calc a * (c.fmul X (c.lshiftValue X s (c.invTarget X - k)) (c.invCorrection X) * c.radix X)
      ≡ a * (c.lshiftValue X s (c.invTarget X - k) * c.invCorrection X) [MOD c.modulus X] :=
        (fmul_mul_radix h hprod).mul_left a
    _ ≡ a * (s * 2 ^ (c.invTarget X - k) * 2 ^ (3 * c.radixBits X - c.invTarget X))
          [MOD c.modulus X] := by
        rw [lshiftValue_eq (by omega), invCorrection_eq]
        exact ((Nat.mod_modEq _ _).mul (Nat.mod_modEq _ _)).mul_left a
    _ = a * s * (2 ^ (c.invTarget X - k) * 2 ^ (3 * c.radixBits X - c.invTarget X)) := by ring
    _ ≡ 2 ^ k * (2 ^ (c.invTarget X - k) * 2 ^ (3 * c.radixBits X - c.invTarget X))
          [MOD c.modulus X] := hs.mul_right _
    _ = c.radix X ^ 2 * c.radix X := by
        rw [← mul_assoc, two_pow_mul_correction h X hk, pow_succ]

/-- R171: INV's value is canonical. -/
theorem invValue_lt (h : c.wf = true) (ha : c.CanonUnit X a) : invValue c X a < c.modulus X :=
  (invValue_spec h ha).1

/-- R171: INV's value times `a` is `R^2` modulo the modulus. -/
theorem mul_invValue (h : c.wf = true) (ha : c.CanonUnit X a) :
    a * invValue c X a ≡ c.radix X ^ 2 [MOD c.modulus X] :=
  (invValue_spec h ha).2

/-- R171 fixes INV's value. -/
theorem eq_invValue (h : c.wf = true) (ha : c.CanonUnit X a) (hb : b < c.modulus X)
    (hab : a * b ≡ c.radix X ^ 2 [MOD c.modulus X]) : b = invValue c X a := by
  have hmod : b ≡ invValue c X a [MOD c.modulus X] :=
    (hab.trans (mul_invValue h ha).symm).cancel_left_of_coprime ha.2.symm
  rwa [Nat.ModEq, Nat.mod_eq_of_lt hb, Nat.mod_eq_of_lt (invValue_lt h ha)] at hmod

/-- The inverse is invertible. -/
theorem CanonUnit.invValue (h : c.wf = true) (ha : c.CanonUnit X a) :
    c.CanonUnit X (invValue c X a) := by
  refine ⟨invValue_lt h ha, Nat.Coprime.coprime_mul_left (k := a) ?_⟩
  exact (mul_invValue h ha).gcd_eq.trans ((radix_coprime h X).pow_left 2)

/-- R171: in Montgomery form the product of `a` and its inverse is one. -/
theorem fmul_invValue (h : c.wf = true) (ha : c.CanonUnit X a) :
    c.fmul X a (Machine.invValue c X a) = c.radix X % c.modulus X := by
  have hI := invValue_lt h ha
  refine eq_of_radix h (fmul_lt h ha.1 hI) (Nat.mod_lt _ (modulus_pos h X)) ?_
  calc c.fmul X a (Machine.invValue c X a) * c.radix X
      ≡ a * Machine.invValue c X a [MOD c.modulus X] :=
        fmul_mul_radix h (mul_lt_of_canonical h ha.1 hI)
    _ ≡ c.radix X ^ 2 [MOD c.modulus X] := mul_invValue h ha
    _ = c.radix X * c.radix X := pow_two _
    _ ≡ c.radix X % c.modulus X * c.radix X [MOD c.modulus X] :=
        (Nat.mod_modEq _ _).symm.mul_right _

/-- R182, one factor peeled off: the inverse of a product of `a` and `b`, times `b`, is the inverse
of `a`. -/
theorem fmul_invValue_of_mul (h : c.wf = true) (hp : c.CanonUnit X p) (ha : c.CanonUnit X a)
    (hb : b < c.modulus X) (hpab : p * c.radix X ≡ a * b [MOD c.modulus X]) :
    c.fmul X (invValue c X p) b = invValue c X a := by
  have hI := invValue_lt h hp
  refine eq_invValue h ha (fmul_lt h hI hb) (radix_cancel h ?_)
  calc a * c.fmul X (invValue c X p) b * c.radix X
      = a * (c.fmul X (invValue c X p) b * c.radix X) := by ring
    _ ≡ a * (invValue c X p * b) [MOD c.modulus X] :=
        (fmul_mul_radix h (mul_lt_of_canonical h hI hb)).mul_left a
    _ = a * b * invValue c X p := by ring
    _ ≡ p * c.radix X * invValue c X p [MOD c.modulus X] := hpab.symm.mul_right _
    _ = p * invValue c X p * c.radix X := by ring
    _ ≡ c.radix X ^ 2 * c.radix X [MOD c.modulus X] := (mul_invValue h hp).mul_right _

theorem CanonUnit.foldl_fmul {xs : List Nat} (h : c.wf = true) (ha : c.CanonUnit X a)
    (hxs : ∀ x ∈ xs, c.CanonUnit X x) : c.CanonUnit X (xs.foldl (c.fmul X) a) := by
  induction xs generalizing a with
  | nil => exact ha
  | cons x xs ih =>
    obtain ⟨hx, hxs⟩ := List.forall_mem_cons.1 hxs
    exact ih (ha.fmul h hx) hxs

end Config

namespace Machine

variable {c : Config} {X : Ctx}

/-- R182: one more factor gives one more running product. -/
theorem runningProducts_concat (acc : Nat) (xs : List Nat) (y : Nat) :
    runningProducts c X acc (xs ++ [y]) =
      runningProducts c X acc xs ++ [(xs ++ [y]).foldl (c.fmul X) acc] := by
  induction xs generalizing acc with
  | nil => rfl
  | cons x xs ih => simp only [List.cons_append, runningProducts, ih, List.foldl_cons]

/-- R182: the last running product is the product of all. -/
theorem cons_runningProducts (acc : Nat) (xs : List Nat) :
    ∃ qs, acc :: runningProducts c X acc xs = qs ++ [xs.foldl (c.fmul X) acc] := by
  induction xs using List.reverseRecOn with
  | nil => exact ⟨[], rfl⟩
  | append_singleton xs y _ =>
    exact ⟨acc :: runningProducts c X acc xs, by rw [runningProducts_concat]; rfl⟩

/-- R182: the backward walk from the inverse of the last running product gives every inverse, the
last one first. -/
theorem peelInverses_eq (h : c.wf = true) {acc : Nat} {xs : List Nat} (hacc : c.CanonUnit X acc)
    (hxs : ∀ x ∈ xs, c.CanonUnit X x) :
    peelInverses c X (invValue c X (xs.foldl (c.fmul X) acc)) xs.reverse
        (acc :: runningProducts c X acc xs).dropLast.reverse =
      ((acc :: xs).map (invValue c X)).reverse := by
  induction xs using List.reverseRecOn with
  | nil => rfl
  | append_singleton xs y ih =>
    obtain ⟨hxs, hy⟩ := List.forall_mem_append.1 hxs
    have hy := hy y (List.mem_singleton_self y)
    have hP := hacc.foldl_fmul h hxs
    obtain ⟨qs, hqs⟩ := cons_runningProducts (c := c) (X := X) acc xs
    have ih := ih hxs
    rw [hqs, List.dropLast_concat] at ih
    have hdrop : (acc :: runningProducts c X acc (xs ++ [y])).dropLast =
        qs ++ [xs.foldl (c.fmul X) acc] := by
      rw [runningProducts_concat, ← List.cons_append, List.dropLast_concat, hqs]
    rw [hdrop, List.foldl_append, List.foldl_cons, List.foldl_nil]
    generalize xs.foldl (c.fmul X) acc = P at hP ih ⊢
    have hPy := hP.fmul h hy
    have hmul := Config.fmul_mul_radix h (Config.mul_lt_of_canonical h hP.1 hy.1)
    have hpeelP : c.fmul X (invValue c X (c.fmul X P y)) P = invValue c X y :=
      Config.fmul_invValue_of_mul h hPy hy hP.1 (by rwa [Nat.mul_comm y])
    have hpeely : c.fmul X (invValue c X (c.fmul X P y)) y = invValue c X P :=
      Config.fmul_invValue_of_mul h hPy hP hy.1 hmul
    simp only [List.reverse_append, List.reverse_singleton, List.singleton_append, peelInverses,
      hpeelP, hpeely, ih]
    simp

/-- R182: the procedure of BATCHINV inverts every element. -/
theorem batchInvValues_eq (h : c.wf = true) {xs : List Nat} (hxs : ∀ x ∈ xs, c.CanonUnit X x) :
    batchInvValues c X xs = xs.map (invValue c X) := by
  cases xs with
  | nil => rfl
  | cons x xs =>
    obtain ⟨hx, hxs⟩ := List.forall_mem_cons.1 hxs
    obtain ⟨qs, hqs⟩ := cons_runningProducts (c := c) (X := X) x xs
    have hlast : (x :: runningProducts c X x xs).getLastD x = xs.foldl (c.fmul X) x := by
      rw [hqs]; simp
    rw [batchInvValues, hlast, peelInverses_eq h hx hxs, List.reverse_reverse]

end Machine

/-- Settles O49: each running inverse is INV's value of a running product, and peeling a factor off
gives INV's value of that factor. -/
theorem batchIsElementwise : Obligations.BatchIsElementwise := fun _ _ _ hwf hprime hxs =>
  batchInvValues_eq hwf fun x hx =>
    Config.canonUnit_of_prime hprime (hxs x hx).1 (hxs x hx).2

end Sys2Proof
end

section
/-! INV, MAKEODD and BATCHINV as results on stored numbers (42_inverter.md R171, R176, R181). -/

namespace Sys2Proof.Machine

variable {s : State} {X : Ctx} {out x m : Word} {v : Nat} {vs : List Nat}

/-- The operand condition of INV and BATCHINV (R171, R181). -/
theorem invertible_iff {c : Config} : invertible c X v = true ↔
    v < 2 * c.modulus X ∧ v % c.modulus X ≠ 0 := by
  simp [invertible]

theorem invertible_eq_false_iff {c : Config} : invertible c X v = false ↔
    2 * c.modulus X ≤ v ∨ v % c.modulus X = 0 := by
  rw [Bool.eq_false_iff, Ne, invertible_iff, not_and_or, not_lt, not_not]

/-- With a prime modulus an operand of INV stands for an invertible residue (R171). -/
theorem canonUnit_canon {c : Config} (h : c.PrimeModuli) (hlt : v < 2 * c.modulus X)
    (h0 : v % c.modulus X ≠ 0) : c.CanonUnit X (c.canon X v) := by
  refine Config.canonUnit_of_prime h (Nat.pos_of_ne_zero ?_) (Config.canon_lt hlt)
  rwa [Config.canon_eq_mod hlt]

/-- R171: INV's value times the stored number is `R^2` modulo the modulus. -/
theorem mul_invValue_canon {c : Config} (h : c.wf = true) (hp : c.PrimeModuli)
    (hlt : v < 2 * c.modulus X) (h0 : v % c.modulus X ≠ 0) :
    v * invValue c X (c.canon X v) % c.modulus X = c.radix X ^ 2 % c.modulus X := by
  have hmul := Config.mul_invValue h (canonUnit_canon hp hlt h0)
  have hcanon : c.canon X v ≡ v [MOD c.modulus X] := by
    rw [Config.canon_eq_mod hlt]
    exact Nat.mod_modEq _ _
  exact (hcanon.symm.mul_right _).trans hmul

/-- INV (R171, R173): INV's value of the residue. -/
theorem exec_inv (hs : s.Ready) (hp : s.cfg.PrimeModuli)
    (hout : s.cfg.Writable out.toNat (s.cfg.elemBytes X))
    (hx : s.cfg.Readable x.toNat (s.cfg.elemBytes X)) (hv : s.HoldsElem X x.toNat v)
    (hlt : v < 2 * s.cfg.modulus X) (h0 : v % s.cfg.modulus X ≠ 0) :
    ∃ t, exec (.inv X out x) s = .next t ∧
      s.Lays X out.toNat (invValue s.cfg X (s.cfg.canon X v)) t := by
  have hres := Config.invValue_lt hs.wf (canonUnit_canon hp hlt h0)
  have hR := Config.two_modulus_lt_radix hs.wf X
  refine lays_of_exec hs hs.2 (by omega) ?_
  refine State.command_of_ok hs.2 (faultOf_eq_none_of_two rfl rfl rfl hout hx) ?_
  rw [State.readElem_of_holds (Config.limbBits_le hs.wf X) hv, ok_bind,
    need_of (invertible_iff.2 ⟨hlt, h0⟩), ok_bind]

/-- INV is refused outside its preconditions (R171, U5). -/
theorem exec_inv_refused (hs : s.Ready) (hout : s.cfg.Writable out.toNat (s.cfg.elemBytes X))
    (hx : s.cfg.Readable x.toNat (s.cfg.elemBytes X)) (hv : s.HoldsElem X x.toNat v)
    (hbad : 2 * s.cfg.modulus X ≤ v ∨ v % s.cfg.modulus X = 0) :
    exec (.inv X out x) s = .refused .invOperand := by
  refine State.command_of_error hs.2 (faultOf_eq_none_of_two rfl rfl rfl hout hx) ?_
  rw [State.readElem_of_holds (Config.limbBits_le hs.wf X) hv, ok_bind,
    need_of_not (invertible_eq_false_iff.2 hbad), error_bind]

/-- The checks of R289 pass for MAKEODD's one operand. -/
theorem faultOf_makeodd (hx : s.cfg.Writable x.toNat (s.cfg.elemBytes X)) :
    faultOf s (.makeodd X x) = none := by
  refine faultOf_eq_none rfl rfl fun o ho => ?_
  rw [List.mem_singleton.1 ho]
  exact Operand.write_ok hx

/-- MAKEODD (R176): the odd part in place, the count in `RES`. -/
theorem exec_makeodd (hs : s.Ready) (hx : s.cfg.Writable x.toNat (s.cfg.elemBytes X))
    (hv : s.HoldsElem X x.toNat v) (h0 : v ≠ 0) :
    exec (.makeodd X x) s = .next ((s.writeElem X x.toNat (v / 2 ^ tz v)).setRes (tz v)) := by
  refine State.command_of_ok hs.2 (faultOf_makeodd hx) ?_
  rw [State.readElem_of_holds (Config.limbBits_le hs.wf X) hv, ok_bind,
    need_of (bne_iff_ne.2 h0), ok_bind]

/-- MAKEODD of zero is refused (R176, U6). -/
theorem exec_makeodd_refused (hs : s.Ready) (hx : s.cfg.Writable x.toNat (s.cfg.elemBytes X))
    (hv : s.HoldsElem X x.toNat 0) : exec (.makeodd X x) s = .refused .makeoddZero := by
  refine State.command_of_error hs.2 (faultOf_makeodd hx) ?_
  rw [State.readElem_of_holds (Config.limbBits_le hs.wf X) hv, ok_bind]
  rfl

/-- The operands of BATCHINV and what its input array holds (R181): the pointer conditions that
every outcome below shares. -/
structure BatchOperands (s : State) (X : Ctx) (out x m : Word) (vs : List Nat) : Prop where
  ready : s.Ready
  count : m.toNat = vs.length
  out_readable : s.cfg.Readable out.toNat (m.toNat * s.cfg.elemBytes X)
  out_low : 0 < m.toNat → s.cfg.tableEnd ≤ out.toNat
  x_readable : s.cfg.Readable x.toNat (m.toNat * s.cfg.elemBytes X)
  holds : s.HoldsArray X x.toNat vs

namespace BatchOperands

/-- The checks of R289 pass; an empty array is never write-protected. -/
theorem faultOf_eq_none (h : BatchOperands s X out x m vs) :
    faultOf s (.batchinv X out x m) = none := by
  have hout : (outArray s.cfg X out m).misaligned = false ∧
      (outArray s.cfg X out m).outOfRange s.cfg = false ∧
      (outArray s.cfg X out m).writeProtected s.cfg = false := by
    obtain ⟨halign, hrange⟩ := h.out_readable
    rcases Nat.eq_zero_or_pos m.toNat with hm | hm
    · rw [hm, zero_mul] at hrange
      simpa [outArray, Operand.misaligned, Operand.outOfRange, Operand.writeProtected, hm, halign]
        using hrange
    · exact Operand.write_ok ⟨halign, hrange, h.out_low hm⟩
  refine Machine.faultOf_eq_none rfl rfl ?_
  simp only [operandsOf, List.forall_mem_cons, List.not_mem_nil, false_imp_iff, implies_true,
    and_true]
  exact ⟨hout, Operand.read_ok h.x_readable⟩

theorem readArray_eq (h : BatchOperands s X out x m vs) :
    s.readArray X m.toNat x.toNat = .ok vs := by
  rw [h.count]
  exact State.readArray_of_holds (Config.limbBits_le h.ready.wf X) h.holds

/-- BATCHINV (R181, R182): INV's value of every residue, laid as an array. -/
theorem exec_eq (h : BatchOperands s X out x m vs) (hp : s.cfg.PrimeModuli)
    (hapart : Apart out.toNat (m.toNat * s.cfg.elemBytes X) x.toNat
      (m.toNat * s.cfg.elemBytes X))
    (hvs : ∀ v ∈ vs, v < 2 * s.cfg.modulus X ∧ v % s.cfg.modulus X ≠ 0) :
    exec (.batchinv X out x m) s = .next (s.writeArray X out.toNat
      (vs.map fun v => invValue s.cfg X (s.cfg.canon X v))) := by
  have hunits : ∀ a ∈ vs.map (s.cfg.canon X), s.cfg.CanonUnit X a :=
    List.forall_mem_map.2 fun v hv => canonUnit_canon hp (hvs v hv).1 (hvs v hv).2
  have hall : vs.all (invertible s.cfg X) = true :=
    List.all_eq_true.2 fun v hv => invertible_iff.2 (hvs v hv)
  refine State.command_of_ok h.ready.2 h.faultOf_eq_none ?_
  dsimp only
  rw [need_of (by simpa using hapart), ok_bind, h.readArray_eq, ok_bind, need_of hall, ok_bind,
    batchInvValues_eq h.ready.wf hunits, List.map_map]
  rfl

/-- BATCHINV of overlapping arrays is refused (R181, U7). -/
theorem exec_refused_overlap (h : BatchOperands s X out x m vs)
    (hover : ¬Apart out.toNat (m.toNat * s.cfg.elemBytes X) x.toNat
      (m.toNat * s.cfg.elemBytes X)) :
    exec (.batchinv X out x m) s = .refused .batchinvOverlap := by
  refine State.command_of_error h.ready.2 h.faultOf_eq_none ?_
  dsimp only
  rw [need_of_not (by simpa using hover), error_bind]

/-- BATCHINV is refused for an element that INV refuses (R181, U7). -/
theorem exec_refused_operand (h : BatchOperands s X out x m vs)
    (hapart : Apart out.toNat (m.toNat * s.cfg.elemBytes X) x.toNat
      (m.toNat * s.cfg.elemBytes X))
    (hbad : ∃ v ∈ vs, 2 * s.cfg.modulus X ≤ v ∨ v % s.cfg.modulus X = 0) :
    exec (.batchinv X out x m) s = .refused .batchinvOperand := by
  have hall : vs.all (invertible s.cfg X) = false := by
    obtain ⟨v, hv, hv'⟩ := hbad
    exact List.all_eq_false.2 ⟨v, hv, by rw [invertible_eq_false_iff.2 hv']; simp⟩
  refine State.command_of_error h.ready.2 h.faultOf_eq_none ?_
  dsimp only
  rw [need_of (by simpa using hapart), ok_bind, h.readArray_eq, ok_bind, need_of_not hall,
    error_bind]

end BatchOperands

end Sys2Proof.Machine

namespace Sys2Proof

open Machine

/-- Settles O29: the loop's end state makes INV's value the inverse of the residue, by the two sides
of its precondition. -/
theorem invResult : Obligations.InvResult := by
  intro s X out x v hs hp hout hx hv
  refine ⟨fun hlt h0 => ?_, exec_inv_refused hs hout hx hv⟩
  have hunit := canonUnit_canon hp hlt h0
  obtain ⟨t, ht, hlays⟩ := exec_inv hs hp hout hx hv hlt h0
  exact ⟨t, _, ht, hlays.frame, (hunit.invValue hs.wf).pos hs.wf, Config.invValue_lt hs.wf hunit,
    mul_invValue_canon hs.wf hp hlt h0, Config.fmul_invValue hs.wf hunit,
    congrFun hlays.byteAt_eq⟩

/-- Settles O30: the odd part and the count of trailing zero bits of the stored number, and zero. -/
theorem makeoddResult : Obligations.MakeoddResult := by
  intro s X x v hs hx hv
  refine ⟨fun h0 => ?_, fun h0 => exec_makeodd_refused hs hx (h0 ▸ hv)⟩
  have hpos := Nat.pos_of_ne_zero h0
  refine ⟨_, tz v, v / 2 ^ tz v, exec_makeodd hs hx hv h0, (div_two_pow_tz_mul hpos).symm,
    odd_div_two_pow_tz hpos, ?_, fun a => ?_⟩
  · rw [State.writeElem_frame]
    rfl
  · rw [State.setRes_byteAt, State.byteAt_writeElem]

/-- Settles O31: the procedure gives INV's value of every element (O49); the empty array is the case
in which no element is written. -/
theorem batchinvResult : Obligations.BatchinvResult := by
  intro s X out x m vs hs hp hm hout hlow hx hvs
  have ops : BatchOperands s X out x m vs := ⟨hs, hm, hout, hlow, hx, hvs⟩
  refine ⟨fun h0 => ?_, fun hapart hgood => ?_, ops.exec_refused_overlap,
    ops.exec_refused_operand⟩
  · obtain rfl := List.eq_nil_of_length_eq_zero (hm ▸ h0)
    exact ops.exec_eq hp (by rw [h0, zero_mul]; omega) nofun
  · refine ⟨_, _, ops.exec_eq hp hapart hgood, State.writeArray_frame _ _ _ _, List.length_map _,
      fun j hj => ?_, congrFun (State.byteAt_writeArray (Config.elemBytes_pos hs.wf X) _ _)⟩
    have hget : (vs.map fun v => invValue s.cfg X (s.cfg.canon X v)).getD j 0 =
        invValue s.cfg X (s.cfg.canon X (vs.getD j 0)) := by
      simp [hj]
    obtain ⟨hlt, h0⟩ : vs.getD j 0 < 2 * s.cfg.modulus X ∧
        vs.getD j 0 % s.cfg.modulus X ≠ 0 := by
      rw [List.getD_eq_getElem _ _ hj]
      exact hgood _ (List.getElem_mem hj)
    rw [hget]
    exact ⟨Config.invValue_lt hs.wf (canonUnit_canon hp hlt h0),
      mul_invValue_canon hs.wf hp hlt h0, rfl⟩

end Sys2Proof
end

section
/-! The numbers that canonical elements stand for in Montgomery form (00_scope.md R14), as residues:
`fmul` and `power` become the product and the power of residues (41_montgomery_multiplier.md R157,
R158). -/

namespace Sys2Proof

namespace Config

variable {c : Config} {X : Ctx} {a b : Nat}

/-- The residue that a stored number stands for in Montgomery form (R14): `rep(mont(v)) = v`. -/
def rep (c : Config) (X : Ctx) (a : Nat) : ZMod (c.modulus X) :=
  a * (c.radix X : ZMod (c.modulus X))⁻¹

theorem rep_mont (h : c.wf = true) (X : Ctx) (v : Nat) : c.rep X (c.mont X v) = v := by
  have hR := ZMod.coe_mul_inv_eq_one (c.radix X) (radix_coprime h X)
  rw [rep, mont, ZMod.natCast_mod, Nat.cast_mul, mul_assoc, hR, mul_one]

theorem rep_fmul (h : c.wf = true) (ha : a < c.modulus X) (hb : b < c.modulus X) :
    c.rep X (c.fmul X a b) = c.rep X a * c.rep X b := by
  obtain ⟨u, -, rfl⟩ := exists_mont h ha
  obtain ⟨v, -, rfl⟩ := exists_mont h hb
  rw [fmul_mont h, rep_mont h, rep_mont h, rep_mont h, Nat.cast_mul]

theorem rep_fsqr (h : c.wf = true) (ha : a < c.modulus X) :
    c.rep X (c.fsqr X a) = c.rep X a ^ 2 := (rep_fmul h ha ha).trans (pow_two _).symm

theorem fsqr_lt (h : c.wf = true) (ha : a < c.modulus X) : c.fsqr X a < c.modulus X :=
  fmul_lt h ha ha

theorem power_lt (h : c.wf = true) (ha : a < c.modulus X) (e : Nat) :
    c.power X a e < c.modulus X := by
  obtain ⟨v, -, rfl⟩ := exists_mont h ha
  rw [powerIsExponentiation c X v e h]
  exact mont_lt h X _

theorem rep_power (h : c.wf = true) (ha : a < c.modulus X) (e : Nat) :
    c.rep X (c.power X a e) = c.rep X a ^ e := by
  obtain ⟨v, -, rfl⟩ := exists_mont h ha
  rw [powerIsExponentiation c X v e h, rep_mont h, rep_mont h, Nat.cast_pow]

/-- A canonical number is fixed by the residue it stands for. -/
theorem rep_inj (h : c.wf = true) (ha : a < c.modulus X) (hb : b < c.modulus X) :
    c.rep X a = c.rep X b ↔ a = b := by
  refine ⟨fun hab => ?_, congrArg _⟩
  obtain ⟨u, hu, rfl⟩ := exists_mont h ha
  obtain ⟨v, hv, rfl⟩ := exists_mont h hb
  rw [rep_mont h, rep_mont h, ZMod.natCast_eq_natCast_iff', Nat.mod_eq_of_lt hu,
    Nat.mod_eq_of_lt hv] at hab
  rw [hab]

theorem rep_zero (c : Config) (X : Ctx) : c.rep X 0 = 0 := by rw [rep, Nat.cast_zero, zero_mul]

theorem rep_eq_zero_iff (h : c.wf = true) (ha : a < c.modulus X) : c.rep X a = 0 ↔ a = 0 := by
  rw [← rep_zero, rep_inj h ha (modulus_pos h X)]

/-- The field's one is `R1 = mont(1)` (R192). -/
theorem rep_eq_one_iff (h : c.wf = true) (ha : a < c.modulus X) :
    c.rep X a = 1 ↔ a = c.mont X 1 := by
  rw [← rep_inj h ha (mont_lt h X 1), rep_mont h, Nat.cast_one]

/-- Every residue is that of a canonical number. -/
theorem exists_rep_eq (h : c.wf = true) (y : ZMod (c.modulus X)) :
    ∃ r < c.modulus X, c.rep X r = y := by
  have : NeZero (c.modulus X) := ⟨(modulus_pos h X).ne'⟩
  exact ⟨c.mont X y.val, mont_lt h X _, by rw [rep_mont h, ZMod.natCast_zmod_val]⟩

theorem fmul_self_eq_iff (h : c.wf = true) (ha : a < c.modulus X) (hb : b < c.modulus X) :
    c.fmul X b b = a ↔ c.rep X b ^ 2 = c.rep X a := by
  rw [← rep_inj h (fmul_lt h hb hb) ha, rep_fmul h hb hb, pow_two]

/-- Having a canonical root under `fmul` is standing for a square (log 23). -/
theorem exists_fmul_self_iff (h : c.wf = true) (ha : a < c.modulus X) :
    (∃ r < c.modulus X, c.fmul X r r = a) ↔ IsSquare (c.rep X a) := by
  rw [isSquare_iff_exists_sq]
  constructor
  · rintro ⟨r, hr, hra⟩
    exact ⟨c.rep X r, ((fmul_self_eq_iff h ha hr).1 hra).symm⟩
  · rintro ⟨y, hy⟩
    obtain ⟨r, hr, rfl⟩ := exists_rep_eq h y
    exact ⟨r, hr, (fmul_self_eq_iff h ha hr).2 hy.symm⟩

end Config

end Sys2Proof
end

section
/-! The square-root precomputation (43_square_root.md R191): `S`, `T` and the search for the least
non-residue `z`, which Euler's criterion bounds by the prime modulus. -/

namespace Sys2Proof

/-- R191: the trial finds the least candidate from `z` on, where its fuel reaches one. -/
theorem nonResidueFrom_spec {m fuel z z₀ : Nat} (hz : z ≤ z₀) (hfuel : z₀ < z + fuel)
    (h₀ : z₀ ^ ((m - 1) / 2) % m ≠ 1) :
    z ≤ nonResidueFrom m fuel z ∧ nonResidueFrom m fuel z ≤ z₀ ∧
      nonResidueFrom m fuel z ^ ((m - 1) / 2) % m ≠ 1 ∧
      ∀ y, z ≤ y → y < nonResidueFrom m fuel z → y ^ ((m - 1) / 2) % m = 1 := by
  induction fuel generalizing z with
  | zero => omega
  | succ fuel ih =>
    rw [nonResidueFrom, powMod_eq]
    split
    · rename_i hfound
      exact ⟨le_rfl, hz, hfound, by omega⟩
    · rename_i hres
      rw [not_not] at hres
      have hne : z ≠ z₀ := by
        rintro rfl
        exact h₀ hres
      obtain ⟨hle, hle₀, hfound, hleast⟩ := ih (z := z + 1) (by omega) (by omega)
      refine ⟨by omega, hle₀, hfound, fun y hy hlt => ?_⟩
      rcases hy.eq_or_lt with rfl | hy
      · exact hres
      · exact hleast y hy hlt

namespace Config

variable {c : Config} {X : Ctx}

/-- R191: `p - 1 = 2^S * T`. -/
theorem modulus_sub_one (h : c.wf = true) (X : Ctx) :
    c.modulus X - 1 = 2 ^ c.sqrtS X * c.sqrtT X := by
  have := three_le_modulus h X
  rw [mul_comm]
  exact (div_two_pow_tz_mul (a := c.modulus X - 1) (by omega)).symm

theorem sqrtT_odd (h : c.wf = true) (X : Ctx) : c.sqrtT X % 2 = 1 := by
  have := three_le_modulus h X
  exact odd_div_two_pow_tz (a := c.modulus X - 1) (by omega)

theorem sqrtS_pos (h : c.wf = true) (X : Ctx) : 1 ≤ c.sqrtS X := by
  have := three_le_modulus h X
  have := modulus_odd h X
  exact tz_pos_of_even (a := c.modulus X - 1) (by omega) (by omega)

theorem modulus_div_two (h : c.wf = true) (X : Ctx) :
    c.modulus X / 2 = (c.modulus X - 1) / 2 := by
  have := modulus_odd h X
  omega

/-- The exponent of Euler's criterion in the terms of R191. -/
theorem sqrtT_mul_two_pow (h : c.wf = true) (X : Ctx) :
    c.sqrtT X * 2 ^ (c.sqrtS X - 1) = c.modulus X / 2 := by
  have hsplit := modulus_sub_one h X
  rw [modulus_div_two h, hsplit, ← Nat.sub_add_cancel (sqrtS_pos h X), pow_succ,
    Nat.add_sub_cancel, mul_comm _ 2, mul_assoc, Nat.mul_div_cancel_left _ two_pos, mul_comm]

/-- The trial of R191 is Euler's power, of the residue. -/
theorem pow_half_mod_eq_one_iff (h : c.wf = true) (X : Ctx) (z : Nat) :
    z ^ ((c.modulus X - 1) / 2) % c.modulus X = 1 ↔
      (z : ZMod (c.modulus X)) ^ (c.modulus X / 2) = 1 := by
  have hone : 1 % c.modulus X = 1 := Nat.mod_eq_of_lt (by have := three_le_modulus h X; omega)
  have hcast := ZMod.natCast_eq_natCast_iff' (z ^ ((c.modulus X - 1) / 2)) 1 (c.modulus X)
  rw [hone, Nat.cast_pow, Nat.cast_one] at hcast
  rw [modulus_div_two h, hcast]

/-- With a prime modulus some candidate below it passes the trial of R191. -/
theorem exists_nonresidue (h : c.wf = true) (hp : c.PrimeModuli) (X : Ctx) :
    ∃ z, 2 ≤ z ∧ z < c.modulus X ∧ z ^ ((c.modulus X - 1) / 2) % c.modulus X ≠ 1 := by
  have : Fact (Nat.Prime (c.modulus X)) := ⟨prime_modulus hp X⟩
  have hchar : ringChar (ZMod (c.modulus X)) ≠ 2 := by
    have := three_le_modulus h X
    rw [ZMod.ringChar_zmod_n]
    omega
  obtain ⟨y, hy⟩ := FiniteField.exists_nonsquare hchar
  obtain ⟨z, hz, rfl⟩ : ∃ z < c.modulus X, (z : ZMod (c.modulus X)) = y :=
    ⟨y.val, y.val_lt, ZMod.natCast_zmod_val y⟩
  have h0 : z ≠ 0 := by
    rintro rfl
    exact hy (by simp)
  have h1 : z ≠ 1 := by
    rintro rfl
    exact hy (by simp)
  have hz0 : (z : ZMod (c.modulus X)) ≠ 0 := fun hz0 => hy (hz0 ▸ IsSquare.zero)
  refine ⟨z, by omega, hz, fun hpow => hy ((ZMod.euler_criterion _ hz0).2 ?_)⟩
  exact (pow_half_mod_eq_one_iff h X z).1 hpow

/-- R191: `z` is the least number from 2 on that passes the trial, and it lies below the modulus. -/
theorem sqrtZ_spec (h : c.wf = true) (hp : c.PrimeModuli) (X : Ctx) :
    2 ≤ c.sqrtZ X ∧ c.sqrtZ X < c.modulus X ∧
      c.sqrtZ X ^ ((c.modulus X - 1) / 2) % c.modulus X ≠ 1 ∧
      ∀ z, 2 ≤ z → z < c.sqrtZ X → z ^ ((c.modulus X - 1) / 2) % c.modulus X = 1 := by
  obtain ⟨z₀, htwo, hlt, hpow⟩ := exists_nonresidue h hp X
  obtain ⟨hle, hle₀, hspec⟩ :=
    nonResidueFrom_spec (fuel := c.modulus X) htwo (by omega) hpow
  exact ⟨hle, hle₀.trans_lt hlt, hspec⟩

/-- R191: Euler's power of `z` is minus one. -/
theorem sqrtZ_pow_half (h : c.wf = true) (hp : c.PrimeModuli) (X : Ctx) :
    (c.sqrtZ X : ZMod (c.modulus X)) ^ (c.modulus X / 2) = -1 := by
  have : Fact (Nat.Prime (c.modulus X)) := ⟨prime_modulus hp X⟩
  obtain ⟨htwo, hlt, hpow, -⟩ := sqrtZ_spec h hp X
  have hz0 : (c.sqrtZ X : ZMod (c.modulus X)) ≠ 0 := fun h0 => by
    have := Nat.le_of_dvd (by omega) ((ZMod.natCast_eq_zero_iff _ _).1 h0)
    omega
  refine (ZMod.pow_div_two_eq_neg_one_or_one _ hz0).resolve_left fun hone => hpow ?_
  exact (pow_half_mod_eq_one_iff h X _).2 hone

/-- R191: SQRT_C stands for an element whose order is the whole power `2^S`. -/
theorem rep_sqrtC_pow (h : c.wf = true) (hp : c.PrimeModuli) (X : Ctx) :
    c.rep X (c.tableEntry X 9) ^ 2 ^ (c.sqrtS X - 1) = -1 := by
  have hrep : c.rep X (c.tableEntry X 9) = (c.sqrtZ X : ZMod (c.modulus X)) ^ c.sqrtT X := by
    rw [← Nat.cast_pow, ← ZMod.natCast_mod, ← powMod_eq]
    exact rep_mont h X _
  rw [hrep, ← pow_mul, sqrtT_mul_two_pow h, sqrtZ_pow_half h hp]

end Config

/-- Settles O50: the odd part of `p - 1`, and the least candidate of a search that a non-square
below `p` ends. -/
theorem sqrtPrecomputation : Obligations.SqrtPrecomputation := by
  intro c X hwf hprime
  obtain ⟨htwo, hlt, hpow, hleast⟩ := Config.sqrtZ_spec hwf hprime X
  exact ⟨Config.modulus_sub_one hwf X, Config.sqrtT_odd hwf X, Config.sqrtS_pos hwf X, htwo, hlt,
    hpow, hleast, powMod_eq _ _ _, rfl⟩

end Sys2Proof
end

section
/-! The procedure of SQRT (43_square_root.md R192): one invariant, kept by every round of the loop,
carries a square to its root; a non-square ends the first round. -/

namespace Sys2Proof.Machine

open Config

variable {c : Config} {X : Ctx} {t r g b : Nat}

/-- R192: squarings are a power by a power of two. -/
theorem sqrTimes_spec (h : c.wf = true) (hb : b < c.modulus X) (n : Nat) :
    sqrTimes c X n b < c.modulus X ∧ c.rep X (sqrTimes c X n b) = c.rep X b ^ 2 ^ n := by
  induction n generalizing b with
  | zero => exact ⟨hb, by rw [sqrTimes, pow_zero, pow_one]⟩
  | succ n ih =>
    obtain ⟨hlt, hrep⟩ := ih (fsqr_lt h hb)
    refine ⟨hlt, ?_⟩
    rw [sqrTimes, hrep, rep_fsqr h hb, ← pow_mul, ← pow_succ']

/-- R192: the search fails where its last squaring does not reach one. -/
theorem findOrder_eq_none (h : c.wf = true) (ht : t < c.modulus X) {n : Nat} (i : Nat)
    (hpow : c.rep X t ^ 2 ^ n ≠ 1) : findOrder c X n t i = none := by
  induction n generalizing t i with
  | zero => rfl
  | succ n ih =>
    rw [pow_succ', pow_mul, ← rep_fsqr h ht] at hpow
    have hne : c.fsqr X t ≠ c.mont X 1 := fun hone => by
      rw [(rep_eq_one_iff h (fsqr_lt h ht)).2 hone, one_pow] at hpow
      exact hpow rfl
    rw [findOrder, if_neg hne]
    exact ih (fsqr_lt h ht) (i + 1) hpow

/-- R192: the search succeeds where its last squaring reaches one, and the squaring before the one
it stops at gives minus one, the other square root of one. -/
theorem findOrder_eq_some (h : c.wf = true) (hp : c.PrimeModuli) (ht : t < c.modulus X) {n : Nat}
    (i : Nat) (hne : c.rep X t ≠ 1) (hpow : c.rep X t ^ 2 ^ n = 1) :
    ∃ k < n, findOrder c X n t i = some (i + (k + 1)) ∧ c.rep X t ^ 2 ^ k = -1 := by
  have : Fact (Nat.Prime (c.modulus X)) := ⟨prime_modulus hp X⟩
  induction n generalizing t i with
  | zero => exact absurd (by simpa using hpow) hne
  | succ n ih =>
    have hsq := fsqr_lt h ht
    by_cases hone : c.fsqr X t = c.mont X 1
    · refine ⟨0, n.succ_pos, by rw [findOrder, if_pos hone], ?_⟩
      rw [← rep_eq_one_iff h hsq, rep_fsqr h ht, sq_eq_one_iff] at hone
      simpa using hone.resolve_left hne
    · rw [pow_succ', pow_mul, ← rep_fsqr h ht] at hpow
      obtain ⟨k, hk, hfind, hneg⟩ := ih hsq (i + 1) (mt (rep_eq_one_iff h hsq).1 hone) hpow
      refine ⟨k + 1, by omega, ?_, ?_⟩
      · rw [findOrder, if_neg hone, hfind]
        congr 1
        omega
      · rwa [rep_fsqr h ht, ← pow_mul, ← pow_succ'] at hneg

/-- The invariant of R192 for a root of `a`, before a round with `M = n + 1`: `r` is a root up to
`t`, whose order divides `2^n`, and `g` has the order `2^(n+1)`. -/
structure SqrtInv (c : Config) (X : Ctx) (a : ZMod (c.modulus X)) (n t r g : Nat) : Prop where
  t_lt : t < c.modulus X
  r_lt : r < c.modulus X
  g_lt : g < c.modulus X
  root : c.rep X r ^ 2 = a * c.rep X t
  order_t : c.rep X t ^ 2 ^ n = 1
  order_g : c.rep X g ^ 2 ^ n = -1

namespace SqrtInv

variable {a : ZMod (c.modulus X)} {n k fuel : Nat}

/-- A round of R192 that found the order `2^(k+1)` of `t`. -/
theorem step (hi : SqrtInv c X a n t r g) (h : c.wf = true) (hk : k < n)
    (hneg : c.rep X t ^ 2 ^ k = -1) (hb : b = sqrTimes c X (n - (k + 1)) g) :
    SqrtInv c X a k (c.fmul X t (c.fsqr X b)) (c.fmul X r b) (c.fsqr X b) := by
  obtain ⟨hlt, hrep⟩ := sqrTimes_spec h hi.g_lt (n - (k + 1))
  rw [← hb] at hlt hrep
  have hg' := fsqr_lt h hlt
  have horder : c.rep X (c.fsqr X b) ^ 2 ^ k = -1 := by
    rw [rep_fsqr h hlt, hrep, ← pow_mul, ← pow_mul, ← pow_succ', ← pow_add,
      Nat.sub_add_cancel hk, hi.order_g]
  refine ⟨fmul_lt h hi.t_lt hg', fmul_lt h hi.r_lt hlt, hg', ?_, ?_, horder⟩
  · rw [rep_fmul h hi.r_lt hlt, rep_fmul h hi.t_lt hg', rep_fsqr h hlt, mul_pow, hi.root,
      mul_assoc]
  · rw [rep_fmul h hi.t_lt hg', mul_pow, hneg, horder, neg_mul_neg, one_mul]

/-- R192, R195: with a round of fuel for every value of `M` the loop ends at a root. -/
theorem loop (hi : SqrtInv c X a n t r g) (h : c.wf = true) (hp : c.PrimeModuli)
    (hfuel : n < fuel) :
    ∃ u < c.modulus X, sqrtLoop c X fuel t r g (n + 1) = some u ∧ c.rep X u ^ 2 = a := by
  have : Fact (Nat.Prime (c.modulus X)) := ⟨prime_modulus hp X⟩
  induction fuel generalizing n t r g with
  | zero => omega
  | succ fuel ih =>
    have ht0 : t ≠ 0 := by
      rintro rfl
      have := hi.order_t
      rw [rep_zero, zero_pow (by positivity)] at this
      exact zero_ne_one this
    rw [sqrtLoop, if_neg ht0]
    by_cases hone : t = c.mont X 1
    · have hroot := hi.root
      rw [(rep_eq_one_iff h hi.t_lt).2 hone, mul_one] at hroot
      exact ⟨r, hi.r_lt, if_pos hone, hroot⟩
    · obtain ⟨k, hk, hfind, hneg⟩ := findOrder_eq_some h hp hi.t_lt 0
        (mt (rep_eq_one_iff h hi.t_lt).1 hone) hi.order_t
      rw [Nat.zero_add] at hfind
      rw [if_neg hone, Nat.add_sub_cancel, hfind]
      exact ih (hi.step h hk hneg (by congr 1; omega)) (by omega)

end SqrtInv

/-- R192: the loop fails in its first round where the last squaring of `t` does not reach one. -/
theorem sqrtLoop_eq_none (h : c.wf = true) (ht : t < c.modulus X) {M : Nat} (fuel : Nat)
    (h0 : c.rep X t ≠ 0) (hpow : c.rep X t ^ 2 ^ (M - 1) ≠ 1) :
    sqrtLoop c X fuel t r g M = none := by
  cases fuel with
  | zero => rfl
  | succ fuel =>
    have hone : c.rep X t ≠ 1 := fun hone => hpow (by rw [hone, one_pow])
    rw [sqrtLoop, if_neg (mt (rep_eq_zero_iff h ht).2 h0), if_neg (mt (rep_eq_one_iff h ht).2 hone),
      findOrder_eq_none h ht 0 hpow]

/-- Euler's criterion on the start value `t = a^T` of R192. -/
theorem rep_power_sqrtT_pow (h : c.wf = true) (hb : b < c.modulus X) :
    c.rep X (c.power X b (c.sqrtT X)) ^ 2 ^ (c.sqrtS X - 1) = c.rep X b ^ (c.modulus X / 2) := by
  rw [rep_power h hb, ← pow_mul, sqrtT_mul_two_pow h]

/-- R192: the start value `r = a^((T+1)/2)` is a root of `a` up to the start value `t`. -/
theorem rep_power_half_sq (h : c.wf = true) (hb : b < c.modulus X) :
    c.rep X (c.power X b ((c.sqrtT X + 1) / 2)) ^ 2 =
      c.rep X b * c.rep X (c.power X b (c.sqrtT X)) := by
  have hT := sqrtT_odd h X
  rw [rep_power h hb, rep_power h hb, ← pow_mul, ← pow_succ',
    show (c.sqrtT X + 1) / 2 * 2 = c.sqrtT X + 1 by omega]

/-- R192: the start values meet the invariant where `a` is a nonzero square. -/
theorem sqrtInv_start (h : c.wf = true) (hp : c.PrimeModuli) (hb : b < c.modulus X)
    (h0 : c.rep X b ≠ 0) (hsq : IsSquare (c.rep X b)) :
    SqrtInv c X (c.rep X b) (c.sqrtS X - 1) (c.power X b (c.sqrtT X))
      (c.power X b ((c.sqrtT X + 1) / 2)) (c.tableEntry X 9) where
  t_lt := power_lt h hb _
  r_lt := power_lt h hb _
  g_lt := tableEntry_lt_modulus h X (by omega)
  root := rep_power_half_sq h hb
  order_t := by
    have : Fact (Nat.Prime (c.modulus X)) := ⟨prime_modulus hp X⟩
    exact (rep_power_sqrtT_pow h hb).trans ((ZMod.euler_criterion _ h0).1 hsq)
  order_g := rep_sqrtC_pow h hp X

/-- R193: SQRT finds a canonical root of a square. -/
theorem sqrtValue_of_isSquare (h : c.wf = true) (hp : c.PrimeModuli) (hb : b < c.modulus X)
    (hsq : IsSquare (c.rep X b)) :
    ∃ u < c.modulus X, sqrtValue c X (c.tableEntry X 9) b = some u ∧ c.fmul X u u = b := by
  have hS : c.sqrtS X - 1 + 1 = c.sqrtS X := Nat.sub_add_cancel (sqrtS_pos h X)
  have hT := sqrtT_odd h X
  suffices hroot : ∃ u < c.modulus X, sqrtValue c X (c.tableEntry X 9) b = some u ∧
      c.rep X u ^ 2 = c.rep X b by
    obtain ⟨u, hu, hval, hsqr⟩ := hroot
    exact ⟨u, hu, hval, (fmul_self_eq_iff h hb hu).2 hsqr⟩
  unfold sqrtValue
  by_cases h0 : c.rep X b = 0
  · have ht0 : c.power X b (c.sqrtT X) = 0 := by
      rw [← rep_eq_zero_iff h (power_lt h hb _), rep_power h hb, h0, zero_pow (by omega)]
    refine ⟨_, power_lt h hb _, ?_, by rw [rep_power_half_sq h hb, h0, zero_mul]⟩
    rw [← hS, sqrtLoop, if_pos ht0]
  · have hend := (sqrtInv_start h hp hb h0 hsq).loop h hp (fuel := c.sqrtS X) (by omega)
    rwa [hS] at hend

/-- R193: SQRT finds no root of a non-square. -/
theorem sqrtValue_eq_none (h : c.wf = true) (hp : c.PrimeModuli) (hb : b < c.modulus X)
    (hsq : ¬IsSquare (c.rep X b)) : sqrtValue c X g b = none := by
  have : Fact (Nat.Prime (c.modulus X)) := ⟨prime_modulus hp X⟩
  have hb0 : c.rep X b ≠ 0 := fun hb0 => hsq (hb0 ▸ IsSquare.zero)
  refine sqrtLoop_eq_none h (power_lt h hb _) _ ?_ ?_
  · rw [rep_power h hb]
    exact pow_ne_zero _ hb0
  · rw [rep_power_sqrtT_pow h hb]
    exact mt (ZMod.euler_criterion _ hb0).2 hsq

end Sys2Proof.Machine
end

section
/-! SQRT as a result on stored numbers (43_square_root.md R192 to R194). -/

namespace Sys2Proof.Machine

variable {s : State} {X : Ctx} {scratch out x : Word} {v u : Nat}

/-- The operands of SQRT and what its input holds (R192): the pointer conditions that every outcome
below shares. -/
structure SqrtOperands (s : State) (X : Ctx) (scratch out x : Word) (v : Nat) : Prop where
  ready : s.Ready
  scratch_ok : s.cfg.Writable scratch.toNat (4 * s.cfg.elemBytes X)
  out_ok : s.cfg.Writable out.toNat (s.cfg.elemBytes X)
  x_ok : s.cfg.Readable x.toNat (s.cfg.elemBytes X)
  holds : s.HoldsElem X x.toNat v

namespace SqrtOperands

/-- The checks of R289 pass. -/
theorem faultOf_eq_none (h : SqrtOperands s X scratch out x v) :
    faultOf s (.sqrt X scratch out x) = none := by
  refine Machine.faultOf_eq_none rfl rfl ?_
  simp only [operandsOf, List.forall_mem_cons, List.not_mem_nil, false_imp_iff, implies_true,
    and_true]
  exact ⟨Operand.write_ok h.scratch_ok, Operand.write_ok h.out_ok, Operand.read_ok h.x_ok⟩

theorem readElem_eq (h : SqrtOperands s X scratch out x v) : s.readElem X x.toNat = .ok v :=
  State.readElem_of_holds (Config.limbBits_le h.ready.wf X) h.holds

/-- SQRT reads its constant from the table (R30, entry 9). -/
theorem readElem_sqrtC (h : SqrtOperands s X scratch out x v) :
    s.readElem X (s.cfg.entryPtr X 9) = .ok (s.cfg.tableEntry X 9) :=
  State.readElem_of_holds (Config.limbBits_le h.ready.wf X)
    (State.holds_entry h.ready.wf h.ready.inRange (by omega)
      (Config.tableEntry_lt_radix h.ready.wf X 9))

/-- SQRT with a root (R192): the root at `out`, then the scratch bytes unspecified. -/
theorem exec_root (h : SqrtOperands s X scratch out x v) (hlt : v < 2 * s.cfg.modulus X)
    (hval : sqrtValue s.cfg X (s.cfg.tableEntry X 9) (s.cfg.canon X v) = some u) :
    exec (.sqrt X scratch out x) s = .next (((s.writeElem X out.toNat u).forget scratch.toNat
      (4 * s.cfg.elemBytes X)).setOk true) := by
  refine State.command_of_ok h.ready.2 h.faultOf_eq_none ?_
  rw [h.readElem_eq, ok_bind, need_of (decide_eq_true hlt), ok_bind, h.readElem_sqrtC, ok_bind,
    hval]

/-- SQRT without a root (R192): the bytes of `out` and of the scratch operand unspecified. -/
theorem exec_no_root (h : SqrtOperands s X scratch out x v) (hlt : v < 2 * s.cfg.modulus X)
    (hval : sqrtValue s.cfg X (s.cfg.tableEntry X 9) (s.cfg.canon X v) = none) :
    exec (.sqrt X scratch out x) s = .next (((s.forget out.toNat (s.cfg.elemBytes X)).forget
      scratch.toNat (4 * s.cfg.elemBytes X)).setOk false) := by
  refine State.command_of_ok h.ready.2 h.faultOf_eq_none ?_
  rw [h.readElem_eq, ok_bind, need_of (decide_eq_true hlt), ok_bind, h.readElem_sqrtC, ok_bind,
    hval]

/-- SQRT is refused from `2p` on (R193, U8). -/
theorem exec_refused (h : SqrtOperands s X scratch out x v) (hle : 2 * s.cfg.modulus X ≤ v) :
    exec (.sqrt X scratch out x) s = .refused .sqrtBound := by
  refine State.command_of_error h.ready.2 h.faultOf_eq_none ?_
  rw [h.readElem_eq, ok_bind, need_of_not (decide_eq_false hle.not_gt), error_bind]

end SqrtOperands

end Sys2Proof.Machine

namespace Sys2Proof

open Machine

/-- Settles O32: a canonical root exists exactly where the residue is a square; there the loop ends
at a root, elsewhere Euler's criterion ends it without one. -/
theorem sqrtResult : Obligations.SqrtResult := by
  intro s X scratch out x v hs hp hscratch hout hx hv
  have ops : SqrtOperands s X scratch out x v := ⟨hs, hscratch, hout, hx, hv⟩
  obtain ⟨-, -, hscratch_low⟩ := hscratch
  obtain ⟨-, -, hout_low⟩ := hout
  refine ⟨fun hlt hroot => ?_, fun hlt hnone => ?_, ops.exec_refused⟩
  · have hcanon := Config.canon_lt hlt
    rw [Config.exists_fmul_self_iff hs.wf hcanon] at hroot
    obtain ⟨u, hu, hval, hsqr⟩ := sqrtValue_of_isSquare hs.wf hp hcanon hroot
    refine ⟨_, u, ops.exec_root hlt hval, rfl, hu, hsqr, fun h0 => ?_, fun a => ?_⟩
    · have : Fact (Nat.Prime (s.cfg.modulus X)) := ⟨Config.prime_modulus hp X⟩
      rw [Config.fmul_self_eq_iff hs.wf hcanon hu, h0, Config.rep_zero, sq_eq_zero_iff,
        Config.rep_eq_zero_iff hs.wf hu] at hsqr
      exact hsqr
    · rw [State.setOk_byteAt, State.byteAt_forget (s := s.writeElem X out.toNat u) hscratch_low,
        State.byteAt_writeElem]
  · have hcanon := Config.canon_lt hlt
    rw [Config.exists_fmul_self_iff hs.wf hcanon] at hnone
    refine ⟨_, ops.exec_no_root hlt (sqrtValue_eq_none hs.wf hp hcanon hnone), rfl, fun a => ?_⟩
    rw [State.setOk_byteAt,
      State.byteAt_forget (s := s.forget out.toNat (s.cfg.elemBytes X)) hscratch_low,
      State.byteAt_forget hout_low]

end Sys2Proof
end

section
/-! The extended Euclidean sequence of R211 (44_scalar_decomposer.md) as the iteration of one step,
and `basis` as what R211 selects from it: a basis in the lattice whose determinant is `q` up to its
sign (R212). -/

namespace Sys2Proof

/-- Two consecutive rows `(r_i, t_i)`, `(r_(i+1), t_(i+1))` of the sequence (R211). -/
structure EuclidRows where
  r0 : Nat
  r1 : Nat
  t0 : Int
  t1 : Int

/-- Both vectors of a basis lie in the lattice of `lam` modulo `q` (R210). -/
def Basis.InLattice (q lam : Nat) (v : Basis) : Prop :=
  (q : Int) ∣ v.a1 + v.b1 * lam ∧ (q : Int) ∣ v.a2 + v.b2 * lam

namespace EuclidRows

/-- One division step (R211); after the remainder 0 the sequence stays at 0. -/
def next (p : EuclidRows) : EuclidRows where
  r0 := p.r1
  r1 := if p.r1 = 0 then 0 else p.r0 % p.r1
  t0 := p.t1
  t1 := p.t0 - (p.r0 / p.r1 : Nat) * p.t1

/-- Rows 0 and 1 of the sequence of `(q, lam)` (R211). -/
def start (q lam : Nat) : EuclidRows := ⟨q, lam, 0, 1⟩

/-- The basis R211 selects at rows `l` and `l+1`. -/
def select (p : EuclidRows) : Basis := basisAt p.r0 p.r1 p.t0 p.t1

variable {q lam : Nat} {p : EuclidRows}

@[simp] theorem select_a1 (p : EuclidRows) : p.select.a1 = p.r1 := by
  unfold select basisAt
  dsimp only
  split <;> rfl

@[simp] theorem select_b1 (p : EuclidRows) : p.select.b1 = -p.t1 := by
  unfold select basisAt
  dsimp only
  split <;> rfl

@[simp] theorem next_r0 (p : EuclidRows) : p.next.r0 = p.r1 := rfl
@[simp] theorem next_t0 (p : EuclidRows) : p.next.t0 = p.t1 := rfl
@[simp] theorem next_t1 (p : EuclidRows) :
    p.next.t1 = p.t0 - (p.r0 / p.r1 : Nat) * p.t1 := rfl

theorem next_r1_of_pos (h : 0 < p.r1) : p.next.r1 = p.r0 % p.r1 := if_neg h.ne'

theorem next_r1_of_zero (h : p.r1 = 0) : p.next.r1 = 0 := if_pos h

theorem next_r1_eq_sub (h : 0 < p.r1) : p.next.r1 = p.r0 - p.r0 / p.r1 * p.r1 := by
  rw [next_r1_of_pos h, Nat.mod_eq_sub_div_mul]

theorem cast_sub_div_mul (a b : Nat) : ((a - a / b * b : Nat) : Int) = a - (a / b : Nat) * b := by
  rw [Nat.cast_sub (Nat.div_mul_le_self a b), Nat.cast_mul]

theorem next_r1_le (p : EuclidRows) : p.next.r1 ≤ p.r1 := by
  rcases Nat.eq_zero_or_pos p.r1 with h | h
  · rw [next_r1_of_zero h, h]
  · rw [next_r1_of_pos h]
    exact (Nat.mod_lt _ h).le

/-- The quotient is at least 1, so a division step halves the product of two consecutive remainders;
this bounds the number of steps (R318). -/
theorem two_mul_next_mul_le (h : 0 < p.r1) (hle : p.r1 ≤ p.r0) :
    2 * (p.next.r0 * p.next.r1) ≤ p.r0 * p.r1 := by
  rw [next_r0, next_r1_of_pos h]
  have hdiv := Nat.div_add_mod p.r0 p.r1
  have hquot : p.r1 * 1 ≤ p.r1 * (p.r0 / p.r1) := Nat.mul_le_mul_left _ (Nat.div_pos hle h)
  have hmod := Nat.mod_lt p.r0 h
  calc 2 * (p.r1 * (p.r0 % p.r1)) = 2 * (p.r0 % p.r1) * p.r1 := by ring
    _ ≤ p.r0 * p.r1 := Nat.mul_le_mul_right _ (by omega)

/-- `v2` is row `l` where that is no longer than row `l+2` (R211). -/
theorem select_v2_of_le (hpos : 0 < p.r1)
    (h : (p.r0 : Int) ^ 2 + p.t0 ^ 2 ≤ p.next.r1 ^ 2 + p.next.t1 ^ 2) :
    p.select.a2 = p.r0 ∧ p.select.b2 = -p.t0 := by
  rw [next_r1_eq_sub hpos, next_t1, sq, sq, sq, sq] at h
  unfold select basisAt
  dsimp only
  rw [if_pos h]
  exact ⟨rfl, rfl⟩

/-- `v2` is row `l+2` where that is shorter than row `l` (R211). -/
theorem select_v2_of_lt (hpos : 0 < p.r1)
    (h : (p.next.r1 : Int) ^ 2 + p.next.t1 ^ 2 < (p.r0 : Int) ^ 2 + p.t0 ^ 2) :
    p.select.a2 = p.next.r1 ∧ p.select.b2 = -p.next.t1 := by
  rw [next_r1_eq_sub hpos, next_t1] at h ⊢
  rw [sq, sq, sq, sq] at h
  unfold select basisAt
  dsimp only
  rw [if_neg h.not_ge]
  exact ⟨rfl, rfl⟩

/-- Both rows lie in the lattice: `r = t * lam` modulo `q` (R210). -/
def InLattice (q lam : Nat) (p : EuclidRows) : Prop :=
  (q : Int) ∣ p.r0 - p.t0 * lam ∧ (q : Int) ∣ p.r1 - p.t1 * lam

theorem inLattice_start (q lam : Nat) : (start q lam).InLattice q lam := by
  simp [InLattice, start]

/-- So does the row that the next division gives. -/
theorem InLattice.dvd_remainder (h : p.InLattice q lam) :
    (q : Int) ∣ (p.r0 - p.r0 / p.r1 * p.r1 : Nat) - (p.t0 - (p.r0 / p.r1 : Nat) * p.t1) * lam := by
  rw [cast_sub_div_mul]
  have hrow := dvd_sub h.1 (h.2.mul_left ((p.r0 / p.r1 : Nat) : Int))
  calc (q : Int) ∣ (p.r0 - p.t0 * lam) - (p.r0 / p.r1 : Nat) * (p.r1 - p.t1 * lam) := hrow
    _ = p.r0 - (p.r0 / p.r1 : Nat) * p.r1 - (p.t0 - (p.r0 / p.r1 : Nat) * p.t1) * lam := by ring

theorem InLattice.next (h : p.InLattice q lam) (hpos : 0 < p.r1) : p.next.InLattice q lam := by
  refine ⟨h.2, ?_⟩
  rw [next_r1_eq_sub hpos]
  exact h.dvd_remainder

theorem InLattice.select (h : p.InLattice q lam) : p.select.InLattice q lam := by
  unfold EuclidRows.select basisAt Basis.InLattice
  dsimp only
  split <;> simp only [neg_mul, ← sub_eq_add_neg]
  · exact ⟨h.2, h.1⟩
  · exact ⟨h.2, h.dvd_remainder⟩

/-- The rows have coprime remainders and span a parallelogram of area `q` (R212). -/
def Spans (q : Nat) (p : EuclidRows) : Prop :=
  Nat.Coprime p.r0 p.r1 ∧ ((p.r0 : Int) * p.t1 - p.r1 * p.t0).natAbs = q

theorem spans_start (h : Nat.Coprime q lam) : (start q lam).Spans q :=
  ⟨h, by simp [start]⟩

theorem Spans.next (h : p.Spans q) (hpos : 0 < p.r1) : p.next.Spans q := by
  obtain ⟨hcop, harea⟩ := h
  refine ⟨?_, ?_⟩
  · rw [next_r0, next_r1_of_pos hpos, Nat.coprime_comm, Nat.Coprime, ← Nat.gcd_rec]
    exact hcop.symm
  · rw [← harea, ← Int.natAbs_neg, next_r1_eq_sub hpos, cast_sub_div_mul, next_r0, next_t0, next_t1]
    congr 1
    ring

/-- R212: whichever row is chosen for `v2`, the determinant is the area of the two rows up to its
sign. -/
theorem Spans.natAbs_det_select (h : p.Spans q) : p.select.det.natAbs = q := by
  rw [← h.2]
  unfold EuclidRows.select basisAt Basis.det
  dsimp only
  split
  · congr 1
    ring
  · rw [cast_sub_div_mul]
    congr 1
    ring

/-- `basisFrom` stops where the remainders pass the square root of `q` (R211): the fuel lasts, as
the product of two consecutive remainders is halved by every step. -/
theorem basisFrom_eq_select {fuel : Nat} (hle : p.r1 ≤ p.r0) (hq : 0 < q) (h0 : q ≤ p.r0 ^ 2)
    (hfuel : p.r0 * p.r1 < 2 ^ fuel) :
    ∃ l, basisFrom q fuel p.r0 p.r1 p.t0 p.t1 = (next^[l] p).select ∧
      q ≤ (next^[l] p).r0 ^ 2 ∧ (next^[l] p).r1 ^ 2 < q ∧ ∀ i < l, 0 < (next^[i] p).r1 := by
  induction fuel generalizing p with
  | zero =>
    have hr0 : p.r0 ≠ 0 := by rintro h; rw [h] at h0; omega
    have hr1 : p.r1 = 0 := by simpa [hr0] using hfuel
    exact ⟨0, rfl, h0, by rw [Function.iterate_zero_apply, hr1]; omega, nofun⟩
  | succ fuel ih =>
    rw [basisFrom]
    split
    · rename_i h1
      exact ⟨0, rfl, h0, by rwa [Function.iterate_zero_apply, sq], nofun⟩
    · rename_i h1
      rw [not_lt, ← sq] at h1
      have hpos : 0 < p.r1 := by
        by_contra h
        rw [Nat.eq_zero_of_not_pos h] at h1
        omega
      have hhalf := two_mul_next_mul_le hpos hle
      rw [pow_succ] at hfuel
      obtain ⟨l, hsel, hl, hl1, hlpos⟩ := ih (p := p.next) p.next_r1_le h1 (by omega)
      rw [next_r1_of_pos hpos] at hsel
      refine ⟨l + 1, hsel, hl, hl1, fun i hi => ?_⟩
      cases i with
      | zero => exact hpos
      | succ i => exact hlpos i (by omega)

theorem start_mul_lt (h : lam < q) :
    (start q lam).r0 * (start q lam).r1 < 2 ^ (2 * bitlength q) := by
  have hq := lt_two_pow_bitlength q
  rw [two_mul, pow_add]
  exact Nat.mul_lt_mul'' hq (h.trans hq)

/-- Rows `i` and `i+1` of the sequence of `(q, lam)` (R211). -/
def rows (q lam i : Nat) : EuclidRows := next^[i] (start q lam)

theorem rows_succ (q lam i : Nat) : rows q lam (i + 1) = (rows q lam i).next :=
  Function.iterate_succ_apply' _ _ _

/-- R211: `basis(q, lam)` is selected at the rows where the remainders pass the square root of
`q`. -/
theorem basis_eq_select (h : lam < q) :
    ∃ l, basis q lam = (rows q lam l).select ∧ q ≤ (rows q lam l).r0 ^ 2 ∧
      (rows q lam l).r1 ^ 2 < q ∧ ∀ i < l, 0 < (rows q lam i).r1 :=
  basisFrom_eq_select (p := start q lam) h.le (by omega) (Nat.le_self_pow (by norm_num) q)
    (start_mul_lt h)

/-- A property of consecutive rows that a division step keeps holds up to the end of the sequence. -/
theorem rows_induction {P : EuclidRows → Prop} {l : Nat} (h0 : P (start q lam))
    (hstep : ∀ p : EuclidRows, P p → 0 < p.r1 → P p.next)
    (hpos : ∀ i < l, 0 < (rows q lam i).r1) : P (rows q lam l) := by
  induction l with
  | zero => exact h0
  | succ l ih =>
    rw [rows_succ]
    exact hstep _ (ih fun i hi => hpos i (hi.trans l.lt_succ_self)) (hpos l l.lt_succ_self)

/-- The remainders never grow. -/
theorem antitone_remainder (h : lam ≤ q) : Antitone fun i => (rows q lam i).r0 := by
  refine antitone_nat_of_succ_le fun i => ?_
  rw [rows_succ]
  cases i with
  | zero => exact h
  | succ i =>
    rw [rows_succ]
    exact next_r1_le _

/-- Before the end of the sequence the remainder 0 cannot follow a remainder whose square is at
least `q > 1`: coprime remainders end at 1. -/
theorem Spans.r1_pos (h : p.Spans q) (hq : 1 < q) (h0 : q ≤ p.r0 ^ 2) : 0 < p.r1 := by
  refine Nat.pos_of_ne_zero fun h1 => ?_
  have hr0 : p.r0 = 1 := by simpa [h1] using h.1
  rw [hr0] at h0
  omega

end EuclidRows

/-- R210: both vectors of `basis(q, lam)` lie in the lattice, whatever the divisors of `q`. -/
theorem basis_inLattice {q lam : Nat} (h : lam < q) : (basis q lam).InLattice q lam := by
  obtain ⟨l, hsel, -, -, hpos⟩ := EuclidRows.basis_eq_select h
  rw [hsel]
  exact (EuclidRows.rows_induction (EuclidRows.inLattice_start q lam)
    (fun _ => EuclidRows.InLattice.next) hpos).select

/-- R212: the rows `basis(q, lam)` is selected at. -/
theorem basis_eq_select_of_coprime {q lam : Nat} (h0 : 0 < lam) (h : lam < q)
    (hcop : Nat.Coprime q lam) :
    ∃ l, basis q lam = (EuclidRows.rows q lam l).select ∧ q ≤ (EuclidRows.rows q lam l).r0 ^ 2 ∧
      (EuclidRows.rows q lam l).r1 ^ 2 < q ∧ 0 < (EuclidRows.rows q lam l).r1 ∧
      (EuclidRows.rows q lam l).Spans q := by
  obtain ⟨l, hsel, hl, hl1, hpos⟩ := EuclidRows.basis_eq_select h
  have hspans := EuclidRows.rows_induction (EuclidRows.spans_start hcop)
    (fun _ => EuclidRows.Spans.next) hpos
  exact ⟨l, hsel, hl, hl1, hspans.r1_pos (by omega) hl, hspans⟩

/-- R212: the determinant of `basis(q, lam)` is `q` up to its sign, and the first component of its
first vector a positive number below the square root of `q`. -/
theorem basis_spans {q lam : Nat} (h0 : 0 < lam) (h : lam < q) (hcop : Nat.Coprime q lam) :
    (basis q lam).det.natAbs = q ∧ 0 < (basis q lam).a1 ∧ (basis q lam).a1 ^ 2 < q := by
  obtain ⟨l, hsel, -, hl1, hr1, hspans⟩ := basis_eq_select_of_coprime h0 h hcop
  rw [hsel, EuclidRows.select_a1]
  exact ⟨hspans.natAbs_det_select, by exact_mod_cast hr1, by exact_mod_cast hl1⟩

/-- Settles O51: the sequence is the iteration of one division step; the rows it is read at have the
lattice and the determinant as invariants, and coprime remainders do not end before them. -/
theorem basisSpansTheLattice : Obligations.BasisSpansTheLattice := by
  intro q lam h0 hlt hcop
  obtain ⟨hmem1, hmem2⟩ := basis_inLattice hlt
  refine ⟨?_, hmem1, hmem2, basis_spans h0 hlt hcop⟩
  obtain ⟨l, hsel, hl, hl1, hr1, -⟩ := basis_eq_select_of_coprime h0 hlt hcop
  have hsucc := EuclidRows.rows_succ q lam
  refine ⟨fun i => (EuclidRows.rows q lam i).r0, fun i => (EuclidRows.rows q lam i).t0, l,
    rfl, rfl, rfl, rfl, fun i hi => ?_, fun i hi => ?_, hl, fun j hj => ?_, ?_, ?_, ?_, ?_, ?_⟩
  · simp only [hsucc, EuclidRows.next_r0, EuclidRows.next_t0] at hi ⊢
    exact ⟨EuclidRows.next_r1_eq_sub (Nat.pos_of_ne_zero hi), EuclidRows.next_t1 _⟩
  · simp only [hsucc, EuclidRows.next_r0] at hi ⊢
    exact EuclidRows.next_r1_of_zero hi
  · have hle : (EuclidRows.rows q lam j).r0 ≤ (EuclidRows.rows q lam (l + 1)).r0 :=
      EuclidRows.antitone_remainder hlt.le hj
    rw [hsucc] at hle
    exact (Nat.pow_le_pow_left hle 2).trans_lt hl1
  · simp only [hsucc, EuclidRows.next_r0]
    exact hr1.ne'
  · simp only [hsucc, hsel, EuclidRows.select_a1, EuclidRows.next_r0]
  · simp only [hsucc, hsel, EuclidRows.select_b1, EuclidRows.next_t0]
  · simp only [hsucc, hsel]
    exact EuclidRows.select_v2_of_le hr1
  · simp only [hsucc, hsel]
    exact EuclidRows.select_v2_of_lt hr1

end Sys2Proof
end

section
/-! The Barrett steps as exact divisions (44_scalar_decomposer.md R217 (b), R225): the error of the
truncated constant is too small to pass the next integer. -/

namespace Sys2Proof

section Barrett

variable {q v b H : Nat}

/-- A quotient of `N / D`, with `x / P` below it by an error that the remainder of `N / D` makes up
for, is not changed by the error. -/
theorem div_eq_div_of_error {D x r P N : Nat} (hD : 0 < D) (hP : 0 < P)
    (h : D * x + r = P * N) (hr : r ≤ P * (N % D)) : x / P = N / D := by
  have hN : P * N = D * (N / D * P) + P * (N % D) := by
    conv_lhs => rw [← Nat.div_add_mod N D]
    ring
  refine Nat.div_eq_of_lt_le (Nat.le_of_mul_le_mul_left (by omega) hD) ?_
  refine Nat.lt_of_mul_lt_mul_left (a := D) ?_
  calc D * x ≤ P * N := by omega
    _ < P * (D * (N / D + 1)) := Nat.mul_lt_mul_of_pos_left (Nat.lt_mul_div_succ N hD) hP
    _ = D * ((N / D + 1) * P) := by ring

/-- What a Barrett step with the shift `2 * H` computes is off by what the constant
`g = floor(2 * H * b / q)` drops, `v` times. -/
theorem mul_barrett_add (hv : v < q) (H b : Nat) :
    ∃ r, r ≤ q * q ∧ q * (v * (2 * H * b / q)) + r = 2 * H * (v * b) := by
  refine ⟨v * (2 * H * b % q), Nat.mul_le_mul hv.le (Nat.mod_lt _ (by omega)).le, ?_⟩
  calc q * (v * (2 * H * b / q)) + v * (2 * H * b % q)
      = v * (q * (2 * H * b / q) + 2 * H * b % q) := by ring
    _ = 2 * H * (v * b) := by rw [Nat.div_add_mod]; ring

/-- R217 (b): with the rounding bit a Barrett step rounds to nearest. `2 * v * b + q` is no multiple
of `2 * q`, as `q` is odd. -/
theorem barrett_round (hq : q % 2 = 1) (hv : v < q) (hH : q * q ≤ H) (b : Nat) :
    (v * (2 * H * b / q) + H) / (2 * H) = (2 * v * b + q) / (2 * q) := by
  obtain ⟨r, hr, hsum⟩ := mul_barrett_add hv H b
  have hH0 : 0 < H := lt_of_lt_of_le (Nat.mul_pos (by omega) (by omega)) hH
  have hodd : 1 ≤ (2 * v * b + q) % (2 * q) := by
    have hmod : (2 * (v * b) + q) % (2 * q) % 2 = (2 * (v * b) + q) % 2 :=
      Nat.mod_mod_of_dvd _ (dvd_mul_right 2 q)
    rw [mul_assoc]
    omega
  refine div_eq_div_of_error (r := 2 * r) (by omega) (by omega) ?_ ?_
  · linear_combination 2 * hsum
  · calc 2 * r ≤ 2 * H * 1 := by omega
      _ ≤ _ := Nat.mul_le_mul_left _ hodd

/-- R225: without the rounding bit a Barrett step takes the floor, where no nonzero product is a
multiple of `q`. -/
theorem barrett_floor (hv : v < q) (hH : q * q ≤ H) (hb : q ∣ v * b → v * b = 0) :
    v * (2 * H * b / q) / (2 * H) = v * b / q := by
  obtain ⟨r, hr, hsum⟩ := mul_barrett_add hv H b
  have hH0 : 0 < H := lt_of_lt_of_le (Nat.mul_pos (by omega) (by omega)) hH
  refine div_eq_div_of_error (by omega) (by omega) hsum ?_
  rcases Nat.eq_zero_or_pos (v * b % q) with h0 | hpos
  · rw [hb (Nat.dvd_of_mod_eq_zero h0)] at hsum
    omega
  · calc r ≤ 2 * H * 1 := by omega
      _ ≤ _ := Nat.mul_le_mul_left _ hpos

end Barrett

namespace Config

variable {c : Config} {v : Nat}

/-- `R > 2q`, so half of `2^SH = R^2` is at least `q^2`. -/
theorem two_pow_barrettShift (h : c.wf = true) :
    2 ^ c.barrettShift = 2 * 2 ^ (c.barrettShift - 1) ∧ c.q * c.q ≤ 2 ^ (c.barrettShift - 1) := by
  have hpos : 0 < c.barrettShift := by
    have := bl_lt_radixBits h .S
    unfold barrettShift
    omega
  have hhalf : 2 ^ c.barrettShift = 2 * 2 ^ (c.barrettShift - 1) := by
    rw [← pow_succ', Nat.sub_add_cancel hpos]
  have hsq : 2 ^ c.barrettShift = c.radix .S * c.radix .S := by
    rw [barrettShift, radix, two_mul, pow_add]
  have hR : 2 * c.q < c.radix .S := two_modulus_lt_radix h .S
  refine ⟨hhalf, ?_⟩
  have := Nat.mul_le_mul hR.le hR.le
  rw [← hsq, hhalf] at this
  have hexp : 2 * c.q * (2 * c.q) = 4 * (c.q * c.q) := by ring
  omega

/-- R217 (b): the rounded Barrett step is exact for every constant. -/
theorem barrett_round (h : c.wf = true) (hv : v < c.q) (b : Nat) :
    (v * (2 ^ c.barrettShift * b / c.q) + 2 ^ (c.barrettShift - 1)) / 2 ^ c.barrettShift =
      (2 * v * b + c.q) / (2 * c.q) := by
  obtain ⟨hP, hH⟩ := two_pow_barrettShift h
  rw [hP]
  exact Sys2Proof.barrett_round (modulus_odd h .S) hv hH b

/-- R225: the truncated Barrett step is the floor, under the condition of the numeric lemma. -/
theorem barrett_floor (h : c.wf = true) (hv : v < c.q) {b : Nat} (hb : c.q ∣ v * b → v * b = 0) :
    v * (2 ^ c.barrettShift * b / c.q) / 2 ^ c.barrettShift = v * b / c.q := by
  obtain ⟨hP, hH⟩ := two_pow_barrettShift h
  rw [hP]
  exact Sys2Proof.barrett_floor hv hH hb

end Config

/-- No nonzero product of two numbers below a prime is a multiple of it. -/
theorem mul_eq_zero_of_prime_dvd {q v b : Nat} (hq : q.Prime) (hv : v < q) (hb : b < q)
    (h : q ∣ v * b) : v * b = 0 := by
  rcases hq.dvd_mul.1 h with h | h
  · rw [Nat.eq_zero_of_dvd_of_lt h hv, zero_mul]
  · rw [Nat.eq_zero_of_dvd_of_lt h hb, mul_zero]

/-- Settles O52: the rounded step is exact for every constant, the truncated one because a prime `q`
divides no product of smaller numbers but 0. -/
theorem barrettStepsAreExact : Obligations.BarrettStepsAreExact := by
  rintro c v hwf ⟨-, hq⟩ hv hb1 hb2
  exact ⟨Config.barrett_round hwf hv _, Config.barrett_round hwf hv _,
    Config.barrett_floor hwf hv (mul_eq_zero_of_prime_dvd hq hv hb2),
    Config.barrett_floor hwf hv (mul_eq_zero_of_prime_dvd hq hv hb1)⟩

end Sys2Proof
end

section
/-! How far a split lies from the lattice point it rounds to (44_scalar_decomposer.md R214, R217,
R225): the errors of the two quotients, carried through the basis. -/

namespace Sys2Proof.Machine

section Quotients

variable {q v b : Nat}

/-- Rounding to nearest is off by at most one half. -/
theorem round_error (hq : 0 < q) (v b : Nat) :
    2 * ((v * b : Int) - q * ((2 * v * b + q) / (2 * q) : Nat)).natAbs ≤ q := by
  have hdiv : 2 * (q * ((2 * v * b + q) / (2 * q))) + (2 * v * b + q) % (2 * q) =
      2 * (v * b) + q := by
    rw [← mul_assoc, Nat.div_add_mod, mul_assoc]
  have hmod := Nat.mod_lt (2 * v * b + q) (show 0 < 2 * q by omega)
  generalize (2 * v * b + q) / (2 * q) = n at hdiv ⊢
  rw [← Nat.cast_mul, ← Nat.cast_mul]
  omega

/-- The floor is off by less than one. -/
theorem floor_error (hq : 0 < q) (v b : Nat) :
    2 * ((v * b : Int) - q * (v * b / q : Nat)).natAbs ≤ 2 * (q - 1) := by
  have hdiv := Nat.div_add_mod (v * b) q
  have hmod := Nat.mod_lt (v * b) hq
  generalize v * b / q = n at hdiv ⊢
  rw [← Nat.cast_mul, ← Nat.cast_mul]
  omega

end Quotients

section Split

variable {V : Basis} {q v n1 n2 k : Nat}

/-- The coefficients stand for `v * b2 / D` and `-v * b1 / D`: what a split leaves is made of their
errors alone. -/
theorem mul_splitScalar (h : V.det.natAbs = q) (v n1 n2 : Nat) :
    q * (splitScalar V v (V.e1 * n1) (V.e2 * n2)).1 =
      V.e1 * (v * V.b2.natAbs - q * n1) * V.a1 + V.e2 * (v * V.b1.natAbs - q * n2) * V.a2 ∧
    q * (splitScalar V v (V.e1 * n1) (V.e2 * n2)).2 =
      V.e1 * (v * V.b2.natAbs - q * n1) * V.b1 + V.e2 * (v * V.b1.natAbs - q * n2) * V.b2 := by
  have hq : V.det.sign * V.det = q := by rw [Int.sign_mul_self_eq_abs, Int.abs_eq_natAbs, h]
  have he1 : V.e1 * V.b2.natAbs = V.det.sign * V.b2 := by
    rw [Basis.e1, mul_right_comm, Int.sign_mul_natAbs, mul_comm]
  have he2 : V.e2 * V.b1.natAbs = -(V.det.sign * V.b1) := by
    rw [Basis.e2, mul_right_comm, ← Int.natAbs_neg, Int.sign_mul_natAbs, mul_comm, mul_neg]
  rw [Basis.det] at hq he1 he2
  unfold splitScalar
  constructor
  · linear_combination (-v : Int) * hq - v * V.a1 * he1 - v * V.a2 * he2
  · linear_combination (-v : Int) * V.b1 * he1 - v * V.b2 * he2

/-- A coefficient has a sign, or is zero. -/
theorem natAbs_sign_mul_sign_le (a b : Int) : (a.sign * b.sign).natAbs ≤ 1 := by
  have hsign (x : Int) : x.sign.natAbs ≤ 1 := by
    rw [Int.natAbs_sign]
    split <;> omega
  rw [Int.natAbs_mul]
  exact Nat.mul_le_mul (hsign a) (hsign b)

theorem natAbs_mul_mul_le {e d x : Int} (he : e.natAbs ≤ 1) (hd : 2 * d.natAbs ≤ k) :
    2 * (e * d * x).natAbs ≤ k * x.natAbs := by
  rw [Int.natAbs_mul, Int.natAbs_mul, ← mul_assoc]
  refine Nat.mul_le_mul_right _ ?_
  calc 2 * (e.natAbs * d.natAbs) ≤ 2 * (1 * d.natAbs) := by gcongr
    _ ≤ k := by rwa [one_mul]

/-- Errors of at most `k / (2 * q)` in both coefficients leave at most that part of the sum of the
basis components. -/
theorem splitScalar_le (h : V.det.natAbs = q)
    (h1 : 2 * ((v * V.b2.natAbs : Int) - q * n1).natAbs ≤ k)
    (h2 : 2 * ((v * V.b1.natAbs : Int) - q * n2).natAbs ≤ k) :
    q * (2 * (splitScalar V v (V.e1 * n1) (V.e2 * n2)).1.natAbs) ≤
      k * (V.a1.natAbs + V.a2.natAbs) ∧
    q * (2 * (splitScalar V v (V.e1 * n1) (V.e2 * n2)).2.natAbs) ≤
      k * (V.b1.natAbs + V.b2.natAbs) := by
  have hsum {s x1 x2 : Int} (hs : q * s = V.e1 * (v * V.b2.natAbs - q * n1) * x1 +
      V.e2 * (v * V.b1.natAbs - q * n2) * x2) :
      q * (2 * s.natAbs) ≤ k * (x1.natAbs + x2.natAbs) := by
    have hx1 := natAbs_mul_mul_le (x := x1) (natAbs_sign_mul_sign_le V.b2 V.det) h1
    have hx2 := natAbs_mul_mul_le (x := x2) (natAbs_sign_mul_sign_le (-V.b1) V.det) h2
    calc q * (2 * s.natAbs) = 2 * (q * s).natAbs := by rw [Int.natAbs_mul, Int.natAbs_natCast]; ring
      _ ≤ 2 * (V.e1 * (v * V.b2.natAbs - q * n1) * x1).natAbs +
          2 * (V.e2 * (v * V.b1.natAbs - q * n2) * x2).natAbs := by
        rw [hs, ← mul_add]
        exact Nat.mul_le_mul_left _ (Int.natAbs_add_le _ _)
      _ ≤ k * x1.natAbs + k * x2.natAbs := Nat.add_le_add hx1 hx2
      _ = k * (x1.natAbs + x2.natAbs) := (mul_add _ _ _).symm
  obtain ⟨hs0, hs1⟩ := mul_splitScalar h v n1 n2
  exact ⟨hsum hs0, hsum hs1⟩

end Split

end Sys2Proof.Machine

namespace Sys2Proof

open Machine

namespace Config

variable {c : Config} {v : Nat}

theorem lambda_bounds (h : c.wf = true) : 0 < c.lambda ∧ c.lambda < c.q := by
  obtain ⟨-, -, -, hlam, -⟩ := wf_parts h
  simp only [lambdaOk, Bool.and_eq_true, decide_eq_true_eq] at hlam
  omega

/-- R7: a cube root of one is invertible. -/
theorem coprime_lambda (h : c.wf = true) : Nat.Coprime c.q c.lambda := by
  obtain ⟨-, -, -, hlam, -⟩ := wf_parts h
  simp only [lambdaOk, Bool.and_eq_true, decide_eq_true_eq, beq_iff_eq] at hlam
  obtain ⟨-, hcube⟩ := hlam
  have hcop : Nat.Coprime c.q (c.lambda ^ 3) := by
    rw [Nat.Coprime, Nat.gcd_rec, hcube, Nat.gcd_one_left]
  exact hcop.coprime_dvd_right (dvd_pow_self _ (by norm_num))

/-- R212, R7: the basis of `(q, lambda)` has the determinant `q` up to its sign. -/
theorem glvBasis_spans (h : c.wf = true) :
    c.glvBasis.det.natAbs = c.q ∧ 0 < c.glvBasis.a1 ∧ c.glvBasis.a1 ^ 2 < c.q :=
  basis_spans (lambda_bounds h).1 (lambda_bounds h).2 (coprime_lambda h)

/-- R217 (b): DECOMPOSE rounds as DECOMPOSE_GEN does. -/
theorem splitRounded_eq (h : c.wf = true) (hv : v < c.q) :
    splitRounded c v = splitGeneral c v c.lambda := by
  have h1 := barrett_round h hv c.glvBasis.b2.natAbs
  have h2 := barrett_round h hv c.glvBasis.b1.natAbs
  unfold splitRounded g1 g2
  rw [h1, h2]
  rfl

/-- R217 (c): what DECOMPOSE leaves is at most half the sum of the basis components. -/
theorem splitRounded_le (h : c.wf = true) (hv : v < c.q) :
    2 * (splitRounded c v).1.natAbs ≤ c.glvBasis.a1.natAbs + c.glvBasis.a2.natAbs ∧
    2 * (splitRounded c v).2.natAbs ≤ c.glvBasis.b1.natAbs + c.glvBasis.b2.natAbs := by
  have hq : 0 < c.q := modulus_pos h .S
  obtain ⟨h0, h1⟩ := splitScalar_le (glvBasis_spans h).1 (round_error hq v c.glvBasis.b2.natAbs)
    (round_error hq v c.glvBasis.b1.natAbs)
  rw [splitRounded_eq h hv]
  exact ⟨Nat.le_of_mul_le_mul_left h0 hq, Nat.le_of_mul_le_mul_left h1 hq⟩

/-- R225: what DECOMPOSE_NOMSB leaves is below the sum of the basis components, where both of its
steps are the floor. -/
theorem splitTruncated_lt (h : c.wf = true) (hv : v < c.q)
    (hb1 : c.q ∣ v * c.glvBasis.b1.natAbs → v * c.glvBasis.b1.natAbs = 0)
    (hb2 : c.q ∣ v * c.glvBasis.b2.natAbs → v * c.glvBasis.b2.natAbs = 0) :
    (splitTruncated c v).1.natAbs < c.glvBasis.a1.natAbs + c.glvBasis.a2.natAbs ∧
    (splitTruncated c v).2.natAbs < c.glvBasis.b1.natAbs + c.glvBasis.b2.natAbs := by
  have hq : 0 < c.q := modulus_pos h .S
  obtain ⟨hdet, ha1, -⟩ := glvBasis_spans h
  have hb : 0 < c.glvBasis.b1.natAbs + c.glvBasis.b2.natAbs := by
    by_contra hzero
    have hb1 : c.glvBasis.b1 = 0 := by omega
    have hb2 : c.glvBasis.b2 = 0 := by omega
    simp [Basis.det, hb1, hb2, hq.ne] at hdet
  have cancel {x y : Nat} (hy : 0 < y) (hxy : c.q * (2 * x) ≤ 2 * (c.q - 1) * y) : x < y := by
    refine Nat.lt_of_mul_lt_mul_left (a := 2 * c.q) ?_
    calc 2 * c.q * x = c.q * (2 * x) := by ring
      _ ≤ 2 * (c.q - 1) * y := hxy
      _ < 2 * c.q * y := Nat.mul_lt_mul_of_pos_right (by omega) hy
  obtain ⟨h0, h1⟩ := splitScalar_le hdet (floor_error hq v c.glvBasis.b2.natAbs)
    (floor_error hq v c.glvBasis.b1.natAbs)
  unfold splitTruncated g1 g2
  rw [barrett_floor h hv hb1, barrett_floor h hv hb2]
  exact ⟨cancel (by omega) h0, cancel hb h1⟩

theorem mul_eq_zero_of_coprime_dvd {b : Nat} (hv : v < c.q) (hb : Nat.Coprime c.q b)
    (h : c.q ∣ v * b) : v * b = 0 := by
  rw [Nat.eq_zero_of_dvd_of_lt (hb.dvd_of_dvd_mul_right h) hv, zero_mul]

theorem withinHalf_of_lt {s : Int × Int} (h0 : s.1.natAbs < 2 ^ c.halfBits)
    (h1 : s.2.natAbs < 2 ^ c.halfBits) : withinHalf c s.1 s.2 = true := by
  simp [withinHalf, h0, h1]

/-- R217 (c), R225: with the basis `(lambda, -1)`, `(1, lambda + 1)` of an odd `lambda` every scalar
splits within half length. -/
theorem splits_short (h : c.wf = true) (hv : v < c.q)
    (hbasis : c.glvBasis = ⟨c.lambda, -1, 1, (c.lambda + 1 : Nat)⟩)
    (hcop : Nat.Coprime c.q (c.lambda + 1)) (hodd : c.lambda % 2 = 1)
    (hhalf : c.lambda + 1 < 2 ^ c.halfBits) :
    2 * (splitRounded c v).1.natAbs ≤ c.lambda + 1 ∧
    2 * (splitRounded c v).2.natAbs ≤ c.lambda + 1 ∧
    (splitTruncated c v).1.natAbs ≤ c.lambda + 1 ∧
    (splitTruncated c v).2.natAbs ≤ c.lambda + 1 ∧
    withinHalf c (splitRounded c v).1 (splitRounded c v).2 = true ∧
    withinHalf c (splitTruncated c v).1 (splitTruncated c v).2 = true := by
  have hrounded := splitRounded_le h hv
  have htruncated := splitTruncated_lt h hv
  rw [hbasis] at hrounded htruncated
  obtain ⟨hr0, hr1⟩ := hrounded
  obtain ⟨ht0, ht1⟩ := htruncated (mul_eq_zero_of_coprime_dvd hv (Nat.coprime_one_right _))
    (mul_eq_zero_of_coprime_dvd hv hcop)
  dsimp only at hr0 hr1 ht0 ht1
  exact ⟨by omega, by omega, by omega, by omega, withinHalf_of_lt (by omega) (by omega),
    withinHalf_of_lt (by omega) (by omega)⟩

end Config

/-- R211: the basis of BLS32 has the form of `Config.splits_short`. -/
theorem bls32_glvBasis :
    bls32.glvBasis = ⟨bls32.lambda, -1, 1, (bls32.lambda + 1 : Nat)⟩ := by decide +kernel

theorem bls32_coprime_lambda_succ : Nat.Coprime bls32.q (bls32.lambda + 1) := by decide +kernel

theorem bls32_lambda_odd : bls32.lambda % 2 = 1 := by decide +kernel

theorem bls32_lambda_lt : bls32.lambda + 1 < 2 ^ bls32.halfBits := by decide +kernel

/-- Settles O53: the errors of the quotients bound what is left, for BLS32 by the components of its
basis, `(lambda, -1)` and `(1, lambda + 1)`. -/
theorem defaultInstanceSplitsShort : Obligations.DefaultInstanceSplitsShort := by
  refine ⟨?_, fun v hv => Config.splits_short bls32_wf hv bls32_glvBasis
    bls32_coprime_lambda_succ bls32_lambda_odd bls32_lambda_lt⟩
  rintro c v hwf ⟨-, hq⟩ hv hb1 hb2
  obtain ⟨hr0, hr1⟩ := Config.splitRounded_le hwf hv
  exact ⟨hr0, hr1, Config.splitTruncated_lt hwf hv (mul_eq_zero_of_prime_dvd hq hv hb1)
    (mul_eq_zero_of_prime_dvd hq hv hb2)⟩

end Sys2Proof
end

section
/-! DECOMPOSE, DECOMPOSE_NOMSB and DECOMPOSE_GEN as results on stored numbers
(44_scalar_decomposer.md R214, R225, R230). -/

namespace Sys2Proof.Machine

section Outputs

variable {s : State} {p q k l v : Nat} {sp : Int × Int} {V : Basis} {c1 c2 : Int}

/-- The arena after an overlap above the tables became unspecified (U11). -/
theorem State.byteAt_forgetOverlap (hp : s.cfg.tableEnd ≤ p) (q k : Nat) :
    (s.forgetOverlap p q k).byteAt = withOverlap p q k s.byteAt := by
  funext a
  unfold State.forgetOverlap withOverlap
  split
  · rw [State.byteAt_forget (le_max_of_le_left hp)]
    unfold withUnspecified
    congr 1
    rw [eq_iff_iff]
    omega
  · rw [if_neg (by omega)]

theorem withOverlap_of_apart {f : Nat → Option Byte} (h : Apart p k q k) (a : Nat) :
    withOverlap p q k f a = f a := if_neg (by omega)

/-- The two outputs and `OK` (R214, R215): only the arena, `OK` and the choice of free values
change. -/
theorem State.writeSplit_frame (s : State) (p q : Nat) (sp : Int × Int) :
    s.writeSplit p q sp = { s with
      mem := (s.writeSplit p q sp).mem
      ok := decide (sp.1.natAbs < 2 ^ s.cfg.halfBits ∧ sp.2.natAbs < 2 ^ s.cfg.halfBits)
      free := (s.writeSplit p q sp).free } := by
  unfold State.writeSplit withinHalf
  rw [State.forgetOverlap_frame, Bool.decide_and]
  rfl

/-- The arena after the two outputs were written (R215, R71). -/
theorem State.byteAt_writeSplit (hp : s.cfg.tableEnd ≤ p) (q : Nat) (sp : Int × Int) :
    (s.writeSplit p q sp).byteAt = withOverlap p q (s.cfg.elemBytes .S)
      (withElem s.cfg .S q (twos (s.cfg.radixBits .S) sp.2)
        (withElem s.cfg .S p (twos (s.cfg.radixBits .S) sp.1) s.byteAt)) := by
  funext a
  unfold State.writeSplit
  rw [State.setOk_byteAt, State.byteAt_forgetOverlap (by exact hp), State.byteAt_writeElem,
    State.byteAt_writeElem]
  rfl

/-- Outputs that lie apart hold the two patterns (R215). -/
theorem State.holds_writeSplit (hp : s.cfg.tableEnd ≤ p)
    (hapart : Apart p (s.cfg.elemBytes .S) q (s.cfg.elemBytes .S)) (sp : Int × Int) :
    (s.writeSplit p q sp).HoldsElem .S p (twos (s.cfg.radixBits .S) sp.1) ∧
    (s.writeSplit p q sp).HoldsElem .S q (twos (s.cfg.radixBits .S) sp.2) := by
  have hcfg : (s.writeSplit p q sp).cfg = s.cfg := by rw [State.writeSplit_frame]
  have hlt (i : Int) : twos (s.cfg.radixBits .S) i < s.cfg.radix .S := twos_lt _ _
  unfold State.HoldsElem
  rw [hcfg, State.byteAt_writeSplit hp]
  refine ⟨⟨hlt _, fun i hi => ?_⟩, hlt _, fun i hi => ?_⟩ <;> rw [withOverlap_of_apart hapart]
  · rw [withElem_miss _ _ _ _ _ (by omega), withElem_hit _ _ _ _ _ hi]
  · rw [withElem_hit _ _ _ _ _ hi]

/-- R217 (a): a split of `v` by vectors of the lattice is congruent to `v`, whatever the
coefficients. -/
theorem splitScalar_dvd (h : V.InLattice q l) (v : Nat) (c1 c2 : Int) :
    (q : Int) ∣ (splitScalar V v c1 c2).1 + (splitScalar V v c1 c2).2 * l - v := by
  have hsum := (dvd_add (h.1.mul_left c1) (h.2.mul_left c2)).neg_right
  calc (q : Int) ∣ -(c1 * (V.a1 + V.b1 * l) + c2 * (V.a2 + V.b2 * l)) := hsum
    _ = (splitScalar V v c1 c2).1 + (splitScalar V v c1 c2).2 * l - v := by
      unfold splitScalar
      ring

/-- R215: a result within half length is read back from its pattern (R212: `HB <= K - 2`). -/
theorem sext_twos_of_half {c : Config} (h : c.wf = true) {i : Int}
    (hi : i.natAbs < 2 ^ c.halfBits) : sext (c.radixBits .S) (twos (c.radixBits .S) i) = i := by
  obtain ⟨-, -, -, -, -, -, hslack⟩ := Config.wf_parts h
  simp only [Config.slackOk, decide_eq_true_eq] at hslack
  have hle : 2 ^ c.halfBits ≤ 2 ^ (c.radixBits .S - 1) :=
    Nat.pow_le_pow_right (by norm_num) (by omega)
  exact sext_twos (by omega) (by omega) (by omega)

/-- R210, R217 (a): what a split by a basis in the lattice stores at outputs that lie apart. -/
theorem writeSplit_splits (hwf : s.cfg.wf = true) (hp : s.cfg.tableEnd ≤ p)
    (hapart : Apart p (s.cfg.elemBytes .S) q (s.cfg.elemBytes .S))
    (hV : V.InLattice s.cfg.q l) (v : Nat) (c1 c2 : Int) :
    ∃ u0 u1, (s.writeSplit p q (splitScalar V v c1 c2)).HoldsElem .S p u0 ∧
      (s.writeSplit p q (splitScalar V v c1 c2)).HoldsElem .S q u1 ∧
      ((s.writeSplit p q (splitScalar V v c1 c2)).ok = true →
        (s.cfg.q : Int) ∣ sext (s.cfg.radixBits .S) u0 + sext (s.cfg.radixBits .S) u1 * l - v ∧
        (sext (s.cfg.radixBits .S) u0).natAbs < 2 ^ s.cfg.halfBits ∧
        (sext (s.cfg.radixBits .S) u1).natAbs < 2 ^ s.cfg.halfBits) := by
  obtain ⟨h0, h1⟩ := State.holds_writeSplit hp hapart (splitScalar V v c1 c2)
  refine ⟨_, _, h0, h1, fun hok => ?_⟩
  rw [State.writeSplit_frame, decide_eq_true_eq] at hok
  obtain ⟨hs0, hs1⟩ := hok
  rw [sext_twos_of_half hwf hs0, sext_twos_of_half hwf hs1]
  exact ⟨splitScalar_dvd hV v c1 c2, hs0, hs1⟩

end Outputs

section Commands

variable {s : State} {i : Instr} {out0 out1 sc lam : Word} {v l : Nat}

/-- The operands that the decomposer commands share and the scalar they read (R214). -/
structure SplitOperands (s : State) (out0 out1 sc : Word) (v : Nat) : Prop where
  ready : s.Ready
  out0_ok : s.cfg.Writable out0.toNat (s.cfg.elemBytes .S)
  out1_ok : s.cfg.Writable out1.toNat (s.cfg.elemBytes .S)
  sc_ok : s.cfg.Readable sc.toNat (s.cfg.elemBytes .S)
  holds : s.HoldsElem .S sc.toNat v

/-- The eigenvalue that DECOMPOSE_GEN reads beside them (R230). -/
structure SplitGenOperands (s : State) (out0 out1 sc lam : Word) (v l : Nat) : Prop
    extends SplitOperands s out0 out1 sc v where
  lam_ok : s.cfg.Readable lam.toNat (s.cfg.elemBytes .S)
  lam_holds : s.HoldsElem .S lam.toNat l

namespace SplitOperands

theorem out0_low (h : SplitOperands s out0 out1 sc v) : s.cfg.tableEnd ≤ out0.toNat := h.out0_ok.2.2

theorem readElem_eq (h : SplitOperands s out0 out1 sc v) : s.readElem .S sc.toNat = .ok v :=
  State.readElem_of_holds (Config.limbBits_le h.ready.wf .S) h.holds

/-- The checks of R289 pass for every operand the commands share. -/
theorem operands_ok (h : SplitOperands s out0 out1 sc v) :
    ∀ o ∈ [outElem s.cfg .S out0, outElem s.cfg .S out1, inElem s.cfg .S sc],
      o.misaligned = false ∧ o.outOfRange s.cfg = false ∧ o.writeProtected s.cfg = false := by
  simp only [List.forall_mem_cons, List.not_mem_nil, false_imp_iff, implies_true, and_true]
  exact ⟨Operand.write_ok h.out0_ok, Operand.write_ok h.out1_ok, Operand.read_ok h.sc_ok⟩

/-- A scalar below `q` is split as the command's own coefficients say (R214, R225). -/
theorem command_split (h : SplitOperands s out0 out1 sc v) (hn : faultOf s i = none)
    (f : Nat → Int × Int) (hv : v < s.cfg.q) :
    s.command i (do
      let v ← s.readElem .S sc.toNat
      need (v < s.cfg.q) .scalarBound
      .ok (s.writeSplit out0.toNat out1.toNat (f v))) =
      .next (s.writeSplit out0.toNat out1.toNat (f v)) := by
  refine State.command_of_ok h.ready.2 hn ?_
  rw [h.readElem_eq, ok_bind, need_of (decide_eq_true hv), ok_bind]

/-- A scalar from `q` on is refused (U14). -/
theorem command_split_refused (h : SplitOperands s out0 out1 sc v) (hn : faultOf s i = none)
    (f : Nat → Int × Int) (hv : s.cfg.q ≤ v) :
    s.command i (do
      let v ← s.readElem .S sc.toNat
      need (v < s.cfg.q) .scalarBound
      .ok (s.writeSplit out0.toNat out1.toNat (f v))) = .refused .scalarBound := by
  refine State.command_of_error h.ready.2 hn ?_
  rw [h.readElem_eq, ok_bind, need_of_not (decide_eq_false hv.not_gt), error_bind]

theorem faultOf_decompose (h : SplitOperands s out0 out1 sc v) :
    faultOf s (.decompose out0 out1 sc) = none := faultOf_eq_none rfl rfl h.operands_ok

theorem faultOf_decomposeNomsb (h : SplitOperands s out0 out1 sc v) :
    faultOf s (.decomposeNomsb out0 out1 sc) = none := faultOf_eq_none rfl rfl h.operands_ok

/-- DECOMPOSE (R214). -/
theorem exec_decompose (h : SplitOperands s out0 out1 sc v) (hv : v < s.cfg.q) :
    exec (.decompose out0 out1 sc) s =
      .next (s.writeSplit out0.toNat out1.toNat (splitRounded s.cfg v)) :=
  h.command_split h.faultOf_decompose (splitRounded s.cfg) hv

theorem exec_decompose_refused (h : SplitOperands s out0 out1 sc v) (hv : s.cfg.q ≤ v) :
    exec (.decompose out0 out1 sc) s = .refused .scalarBound :=
  h.command_split_refused h.faultOf_decompose (splitRounded s.cfg) hv

/-- DECOMPOSE_NOMSB (R225). -/
theorem exec_decomposeNomsb (h : SplitOperands s out0 out1 sc v) (hv : v < s.cfg.q) :
    exec (.decomposeNomsb out0 out1 sc) s =
      .next (s.writeSplit out0.toNat out1.toNat (splitTruncated s.cfg v)) :=
  h.command_split h.faultOf_decomposeNomsb (splitTruncated s.cfg) hv

theorem exec_decomposeNomsb_refused (h : SplitOperands s out0 out1 sc v) (hv : s.cfg.q ≤ v) :
    exec (.decomposeNomsb out0 out1 sc) s = .refused .scalarBound :=
  h.command_split_refused h.faultOf_decomposeNomsb (splitTruncated s.cfg) hv

end SplitOperands

namespace SplitGenOperands

theorem faultOf_eq_none (h : SplitGenOperands s out0 out1 sc lam v l) :
    faultOf s (.decomposeGen out0 out1 sc lam) = none := by
  refine Machine.faultOf_eq_none rfl rfl ?_
  refine List.forall_mem_append.2 ⟨h.operands_ok, fun o ho => ?_⟩
  rw [List.mem_singleton.1 ho]
  exact Operand.read_ok h.lam_ok

theorem readElem_lam (h : SplitGenOperands s out0 out1 sc lam v l) :
    s.readElem .S lam.toNat = .ok l :=
  State.readElem_of_holds (Config.limbBits_le h.ready.wf .S) h.lam_holds

/-- DECOMPOSE_GEN (R230). -/
theorem exec_eq (h : SplitGenOperands s out0 out1 sc lam v l) (hv : v < s.cfg.q) (h0 : 0 < l)
    (hl : l < s.cfg.q) :
    exec (.decomposeGen out0 out1 sc lam) s =
      .next (s.writeSplit out0.toNat out1.toNat (splitGeneral s.cfg v l)) := by
  refine State.command_of_ok h.ready.2 h.faultOf_eq_none ?_
  rw [h.readElem_eq, ok_bind, h.readElem_lam, ok_bind, need_of (decide_eq_true hv), ok_bind,
    need_of (by simp [h0, hl]), ok_bind]

/-- The scalar's bound is the first that DECOMPOSE_GEN tests (U14, log 16). -/
theorem exec_refused_scalar (h : SplitGenOperands s out0 out1 sc lam v l) (hv : s.cfg.q ≤ v) :
    exec (.decomposeGen out0 out1 sc lam) s = .refused .scalarBound := by
  refine State.command_of_error h.ready.2 h.faultOf_eq_none ?_
  rw [h.readElem_eq, ok_bind, h.readElem_lam, ok_bind, need_of_not (decide_eq_false hv.not_gt),
    error_bind]

/-- An eigenvalue that is zero or not below `q` is refused (U15). -/
theorem exec_refused_lambda (h : SplitGenOperands s out0 out1 sc lam v l) (hv : v < s.cfg.q)
    (hl : l = 0 ∨ s.cfg.q ≤ l) :
    exec (.decomposeGen out0 out1 sc lam) s = .refused .lambdaBound := by
  refine State.command_of_error h.ready.2 h.faultOf_eq_none ?_
  rw [h.readElem_eq, ok_bind, h.readElem_lam, ok_bind, need_of (decide_eq_true hv), ok_bind,
    need_of_not (by simpa [Nat.pos_iff_ne_zero, or_iff_not_imp_left] using hl), error_bind]

end SplitGenOperands

/-- An operand that passes the checks of R289 after the others finds no other fault. -/
theorem operandFault_concat {c : Config} {ops : List Operand} {o : Operand}
    (ho : o.misaligned = false ∧ o.outOfRange c = false ∧ o.writeProtected c = false) :
    operandFault c (ops ++ [o]) = operandFault c ops := by
  obtain ⟨hmis, hrange, hprot⟩ := ho
  have hfind {f : Operand → Bool} (hf : f o = false) : (ops ++ [o]).find? f = ops.find? f := by
    rw [List.find?_append, List.find?_singleton, hf, if_neg Bool.false_ne_true, Option.or_none]
  unfold operandFault
  rw [hfind hmis, hfind hrange, hfind hprot]

/-- R232: DECOMPOSE_GEN of the table's eigenvalue takes the faults of DECOMPOSE, as the entry's
pointer passes every check. -/
theorem faultOf_decomposeGen_entry (hwf : s.cfg.wf = true) (out0 out1 sc : Word) :
    faultOf s (.decomposeGen out0 out1 sc (entryWord s.cfg .S 10)) =
      faultOf s (.decompose out0 out1 sc) := by
  have hops : operandFault s.cfg
      (operandsOf s.cfg (.decomposeGen out0 out1 sc (entryWord s.cfg .S 10))) =
      operandFault s.cfg (operandsOf s.cfg (.decompose out0 out1 sc)) :=
    operandFault_concat (ops := operandsOf s.cfg (.decompose out0 out1 sc))
      (Operand.read_ok (readable_entryWord (e := 10) hwf (by omega)))
  unfold faultOf
  rw [hops]
  rfl

end Commands

end Sys2Proof.Machine

namespace Sys2Proof

open Machine

/-- Settles O33: DECOMPOSE writes the rounded split, by the two sides of its bound. -/
theorem decomposeResult : Obligations.DecomposeResult := by
  rintro s out0 out1 sc v _ _ _ _ hs hout0 hout1 hsc hv rfl rfl rfl rfl
  have ops : SplitOperands s out0 out1 sc v := ⟨hs, hout0, hout1, hsc, hv⟩
  exact ⟨fun hlt => ⟨_, ops.exec_decompose hlt, s.writeSplit_frame _ _ _,
    congrFun (State.byteAt_writeSplit ops.out0_low _ _)⟩, ops.exec_decompose_refused⟩

/-- Settles O34: DECOMPOSE_NOMSB writes the truncated split, by the two sides of its bound. -/
theorem decomposeNomsbResult : Obligations.DecomposeNomsbResult := by
  rintro s out0 out1 sc v _ _ _ _ hs hout0 hout1 hsc hv rfl rfl rfl rfl
  have ops : SplitOperands s out0 out1 sc v := ⟨hs, hout0, hout1, hsc, hv⟩
  exact ⟨fun hlt => ⟨_, ops.exec_decomposeNomsb hlt, s.writeSplit_frame _ _ _,
    congrFun (State.byteAt_writeSplit ops.out0_low _ _)⟩, ops.exec_decomposeNomsb_refused⟩

/-- Settles O35: DECOMPOSE_GEN writes the split of the eigenvalue it reads, by the sides of its two
bounds. -/
theorem decomposeGenResult : Obligations.DecomposeGenResult := by
  rintro s out0 out1 sc lam v l _ _ _ _ _ hs hout0 hout1 hsc hv hlam hl rfl rfl rfl rfl rfl
  have ops : SplitGenOperands s out0 out1 sc lam v l :=
    ⟨⟨hs, hout0, hout1, hsc, hv⟩, hlam, hl⟩
  exact ⟨fun hlt h0 hl => ⟨_, ops.exec_eq hlt h0 hl, s.writeSplit_frame _ _ _,
    congrFun (State.byteAt_writeSplit ops.out0_low _ _)⟩, ops.exec_refused_scalar,
    ops.exec_refused_lambda⟩

/-- Settles O55: each command writes a split by a basis in the lattice of its eigenvalue (O51),
whose patterns are read back where both results are within half length. -/
theorem decomposersSplitTheScalar : Obligations.DecomposersSplitTheScalar := by
  intro s out0 out1 sc lam v l i hs hout0 hout1 hapart hsc hv hlt hlam hl h0 hlq hi
  have ops : SplitGenOperands s out0 out1 sc lam v l :=
    ⟨⟨hs, hout0, hout1, hsc, hv⟩, hlam, hl⟩
  have hsplits := writeSplit_splits hs.wf ops.out0_low hapart (basis_inLattice hlq) v
  rcases hi with ⟨rfl, rfl⟩ | ⟨rfl, rfl⟩ | rfl
  · exact ⟨_, (hsplits _ _).imp fun _ h => h.imp fun _ h => ⟨ops.exec_decompose hlt, h⟩⟩
  · exact ⟨_, (hsplits _ _).imp fun _ h => h.imp fun _ h => ⟨ops.exec_decomposeNomsb hlt, h⟩⟩
  · exact ⟨_, (hsplits _ _).imp fun _ h => h.imp fun _ h => ⟨ops.exec_eq hlt h0 hlq, h⟩⟩

/-- Settles O56: both commands take the same faults and read the same scalar; of the table's
eigenvalue DECOMPOSE_GEN's exact rounding is the Barrett rounding of DECOMPOSE (O52). -/
theorem generalSplitOfLambda : Obligations.GeneralSplitOfLambda := by
  intro s out0 out1 sc hs _ _
  have hwf : s.cfg.wf = true := hs.1
  have hrange : Memory.inRange s.cfg s.mem = true := hs.2.2.1
  obtain ⟨h0, hlq⟩ := Config.lambda_bounds hwf
  have hlam : s.readElem .S (entryWord s.cfg .S 10).toNat = .ok s.cfg.lambda := by
    rw [toNat_entryWord hwf (by omega)]
    exact State.readElem_of_holds (Config.limbBits_le hwf .S)
      (State.holds_entry hwf hrange (by omega) (Config.tableEntry_lt_radix hwf .S 10))
  refine State.command_congr (faultOf_decomposeGen_entry hwf out0 out1 sc) ?_
  cases s.readElem .S sc.toNat with
  | error r => rfl
  | ok v =>
    rw [ok_bind, ok_bind, hlam, ok_bind]
    by_cases hv : v < s.cfg.q
    · rw [need_of (decide_eq_true hv), ok_bind, ok_bind, need_of (by simp [h0, hlq]), ok_bind,
        Config.splitRounded_eq hwf hv]
    · rw [need_of_not (decide_eq_false hv), error_bind, error_bind]

end Sys2Proof
end

section
/-! The formula of ADDAFFINE as residues (45_curve_ops.md R241): the chord through two points, and
why its third point, reflected, lies on their curve. -/

namespace Sys2Proof

/-- The chord law in any commutative ring: with `d` the inverse of `x2 - x1`, the reflected third
point of the chord through two points of `y^2 = x^3 + a*x + b` is on that curve. -/
theorem chord_point_on_curve {R : Type} [CommRing R] {a b d m x1 y1 x2 y2 x3 y3 : R}
    (hd : d * (x2 - x1) = 1) (hm : m = d * (y2 - y1)) (hx3 : x3 = m ^ 2 - x1 - x2)
    (hy3 : y3 = m * (x1 - x3) - y1) (h1 : y1 ^ 2 = x1 ^ 3 + a * x1 + b)
    (h2 : y2 ^ 2 = x2 ^ 3 + a * x2 + b) : y3 ^ 2 = x3 ^ 3 + a * x3 + b := by
  have hy2 : y2 = y1 + m * (x2 - x1) := by
    rw [hm]
    linear_combination (y1 - y2) * hd
  have ha : a = m * (y1 + y2) - (x1 ^ 2 + x1 * x2 + x2 ^ 2) := by
    rw [hm]
    linear_combination d * (h1 - h2) - (a + x1 ^ 2 + x1 * x2 + x2 ^ 2) * hd
  have hb : b = y1 ^ 2 - x1 ^ 3 - a * x1 := by linear_combination -h1
  rw [hb, ha, hy2, hy3, hx3]
  ring

namespace Config

variable {c : Config} {X : Ctx} {u v : Nat}

/-- R133: `fsub` subtracts the residues that the numbers stand for. -/
theorem rep_fsub (hu : u < c.modulus X) (hv : v < c.modulus X) :
    c.rep X (c.fsub X u v) = c.rep X u - c.rep X v := by
  have hadd : ((c.fsub X u v : Nat) : ZMod (c.modulus X)) + v = u := by
    rw [← Nat.cast_add, ← ZMod.natCast_mod, fsub_add hu hv]
  rw [rep, rep, rep, ← sub_mul, eq_sub_of_add_eq hadd]

end Config

namespace Machine

variable {c : Config} {x1 y1 x2 y2 d : Nat}

/-- R241: of canonical values the formula gives canonical values, which stand for the coordinates
of the chord's reflected third point. -/
theorem addAffineValue_spec (h : c.wf = true) (hx1 : x1 < c.modulus .F) (hy1 : y1 < c.modulus .F)
    (hx2 : x2 < c.modulus .F) (hy2 : y2 < c.modulus .F) (hd : d < c.modulus .F) :
    ∃ x3 y3, addAffineValue c x1 y1 x2 y2 d = (x3, y3) ∧ x3 < c.modulus .F ∧ y3 < c.modulus .F ∧
      c.rep .F x3 =
        (c.rep .F d * (c.rep .F y2 - c.rep .F y1)) ^ 2 - c.rep .F x1 - c.rep .F x2 ∧
      c.rep .F y3 =
        c.rep .F d * (c.rep .F y2 - c.rep .F y1) * (c.rep .F x1 - c.rep .F x3) - c.rep .F y1 := by
  have hdy := Config.fsub_lt hy2 hy1
  have hm := Config.fmul_lt h hd hdy
  have hsq := Config.fsqr_lt h hm
  have hsub := Config.fsub_lt hsq hx1
  have hx3 := Config.fsub_lt hsub hx2
  have hdiff := Config.fsub_lt hx1 hx3
  have hmul := Config.fmul_lt h hm hdiff
  refine ⟨_, _, rfl, hx3, Config.fsub_lt hmul hy1, ?_, ?_⟩
  · rw [Config.rep_fsub hsub hx2, Config.rep_fsub hsq hx1, Config.rep_fsqr h hm,
      Config.rep_fmul h hd hdy, Config.rep_fsub hy2 hy1]
  · rw [Config.rep_fsub hmul hy1, Config.rep_fmul h hm hdiff, Config.rep_fsub hx1 hx3,
      Config.rep_fmul h hd hdy, Config.rep_fsub hy2 hy1]

end Machine

open Machine

/-- Settles O54: the canonical results are Montgomery forms of the chord's coordinates, and the chord
law holds modulo any `p`. -/
theorem addaffineAddsPoints : Obligations.AddaffineAddsPoints := by
  intro c X1 Y1 X2 Y2 D a b hwf hD
  have mont (v : Nat) := Config.mont_lt hwf .F v
  obtain ⟨x3, y3, hval, hx3, hy3, hrepx, hrepy⟩ :=
    addAffineValue_spec hwf (mont X1) (mont Y1) (mont X2) (mont Y2) (mont D)
  obtain ⟨X3, hX3, rfl⟩ := Config.exists_mont hwf hx3
  obtain ⟨Y3, hY3, rfl⟩ := Config.exists_mont hwf hy3
  simp only [Config.rep_mont hwf] at hrepx hrepy
  have dvd_iff (i : Int) : (c.p : Int) ∣ i ↔ (i : ZMod (c.modulus .F)) = 0 :=
    (ZMod.intCast_zmod_eq_zero_iff_dvd i (c.modulus .F)).symm
  simp only [dvd_iff, Int.cast_sub, Int.cast_add, Int.cast_mul, Int.cast_pow, Int.cast_natCast,
    Int.cast_one, sub_eq_zero] at hD ⊢
  exact ⟨X3, Y3, hX3, hY3, hval, hrepx, hrepy, chord_point_on_curve hD rfl hrepx hrepy⟩

end Sys2Proof
end

section
/-! ENDO as a result on stored numbers (45_curve_ops.md R246, R247), and the point that it and
ADDAFFINE write. -/

namespace Sys2Proof

namespace Config

variable {c : Config} {X : Ctx} {a x : Nat}

/-- R157: `fmul` by a Montgomery form multiplies by the number it stands for. -/
theorem fmul_mont_left (h : c.wf = true) (v : Nat) (ha : a < c.modulus X) :
    c.fmul X (c.mont X v) a = v * a % c.modulus X := by
  have hv := mont_lt h X v
  refine eq_of_radix h (fmul_lt h hv ha) (Nat.mod_lt _ (modulus_pos h X)) ?_
  calc c.fmul X (c.mont X v) a * c.radix X
      ≡ c.mont X v * a [MOD c.modulus X] := fmul_mul_radix h (mul_lt_of_canonical h hv ha)
    _ ≡ v * c.radix X * a [MOD c.modulus X] := (Nat.mod_modEq _ _).mul_right a
    _ = v * a * c.radix X := by ring
    _ ≡ v * a % c.modulus X * c.radix X [MOD c.modulus X] := (Nat.mod_modEq _ _).symm.mul_right _

/-- R246: what ENDO computes is `beta * x` modulo `p`. -/
theorem fmul_mont_beta (h : c.wf = true) (hx : x < 2 * c.modulus .F) :
    c.fmul .F (c.mont .F c.beta) (c.canon .F x) = c.beta * x % c.modulus .F := by
  rw [fmul_mont_left h _ (canon_lt hx), canon_eq_mod hx, Nat.mul_mod_mod]

/-- R7: `beta` is a cube root of one modulo `p`. -/
theorem beta_cube (h : c.wf = true) : c.beta ^ 3 % c.modulus .F = 1 := by
  obtain ⟨-, -, -, -, hbeta, -⟩ := wf_parts h
  simp only [betaOk, Bool.and_eq_true, beq_iff_eq] at hbeta
  exact hbeta.2

/-- R247: three multiplications by `beta` leave the residue. -/
theorem beta_thrice (h : c.wf = true) (x : Nat) :
    c.beta * (c.beta * (c.beta * x % c.modulus .F) % c.modulus .F) % c.modulus .F =
      x % c.modulus .F := by
  have hpow : c.beta * c.beta * (c.beta * x) = c.beta ^ 3 * x := by ring
  rw [Nat.mul_mod_mod, ← mul_assoc, Nat.mul_mod_mod, hpow, ← Nat.mod_mul_mod, beta_cube h, one_mul]

end Config

namespace Machine

section Point

variable {s : State} {a x y : Nat}

/-- The two coordinates of a point, stored one after the other (R67). -/
def State.writePoint (s : State) (a x y : Nat) : State :=
  (s.writeElem .F a x).writeElem .F (a + s.cfg.elemBytes .F) y

theorem State.writePoint_frame (s : State) (a x y : Nat) :
    s.writePoint a x y = { s with mem := (s.writePoint a x y).mem } := rfl

theorem State.byteAt_writePoint (a x y : Nat) :
    (s.writePoint a x y).byteAt =
      withElem s.cfg .F (a + s.cfg.elemBytes .F) y (withElem s.cfg .F a x s.byteAt) := by
  rw [State.writePoint, State.byteAt_writeElem, State.byteAt_writeElem, State.writeElem_cfg]

theorem State.holds_writePoint_x (hx : x < s.cfg.radix .F) (a y : Nat) :
    (s.writePoint a x y).HoldsElem .F a x :=
  State.holds_writeElem_of_disjoint (State.holds_writeElem a hx) (.inr le_rfl)

theorem State.holds_writePoint_y (hy : y < s.cfg.radix .F) (a x : Nat) :
    (s.writePoint a x y).HoldsElem .F (a + s.cfg.elemBytes .F) y :=
  State.holds_writeElem (s := s.writeElem .F a x) _ hy

end Point

section Endo

variable {s : State} {out p : Word} {x y : Nat}

/-- The operands of ENDO and the point it reads (R246). -/
structure EndoOperands (s : State) (out p : Word) (x y : Nat) : Prop where
  ready : s.Ready
  out_ok : s.cfg.Writable out.toNat (2 * s.cfg.elemBytes .F)
  p_ok : s.cfg.Readable p.toNat (2 * s.cfg.elemBytes .F)
  holds_x : s.HoldsElem .F p.toNat x
  holds_y : s.HoldsElem .F (p.toNat + s.cfg.elemBytes .F) y

namespace EndoOperands

/-- The checks of R289 pass. -/
theorem faultOf_eq_none (h : EndoOperands s out p x y) : faultOf s (.endo out p) = none := by
  refine Machine.faultOf_eq_none rfl rfl ?_
  simp only [operandsOf, List.forall_mem_cons, List.not_mem_nil, false_imp_iff, implies_true,
    and_true]
  exact ⟨Operand.write_ok h.out_ok, Operand.read_ok h.p_ok⟩

theorem readElem_x (h : EndoOperands s out p x y) : s.readElem .F p.toNat = .ok x :=
  State.readElem_of_holds (Config.limbBits_le h.ready.wf .F) h.holds_x

theorem readElem_y (h : EndoOperands s out p x y) :
    s.readElem .F (p.toNat + s.cfg.elemBytes .F) = .ok y :=
  State.readElem_of_holds (Config.limbBits_le h.ready.wf .F) h.holds_y

/-- ENDO reads `beta` from the table (R30, entry 10). -/
theorem readElem_beta (h : EndoOperands s out p x y) :
    s.readElem .F (s.cfg.entryPtr .F 10) = .ok (s.cfg.mont .F s.cfg.beta) :=
  State.readElem_of_holds (Config.limbBits_le h.ready.wf .F)
    (State.holds_entry h.ready.wf h.ready.inRange (by omega)
      (Config.tableEntry_lt_radix h.ready.wf .F 10))

/-- ENDO (R246): `x` times `beta`, canonical, and the stored `y`. -/
theorem exec_eq (h : EndoOperands s out p x y) (hx : x < 2 * s.cfg.modulus .F) :
    exec (.endo out p) s =
      .next (s.writePoint out.toNat (s.cfg.beta * x % s.cfg.modulus .F) y) := by
  refine State.command_of_ok h.ready.2 h.faultOf_eq_none ?_
  rw [h.readElem_x, ok_bind, h.readElem_y, ok_bind, need_of (decide_eq_true hx), ok_bind,
    h.readElem_beta, ok_bind, Config.fmul_mont_beta h.ready.wf hx]
  rfl

/-- ENDO is refused from `2p` on (R246, U18). -/
theorem exec_refused (h : EndoOperands s out p x y) (hx : 2 * s.cfg.modulus .F ≤ x) :
    exec (.endo out p) s = .refused .endoBound := by
  refine State.command_of_error h.ready.2 h.faultOf_eq_none ?_
  rw [h.readElem_x, ok_bind, h.readElem_y, ok_bind, need_of_not (decide_eq_false hx.not_gt),
    error_bind]

/-- After ENDO its `out` is the operand of a further ENDO in place. -/
theorem exec_again (h : EndoOperands s out p x y) (hx : x < 2 * s.cfg.modulus .F) :
    ∃ t, exec (.endo out p) s = .next t ∧ t.cfg = s.cfg ∧
      EndoOperands t out out (s.cfg.beta * x % s.cfg.modulus .F) y := by
  have hexec := h.exec_eq hx
  have hres := Nat.mod_lt (s.cfg.beta * x) (Config.modulus_pos h.ready.wf .F)
  have hR := Config.two_modulus_lt_radix h.ready.wf .F
  exact ⟨_, hexec, rfl, {
    ready := ⟨(exec_keeps_inv h.ready.1 hexec).1, h.ready.2⟩
    out_ok := h.out_ok
    p_ok := ⟨h.out_ok.1, h.out_ok.2.1⟩
    holds_x := State.holds_writePoint_x (by omega) _ _
    holds_y := State.holds_writePoint_y h.holds_y.1 _ _ }⟩

end EndoOperands

end Endo

end Machine

open Machine

/-- Settles O37, by the two sides of ENDO's bound. -/
theorem endoResult : Obligations.EndoResult := by
  intro s out p x y hs hout hp hx hy
  have ops : EndoOperands s out p x y := ⟨hs, hout, hp, hx, hy⟩
  exact ⟨fun hlt => ⟨_, _, ops.exec_eq hlt, s.writePoint_frame _ _ _,
    (Config.fmul_mont_beta hs.wf hlt).symm, rfl, congrFun (State.byteAt_writePoint _ _ _)⟩,
    ops.exec_refused⟩

/-- Settles O60: each ENDO leaves a point that the next one reads, and `beta` is a cube root of
one. -/
theorem endoThriceIsIdentity : Obligations.EndoThriceIsIdentity := by
  intro s out p x y hs hout hp hx hy hlt
  have hbound (v : Nat) : v % s.cfg.modulus .F < 2 * s.cfg.modulus .F := by
    have := Nat.mod_lt v (Config.modulus_pos hs.wf .F)
    omega
  have ops : EndoOperands s out p x y := ⟨hs, hout, hp, hx, hy⟩
  obtain ⟨t, ht, hct, ops⟩ := ops.exec_again hlt
  obtain ⟨u, hu, hcu, ops⟩ := ops.exec_again (by rw [hct]; exact hbound _)
  obtain ⟨r, hr, hcr, ops⟩ := ops.exec_again (by rw [hcu, hct]; exact hbound _)
  rw [hcu, hct, Config.beta_thrice hs.wf] at ops
  have holds_y := ops.holds_y
  rw [hcr, hcu, hct] at holds_y
  exact ⟨r, (execAll_cons ht).trans ((execAll_cons hu).trans (execAll_cons hr)), ops.holds_x,
    holds_y⟩

end Sys2Proof
end

section
/-! ADDAFFINE as a result on stored numbers (45_curve_ops.md R241, R242). -/

namespace Sys2Proof.Machine

variable {s : State} {scratch out p1 p2 d : Word} {x1 y1 x2 y2 dv : Nat}

/-- The operands of ADDAFFINE and the five numbers it reads (R241). -/
structure AddaffineOperands (s : State) (scratch out p1 p2 d : Word) (x1 y1 x2 y2 dv : Nat) :
    Prop where
  ready : s.Ready
  scratch_ok : s.cfg.Writable scratch.toNat (2 * s.cfg.elemBytes .F)
  out_ok : s.cfg.Writable out.toNat (2 * s.cfg.elemBytes .F)
  p1_ok : s.cfg.Readable p1.toNat (2 * s.cfg.elemBytes .F)
  p2_ok : s.cfg.Readable p2.toNat (2 * s.cfg.elemBytes .F)
  d_ok : s.cfg.Readable d.toNat (s.cfg.elemBytes .F)
  holds_x1 : s.HoldsElem .F p1.toNat x1
  holds_y1 : s.HoldsElem .F (p1.toNat + s.cfg.elemBytes .F) y1
  holds_x2 : s.HoldsElem .F p2.toNat x2
  holds_y2 : s.HoldsElem .F (p2.toNat + s.cfg.elemBytes .F) y2
  holds_d : s.HoldsElem .F d.toNat dv

namespace AddaffineOperands

/-- The checks of R289 pass. -/
theorem faultOf_eq_none (h : AddaffineOperands s scratch out p1 p2 d x1 y1 x2 y2 dv) :
    faultOf s (.addaffine scratch out p1 p2 d) = none := by
  refine Machine.faultOf_eq_none rfl rfl ?_
  simp only [operandsOf, List.forall_mem_cons, List.not_mem_nil, false_imp_iff, implies_true,
    and_true]
  exact ⟨Operand.write_ok h.scratch_ok, Operand.write_ok h.out_ok, Operand.read_ok h.p1_ok,
    Operand.read_ok h.p2_ok, Operand.read_ok h.d_ok⟩

theorem readElem_eq (h : AddaffineOperands s scratch out p1 p2 d x1 y1 x2 y2 dv) :
    s.readElem .F p1.toNat = .ok x1 ∧ s.readElem .F (p1.toNat + s.cfg.elemBytes .F) = .ok y1 ∧
    s.readElem .F p2.toNat = .ok x2 ∧ s.readElem .F (p2.toNat + s.cfg.elemBytes .F) = .ok y2 ∧
    s.readElem .F d.toNat = .ok dv :=
  have hw := Config.limbBits_le h.ready.wf .F
  ⟨State.readElem_of_holds hw h.holds_x1, State.readElem_of_holds hw h.holds_y1,
    State.readElem_of_holds hw h.holds_x2, State.readElem_of_holds hw h.holds_y2,
    State.readElem_of_holds hw h.holds_d⟩

/-- The rule of ADDAFFINE past its test of the pointers (R241, R242): the five reads succeed, and
the bound is on all of them. -/
theorem exec_of_apart (h : AddaffineOperands s scratch out p1 p2 d x1 y1 x2 y2 dv)
    (hapart : Apart out.toNat (2 * s.cfg.elemBytes .F) p2.toNat (2 * s.cfg.elemBytes .F)) :
    exec (.addaffine scratch out p1 p2 d) s = s.command (.addaffine scratch out p1 p2 d) (do
      need (decide (∀ v ∈ [x1, y1, x2, y2, dv], v < 2 * s.cfg.modulus .F)) .addaffineBound
      let r := addAffineValue s.cfg (s.cfg.canon .F x1) (s.cfg.canon .F y1) (s.cfg.canon .F x2)
        (s.cfg.canon .F y2) (s.cfg.canon .F dv)
      .ok ((s.writePoint out.toNat r.1 r.2).forget scratch.toNat (2 * s.cfg.elemBytes .F))) := by
  obtain ⟨hx1, hy1, hx2, hy2, hd⟩ := h.readElem_eq
  have hbound (m : Nat) : decide (∀ v ∈ [x1, y1, x2, y2, dv], v < m) =
      (x1 < m && y1 < m && x2 < m && y2 < m && dv < m) := by
    simp [Bool.and_assoc]
  refine State.command_congr rfl ?_
  dsimp only
  rw [need_of (by simpa using hapart), ok_bind, hx1, ok_bind, hy1, ok_bind, hx2, ok_bind, hy2,
    ok_bind, hd, ok_bind, hbound]
  rfl

/-- ADDAFFINE (R241): the formula's point at `out`, then the scratch bytes unspecified. -/
theorem exec_eq (h : AddaffineOperands s scratch out p1 p2 d x1 y1 x2 y2 dv)
    (hapart : Apart out.toNat (2 * s.cfg.elemBytes .F) p2.toNat (2 * s.cfg.elemBytes .F))
    (hlt : ∀ v ∈ [x1, y1, x2, y2, dv], v < 2 * s.cfg.modulus .F) {x3 y3 : Nat}
    (hval : addAffineValue s.cfg (x1 % s.cfg.modulus .F) (y1 % s.cfg.modulus .F)
      (x2 % s.cfg.modulus .F) (y2 % s.cfg.modulus .F) (dv % s.cfg.modulus .F) = (x3, y3)) :
    exec (.addaffine scratch out p1 p2 d) s =
      .next ((s.writePoint out.toNat x3 y3).forget scratch.toNat (2 * s.cfg.elemBytes .F)) := by
  have hcanon (v : Nat) (hv : v ∈ [x1, y1, x2, y2, dv]) := Config.canon_eq_mod (hlt v hv)
  rw [h.exec_of_apart hapart]
  refine State.command_of_ok h.ready.2 h.faultOf_eq_none ?_
  rw [need_of (decide_eq_true hlt), ok_bind, hcanon x1 (by simp), hcanon y1 (by simp),
    hcanon x2 (by simp), hcanon y2 (by simp), hcanon dv (by simp), hval]

/-- Where `out` overlaps `P2` ADDAFFINE is refused, whatever it would read (U17, log 16). -/
theorem exec_refused_overlap (h : AddaffineOperands s scratch out p1 p2 d x1 y1 x2 y2 dv)
    (hover : ¬Apart out.toNat (2 * s.cfg.elemBytes .F) p2.toNat (2 * s.cfg.elemBytes .F)) :
    exec (.addaffine scratch out p1 p2 d) s = .refused .addaffineOverlap := by
  refine State.command_of_error h.ready.2 h.faultOf_eq_none ?_
  dsimp only
  rw [need_of_not (by simpa using hover), error_bind]

/-- ADDAFFINE is refused where a number it reads is from `2p` on (U16). -/
theorem exec_refused_bound (h : AddaffineOperands s scratch out p1 p2 d x1 y1 x2 y2 dv)
    (hapart : Apart out.toNat (2 * s.cfg.elemBytes .F) p2.toNat (2 * s.cfg.elemBytes .F))
    (hbad : ∃ v ∈ [x1, y1, x2, y2, dv], 2 * s.cfg.modulus .F ≤ v) :
    exec (.addaffine scratch out p1 p2 d) s = .refused .addaffineBound := by
  obtain ⟨v, hv, hle⟩ := hbad
  rw [h.exec_of_apart hapart]
  refine State.command_of_error h.ready.2 h.faultOf_eq_none ?_
  rw [need_of_not (decide_eq_false fun hlt => hle.not_gt (hlt v hv)), error_bind]

end AddaffineOperands

/-- The arena after a point was written and bytes above the tables became unspecified (R33). -/
theorem State.byteAt_forget_writePoint {b : Nat} (hb : s.cfg.tableEnd ≤ b) (a x y k : Nat) :
    ((s.writePoint a x y).forget b k).byteAt = withUnspecified b k
      (withElem s.cfg .F (a + s.cfg.elemBytes .F) y (withElem s.cfg .F a x s.byteAt)) := by
  rw [State.byteAt_forget (s := s.writePoint a x y) hb, State.byteAt_writePoint]

end Sys2Proof.Machine

namespace Sys2Proof

open Machine

/-- Settles O36: the formula of the five residues at `out`, by the sides of ADDAFFINE's two
preconditions. -/
theorem addaffineResult : Obligations.AddaffineResult := by
  rintro s scratch out p1 p2 d x1 y1 x2 y2 dv _ _ _ hs hscratch hout hp1 hp2 hd hx1 hy1 hx2 hy2 hdv
    rfl rfl rfl
  have ops : AddaffineOperands s scratch out p1 p2 d x1 y1 x2 y2 dv :=
    ⟨hs, hscratch, hout, hp1, hp2, hd, hx1, hy1, hx2, hy2, hdv⟩
  have hmod (v : Nat) := Nat.mod_lt v (Config.modulus_pos hs.wf .F)
  obtain ⟨x3, y3, hval, hx3, hy3, -⟩ :=
    addAffineValue_spec hs.wf (hmod x1) (hmod y1) (hmod x2) (hmod y2) (hmod dv)
  cases hval
  exact ⟨fun hapart hlt => ⟨_, ops.exec_eq hapart hlt rfl, rfl, hx3, hy3,
    congrFun (State.byteAt_forget_writePoint hscratch.2.2 _ _ _ _)⟩, ops.exec_refused_overlap,
    ops.exec_refused_bound⟩

end Sys2Proof
end

section
/-! The allocator's commands as results (46_arena_and_codecs.md R256 to R258): each outcome is one
side of the checks 6 and 7 of 60_exceptions.md R289. -/

namespace Sys2Proof.Machine

section Faults

variable {s : State} {i : Instr}

/-- Check 2 of R289 comes before the operands are looked at. -/
theorem faultOf_of_lengthFault {f : FaultCode × Nat} (h : lengthFault s.cfg i = some f) :
    faultOf s i = some f := by
  unfold faultOf
  rw [h]

/-- A command without pointer operands has the allocator's checks alone. -/
theorem faultOf_of_no_operands (hl : lengthFault s.cfg i = none) (ho : operandsOf s.cfg i = []) :
    faultOf s i = allocFault s i := by
  have hnone : operandFault s.cfg [] = none := operandFault_eq_none.2 nofun
  unfold faultOf
  rw [hl, ho, hnone]

/-- A ready machine takes the first fault of a command's checks (R281, R287). -/
theorem exec_of_fault {code : FaultCode} {info : Nat} (hs : s.Ready)
    (h : faultOf s i = some (code, info)) : exec i s = .next (s.raise code info) := by
  obtain ⟨body, hexec⟩ := exec_is_command i s
  rw [hexec]
  exact State.command_of_fault hs.2 h

/-- A fault whose `info` is an operand word records the word (R288). -/
theorem exec_of_operand_fault {code : FaultCode} {k : Word} (hs : s.Ready)
    (h : faultOf s i = some (code, k.toNat)) :
    exec i s = .next { s with faulted := true, err := errCode code, faultInfo := k } := by
  rw [exec_of_fault hs h, State.raise, BitVec.ofNat_toNat, BitVec.setWidth_eq]

end Faults

section Allocator

variable {s : State} {X : Ctx} {k : Word}

/-- ALLOC_STABLE with live scratch fails check 6, whatever it asks for. -/
theorem faultOf_allocStable_order (h : s.offset ≠ s.base) :
    faultOf s (.allocStable X k) = some (.allocOrder, s.offset) :=
  (faultOf_of_no_operands rfl rfl).trans (if_pos h)

/-- Without live scratch ALLOC_STABLE has check 7. -/
theorem faultOf_allocStable_room (h : s.offset = s.base) :
    faultOf s (.allocStable X k) =
      if s.base + k.toNat * s.cfg.elemBytes X > s.cfg.arenaBytes then some (.arenaFull, k.toNat)
      else none :=
  (faultOf_of_no_operands rfl rfl).trans (if_neg (not_not.2 h))

/-- ALLOC_SCRATCH has check 7 alone. -/
theorem faultOf_allocScratch_room :
    faultOf s (.allocScratch X k) =
      if s.offset + k.toNat * s.cfg.elemBytes X > s.cfg.arenaBytes then some (.arenaFull, k.toNat)
      else none :=
  faultOf_of_no_operands rfl rfl

end Allocator

end Sys2Proof.Machine

namespace Sys2Proof

open Machine

/-- Settles O38: both checks pass, check 6 fails, or check 6 passes and check 7 fails. -/
theorem allocStableResult : Obligations.AllocStableResult := by
  intro s X k hs
  refine ⟨fun hord hroom => ?_, fun hord => ?_, fun hord hfull => ?_⟩
  · have hok := (faultOf_allocStable_room hord).trans (if_neg hroom.not_gt)
    exact State.command_of_ok hs.2 hok rfl
  · exact exec_of_fault hs (faultOf_allocStable_order hord)
  · exact exec_of_operand_fault hs ((faultOf_allocStable_room hord).trans (if_pos hfull))

/-- Settles O39, by the two sides of check 7. -/
theorem allocScratchResult : Obligations.AllocScratchResult := by
  intro s X k hs
  refine ⟨fun hroom => ?_, fun hfull => ?_⟩
  · exact State.command_of_ok hs.2 (faultOf_allocScratch_room.trans (if_neg hroom.not_gt)) rfl
  · exact exec_of_operand_fault hs (faultOf_allocScratch_room.trans (if_pos hfull))

/-- Settles O40: no check of R289 can fail. -/
theorem resetScratchResult : Obligations.ResetScratchResult := by
  intro s hs
  exact State.command_of_ok hs.2 (faultOf_of_no_operands (i := .resetScratch) rfl rfl) rfl

end Sys2Proof
end

section
/-! FROM_PACKED and TO_PACKED as results on stored numbers (46_arena_and_codecs.md R259, R260), and
their two compositions (R262). -/

namespace Sys2Proof

namespace Config

variable {c : Config} {X : Ctx} {v : Nat}

theorem modulus_lt_radix (h : c.wf = true) (X : Ctx) : c.modulus X < c.radix X := by
  have := two_modulus_lt_radix h X
  omega

/-- R259: the value FROM_PACKED writes is the Montgomery form of the packed number. -/
theorem fmul_r2_of_lt (h : c.wf = true) (hv : v < c.modulus X) :
    c.fmul X v (c.r2 X) = c.mont X v :=
  fmul_r2 h (hv.trans (modulus_lt_radix h X))

/-- The value TO_PACKED writes for a stored number: its residue, taken out of Montgomery form
(R260). -/
def unpackValue (c : Config) (X : Ctx) (a : Nat) : Nat := c.fmul X (a % c.modulus X) 1

theorem residue_lt_radix (h : c.wf = true) (a : Nat) : a % c.modulus X < c.radix X :=
  (Nat.mod_lt a (modulus_pos h X)).trans (modulus_lt_radix h X)

theorem unpackValue_lt (h : c.wf = true) (a : Nat) : c.unpackValue X a < c.modulus X :=
  fmul_one_lt h (residue_lt_radix h a)

theorem unpackValue_lt_packed (h : c.wf = true) (a : Nat) :
    c.unpackValue X a < 256 ^ c.packedBytes X :=
  (unpackValue_lt h a).trans (modulus_lt_packed c X)

/-- R262: back into Montgomery form the residue of the stored number returns. -/
theorem mont_unpackValue (h : c.wf = true) (a : Nat) :
    c.mont X (c.unpackValue X a) = a % c.modulus X :=
  (fmul_one_mul_radix h (residue_lt_radix h a)).trans (Nat.mod_mod a (c.modulus X))

/-- R262: a canonical number goes into Montgomery form and out of it unchanged. -/
theorem unpackValue_mont (h : c.wf = true) (hv : v < c.modulus X) :
    c.unpackValue X (c.mont X v) = v := by
  refine eq_of_radix h (unpackValue_lt h _) hv ?_
  calc c.mont X (c.unpackValue X (c.mont X v))
      = c.mont X v % c.modulus X := mont_unpackValue h _
    _ = c.mont X v := Nat.mod_eq_of_lt (mont_lt h X v)

end Config

namespace Machine

/-- A read byte string passes checks 3 to 5 where it lies in the arena: it has no alignment
(R67). -/
theorem Operand.read_bytes_ok {c : Config} {p size : Nat} (h : p + size ≤ c.arenaBytes) :
    (⟨p, size, false, false⟩ : Operand).misaligned = false ∧
    (⟨p, size, false, false⟩ : Operand).outOfRange c = false ∧
    (⟨p, size, false, false⟩ : Operand).writeProtected c = false :=
  ⟨rfl, decide_eq_false h.not_gt, rfl⟩

/-- A written byte string passes checks 3 to 5 where it lies in the arena above the tables. -/
theorem Operand.write_bytes_ok {c : Config} {p size : Nat} (h : p + size ≤ c.arenaBytes)
    (hlow : c.tableEnd ≤ p) :
    (⟨p, size, false, true⟩ : Operand).misaligned = false ∧
    (⟨p, size, false, true⟩ : Operand).outOfRange c = false ∧
    (⟨p, size, false, true⟩ : Operand).writeProtected c = false :=
  ⟨rfl, decide_eq_false h.not_gt, by simp [Operand.writeProtected, hlow]⟩

/-- Read after write: the written byte string holds its number. -/
theorem State.holds_memWrite (s : State) (a : Nat) {k v : Nat} (hv : v < 256 ^ k) :
    (s.memWrite a k v).HoldsBytes a k v := by
  refine ⟨hv, fun i hi => ?_⟩
  rw [State.byteAt_memWrite]
  unfold withBytes
  rw [if_pos (by omega), Nat.add_sub_cancel_left]

/-- A write of a byte string changes the arena and nothing else. -/
theorem State.memWrite_frame (s : State) (a k v : Nat) :
    s.memWrite a k v = { s with mem := (s.memWrite a k v).mem } := rfl

section FromPacked

variable {s : State} {X : Ctx} {elem bytes len : Word} {v : Nat}

/-- FROM_PACKED of another length than `PB` fails check 2, whatever its pointers (R259). -/
theorem faultOf_fromPacked_badLength (h : len.toNat ≠ s.cfg.packedBytes X) :
    faultOf s (.fromPacked X elem bytes len) = some (.badLength, len.toNat) :=
  faultOf_of_lengthFault (if_neg h)

/-- The operands of FROM_PACKED and the packed number it reads (R259). -/
structure FromPackedOperands (s : State) (X : Ctx) (elem bytes len : Word) (v : Nat) : Prop where
  ready : s.Ready
  len_eq : len.toNat = s.cfg.packedBytes X
  elem_ok : s.cfg.Writable elem.toNat (s.cfg.elemBytes X)
  bytes_le : bytes.toNat + s.cfg.packedBytes X ≤ s.cfg.arenaBytes
  holds : s.HoldsBytes bytes.toNat (s.cfg.packedBytes X) v

namespace FromPackedOperands

/-- The checks of R289 pass. -/
theorem faultOf_eq_none (h : FromPackedOperands s X elem bytes len v) :
    faultOf s (.fromPacked X elem bytes len) = none := by
  refine Machine.faultOf_eq_none (if_pos h.len_eq) rfl ?_
  simp only [operandsOf, List.forall_mem_cons, List.not_mem_nil, false_imp_iff, implies_true,
    and_true]
  exact ⟨Operand.write_ok h.elem_ok, Operand.read_bytes_ok h.bytes_le⟩

/-- FROM_PACKED (R259): the Montgomery form of the packed number. -/
theorem exec_eq (h : FromPackedOperands s X elem bytes len v) (hlt : v < s.cfg.modulus X) :
    exec (.fromPacked X elem bytes len) s =
      .next (s.writeElem X elem.toNat (s.cfg.mont X v)) := by
  refine State.command_of_ok h.ready.2 h.faultOf_eq_none ?_
  rw [State.readPacked_of_holds h.holds, ok_bind, need_of (decide_eq_true hlt), ok_bind,
    Config.fmul_r2_of_lt h.ready.wf hlt]

/-- FROM_PACKED is refused from `p` on (R259, U19). -/
theorem exec_refused (h : FromPackedOperands s X elem bytes len v) (hle : s.cfg.modulus X ≤ v) :
    exec (.fromPacked X elem bytes len) s = .refused .packedBound := by
  refine State.command_of_error h.ready.2 h.faultOf_eq_none ?_
  rw [State.readPacked_of_holds h.holds, ok_bind, need_of_not (decide_eq_false hle.not_gt),
    error_bind]

end FromPackedOperands

end FromPacked

section ToPacked

variable {s : State} {X : Ctx} {bytes elem len : Word} {a : Nat}

/-- TO_PACKED of another length than `PB` fails check 2, whatever its pointers (R260). -/
theorem faultOf_toPacked_badLength (h : len.toNat ≠ s.cfg.packedBytes X) :
    faultOf s (.toPacked X bytes elem len) = some (.badLength, len.toNat) :=
  faultOf_of_lengthFault (if_neg h)

/-- The operands of TO_PACKED and the stored number it reads (R260). -/
structure ToPackedOperands (s : State) (X : Ctx) (bytes elem len : Word) (a : Nat) : Prop where
  ready : s.Ready
  len_eq : len.toNat = s.cfg.packedBytes X
  elem_ok : s.cfg.Readable elem.toNat (s.cfg.elemBytes X)
  bytes_low : s.cfg.tableEnd ≤ bytes.toNat
  bytes_le : bytes.toNat + s.cfg.packedBytes X ≤ s.cfg.arenaBytes
  holds : s.HoldsElem X elem.toNat a

namespace ToPackedOperands

/-- The checks of R289 pass. -/
theorem faultOf_eq_none (h : ToPackedOperands s X bytes elem len a) :
    faultOf s (.toPacked X bytes elem len) = none := by
  refine Machine.faultOf_eq_none (if_pos h.len_eq) rfl ?_
  simp only [operandsOf, List.forall_mem_cons, List.not_mem_nil, false_imp_iff, implies_true,
    and_true]
  exact ⟨Operand.write_bytes_ok h.bytes_le h.bytes_low, Operand.read_ok h.elem_ok⟩

/-- TO_PACKED (R260): the bytes of the number the element stands for. -/
theorem exec_eq (h : ToPackedOperands s X bytes elem len a) (hlt : a < 4 * s.cfg.modulus X) :
    exec (.toPacked X bytes elem len) s =
      .next (s.memWrite bytes.toNat (s.cfg.packedBytes X) (s.cfg.unpackValue X a)) := by
  refine State.command_of_ok h.ready.2 h.faultOf_eq_none ?_
  rw [State.readElem_of_holds (Config.limbBits_le h.ready.wf X) h.holds, ok_bind,
    need_of (decide_eq_true hlt), ok_bind]
  rfl

/-- TO_PACKED is refused from `4p` on (R260, U20). -/
theorem exec_refused (h : ToPackedOperands s X bytes elem len a)
    (hle : 4 * s.cfg.modulus X ≤ a) :
    exec (.toPacked X bytes elem len) s = .refused .unpackBound := by
  refine State.command_of_error h.ready.2 h.faultOf_eq_none ?_
  rw [State.readElem_of_holds (Config.limbBits_le h.ready.wf X) h.holds, ok_bind,
    need_of_not (decide_eq_false hle.not_gt), error_bind]

end ToPackedOperands

end ToPacked

section RoundTrip

variable {s : State} {X : Ctx} {e e' b b' len : Word} {v : Nat}

/-- R262: the packed bytes are read back into the canonical element. -/
theorem ToPackedOperands.execAll_fromPacked (h : ToPackedOperands s X b' e len v)
    (hlt : v < 4 * s.cfg.modulus X) (he : s.cfg.Writable e'.toNat (s.cfg.elemBytes X)) :
    ∃ t, execAll [.toPacked X b' e len, .fromPacked X e' b' len] s = .next t ∧
      t.HoldsElem X e'.toNat (v % s.cfg.modulus X) := by
  have hwf := h.ready.wf
  have hto := h.exec_eq hlt
  have ops : FromPackedOperands
      (s.memWrite b'.toNat (s.cfg.packedBytes X) (s.cfg.unpackValue X v)) X e' b' len
      (s.cfg.unpackValue X v) := {
    ready := ⟨(exec_keeps_inv h.ready.1 hto).1, h.ready.2⟩
    len_eq := h.len_eq
    elem_ok := he
    bytes_le := h.bytes_le
    holds := s.holds_memWrite _ (Config.unpackValue_lt_packed hwf v) }
  have hfrom := ops.exec_eq (Config.unpackValue_lt hwf v)
  rw [State.memWrite_cfg, Config.mont_unpackValue hwf] at hfrom
  exact ⟨_, (execAll_cons hto).trans (execAll_cons hfrom),
    State.holds_writeElem (s := s.memWrite _ _ _) _ (Config.residue_lt_radix hwf v)⟩

/-- R262: the element is packed back into the bytes it came from. -/
theorem FromPackedOperands.execAll_toPacked (h : FromPackedOperands s X e' b len v)
    (hlt : v < s.cfg.modulus X) (hlow : s.cfg.tableEnd ≤ b'.toNat)
    (hle : b'.toNat + s.cfg.packedBytes X ≤ s.cfg.arenaBytes) :
    ∃ t, execAll [.fromPacked X e' b len, .toPacked X b' e' len] s = .next t ∧
      t.HoldsBytes b'.toNat (s.cfg.packedBytes X) v := by
  have hwf := h.ready.wf
  have hmont := Config.mont_lt hwf X v
  have hfrom := h.exec_eq hlt
  have ops : ToPackedOperands (s.writeElem X e'.toNat (s.cfg.mont X v)) X b' e' len
      (s.cfg.mont X v) := {
    ready := ⟨(exec_keeps_inv h.ready.1 hfrom).1, h.ready.2⟩
    len_eq := h.len_eq
    elem_ok := ⟨h.elem_ok.1, h.elem_ok.2.1⟩
    bytes_low := hlow
    bytes_le := hle
    holds := State.holds_writeElem _ (hmont.trans (Config.modulus_lt_radix hwf X)) }
  have hto := ops.exec_eq (hmont.trans_le (Nat.le_mul_of_pos_left _ (by omega)))
  rw [State.writeElem_cfg, Config.unpackValue_mont hwf hlt] at hto
  exact ⟨_, (execAll_cons hfrom).trans (execAll_cons hto), State.holds_memWrite _ _ h.holds.1⟩

end RoundTrip

end Machine

open Machine

/-- Settles O41: check 2 on the length first, then the two sides of the bound. -/
theorem fromPackedResult : Obligations.FromPackedResult := by
  intro s X elem bytes len hs
  refine ⟨fun hlen => ?_, fun v hlen helem hbytes hv => ?_⟩
  · exact exec_of_operand_fault hs (faultOf_fromPacked_badLength hlen)
  · have ops : FromPackedOperands s X elem bytes len v := ⟨hs, hlen, helem, hbytes, hv⟩
    exact ⟨fun hlt => ⟨_, ops.exec_eq hlt, s.writeElem_frame X _ _,
      congrFun (s.byteAt_writeElem X _ _)⟩, ops.exec_refused⟩

/-- Settles O42: check 2 on the length first, then the two sides of the bound. -/
theorem toPackedResult : Obligations.ToPackedResult := by
  intro s X bytes elem len hs
  refine ⟨fun hlen => ?_, fun a hlen helem hlow hbytes ha => ?_⟩
  · exact exec_of_operand_fault hs (faultOf_toPacked_badLength hlen)
  · have ops : ToPackedOperands s X bytes elem len a := ⟨hs, hlen, helem, hlow, hbytes, ha⟩
    exact ⟨fun hlt => ⟨_, _, ops.exec_eq hlt, s.memWrite_frame _ _ _,
      Config.unpackValue_lt hs.wf a, Config.mont_unpackValue hs.wf a,
      Config.unpackValue_lt_packed hs.wf a, congrFun (s.byteAt_memWrite _ _ _)⟩,
      ops.exec_refused⟩

/-- Settles O57: the first command of each pair leaves an operand of the second, and the two values
are inverse to each other. -/
theorem codecsRoundTrip : Obligations.CodecsRoundTrip := by
  intro s X e e' b b' len v hs hlen he he' hb hb' hlow
  refine ⟨fun hv hlt => ?_, fun hv hlt => ?_⟩
  · have ops : ToPackedOperands s X b' e len v := ⟨hs, hlen, he, hlow, hb', hv⟩
    exact ops.execAll_fromPacked hlt he'
  · have ops : FromPackedOperands s X e' b len v := ⟨hs, hlen, he', hb, hv⟩
    exact ops.execAll_toPacked hlt hlow hb'

end Sys2Proof
end

section
/-! Taking a fault (60_exceptions.md R287) and the order of the checks that raise it (R289). -/

namespace Sys2Proof.Machine

variable {s t : State} {i : Instr} {d : Descriptor} {code : FaultCode} {info : Nat}

/-- A machine that is not faulted takes the first fault of a command's checks. -/
theorem exec_of_faultOf (hf : s.faulted = false) (h : faultOf s i = some (code, info)) :
    exec i s = .next (s.raise code info) := by
  obtain ⟨body, hexec⟩ := exec_is_command i s
  rw [hexec]
  exact State.command_of_fault hf h

theorem issue_of_faultOf (hf : s.faulted = false) (hd : decode d = .ok i)
    (h : faultOf s i = some (code, info)) : issue d s = .next (s.raise code info) :=
  (issue_of_decode hd s).trans (exec_of_faultOf hf h)

/-- A fault whose `info` is a descriptor word records the word (R288). -/
theorem State.raise_word (s : State) (code : FaultCode) (w : Word) :
    s.raise code w.toNat = { s with faulted := true, err := errCode code, faultInfo := w } := by
  rw [State.raise, BitVec.ofNat_toNat, BitVec.setWidth_eq]

/-- R287: while faulted a descriptor is not even decoded. -/
theorem issue_of_faulted (hf : s.faulted = true) (d : Descriptor) : issue d s = .next s :=
  if_pos hf

/-- R287, R291: no host action but reset changes the fault registers of a faulted machine. -/
theorem perform_of_faulted {a : HostAction} (hf : s.faulted = true) (ha : a ≠ .reset)
    (h : perform a s = .next t) :
    t.faulted = s.faulted ∧ t.err = s.err ∧ t.faultInfo = s.faultInfo := by
  cases a with
  | issue d =>
    cases (issue_of_faulted hf d).symm.trans h
    exact ⟨rfl, rfl, rfl⟩
  | reset => exact absurd rfl ha
  | readReg number => cases h; exact ⟨rfl, rfl, rfl⟩
  | readMem offset count => cases h; exact ⟨rfl, rfl, rfl⟩
  | writeMem offset bytes =>
    cases h
    rw [(s.hostWriteMem_edits offset bytes).frame]
    exact ⟨rfl, rfl, rfl⟩

/-- A command that ends faulted, begun where the machine was not, took a fault of its checks. -/
theorem faultOf_of_exec_faulted (hf : s.faulted = false) (h : exec i s = .next t)
    (ht : t.faulted = true) : ∃ f, faultOf s i = some f ∧ t = s.raise f.1 f.2 := by
  rcases exec_next h with ⟨hf', -⟩ | ⟨-, hfault⟩ | ⟨-, -, hc⟩
  · rw [hf] at hf'
    cases hf'
  · exact hfault
  · obtain ⟨-, -, -, hkept, -⟩ := hc.kept
    rw [hkept, hf] at ht
    cases ht

/-- The checks look at the parameter record and the allocator alone (R286, R319). -/
theorem faultOf_congr (hcfg : t.cfg = s.cfg) (hbase : t.base = s.base)
    (hoffset : t.offset = s.offset) (i : Instr) : faultOf t i = faultOf s i := by
  unfold faultOf allocFault
  rw [hcfg, hbase, hoffset]

section Checks

variable {c : Config} {o : Operand} {ops pre post : List Operand}

theorem Operand.misaligned_iff : o.misaligned = true ↔ o.aligned = true ∧ o.ptr % 4 ≠ 0 := by
  simp [Operand.misaligned]

theorem Operand.misaligned_eq_false :
    o.misaligned = false ↔ (o.aligned = true → o.ptr % 4 = 0) := by
  simp [← Bool.not_eq_true, Operand.misaligned_iff]

theorem Operand.outOfRange_iff : o.outOfRange c = true ↔ c.arenaBytes < o.ptr + o.size :=
  decide_eq_true_iff

theorem Operand.outOfRange_eq_false :
    o.outOfRange c = false ↔ o.ptr + o.size ≤ c.arenaBytes := by
  simp [← Bool.not_eq_true, Operand.outOfRange_iff]

theorem Operand.writeProtected_iff :
    o.writeProtected c = true ↔ o.written = true ∧ 0 < o.size ∧ o.ptr < c.tableEnd := by
  simp [Operand.writeProtected, and_assoc]

theorem Operand.writeProtected_eq_false :
    o.writeProtected c = false ↔ (o.written = true → 0 < o.size → c.tableEnd ≤ o.ptr) := by
  simp [← Bool.not_eq_true, Operand.writeProtected_iff]

theorem find?_eq_none_of {f : Operand → Bool} (h : ∀ x ∈ ops, f x = false) :
    ops.find? f = none :=
  List.find?_eq_none.2 fun x hx => Bool.not_eq_true _ ▸ h x hx

/-- The operand that fails a check first. -/
theorem find?_of_first {f : Operand → Bool} (hpre : ∀ x ∈ pre, f x = false) (ho : f o = true) :
    (pre ++ o :: post).find? f = some o :=
  List.find?_eq_some_iff_append.2 ⟨ho, pre, post, rfl, fun x hx => by rw [hpre x hx]; rfl⟩

theorem operandFault_misaligned (hpre : ∀ x ∈ pre, x.misaligned = false)
    (ho : o.misaligned = true) :
    operandFault c (pre ++ o :: post) = some (.misaligned, o.ptr) := by
  unfold operandFault
  rw [find?_of_first hpre ho]

theorem operandFault_outOfRange (hal : ∀ x ∈ pre ++ o :: post, x.misaligned = false)
    (hpre : ∀ x ∈ pre, x.outOfRange c = false) (ho : o.outOfRange c = true) :
    operandFault c (pre ++ o :: post) = some (.outOfRange, o.ptr) := by
  unfold operandFault
  rw [find?_eq_none_of hal, find?_of_first hpre ho]

theorem operandFault_writeProtect (hal : ∀ x ∈ pre ++ o :: post, x.misaligned = false)
    (hin : ∀ x ∈ pre ++ o :: post, x.outOfRange c = false)
    (hpre : ∀ x ∈ pre, x.writeProtected c = false) (ho : o.writeProtected c = true) :
    operandFault c (pre ++ o :: post) = some (.writeProtect, o.ptr) := by
  unfold operandFault
  rw [find?_eq_none_of hal, find?_eq_none_of hin, find?_of_first hpre ho]

/-- Check 2 passes unless the command is a codec of another length than `PB`. -/
theorem lengthFault_eq_none (h : ∀ (X : Ctx) (a b len : Word),
    (i = .fromPacked X a b len ∨ i = .toPacked X a b len) → len.toNat = c.packedBytes X) :
    lengthFault c i = none := by
  unfold lengthFault
  split
  · exact if_pos (h _ _ _ _ (.inl rfl))
  · exact if_pos (h _ _ _ _ (.inr rfl))
  · rfl

/-- The operands are checked where check 2 has passed. -/
theorem faultOf_of_operandFault {f : FaultCode × Nat} (hl : lengthFault s.cfg i = none)
    (h : operandFault s.cfg (operandsOf s.cfg i) = some f) : faultOf s i = some f := by
  unfold faultOf
  rw [hl, h]

end Checks

end Sys2Proof.Machine

namespace Sys2Proof

open Machine

/-- Settles O6: the two ways in which a step performs no action. -/
theorem idleHoldsState : Obligations.IdleHoldsState := by
  refine ⟨fun s => step_of_idle, fun s hwf => ?_⟩
  unfold step
  rw [if_neg (Bool.not_eq_true _ ▸ hwf)]

/-- Settles O7, one clause a lemma: a fault is taken, commands and descriptors are then ignored, the
host's other actions keep the three registers, and reset clears them. -/
theorem faultEntryAndStickiness : Obligations.FaultEntryAndStickiness := by
  refine ⟨fun s i code info => exec_of_faultOf, fun s i hf => exec_of_faulted hf i,
    fun s d hf => issue_of_faulted hf d, fun s t a hf ha h => ?_, fun s t h => ?_⟩
  · obtain ⟨hfaulted, herr, hinfo⟩ := perform_of_faulted hf ha h
    exact ⟨hfaulted.trans hf, herr, hinfo⟩
  · cases h
    exact ⟨rfl, rfl, rfl⟩

/-- Settles O8: check 1 is the decoder's, check 2 the codecs' length; of checks 3 to 5 each looks
for its first operand where the ones before found none; checks 6 and 7 are the allocator's. -/
theorem checksInOrder : Obligations.ChecksInOrder := by
  intro s d hf
  refine ⟨fun hd => ?_, fun i hd => ⟨?_, fun hlen => ?_, ?_, ?_, ?_⟩⟩
  · rw [issue_of_illegal hf hd, State.raise_word]
    rfl
  · intro X a b len hi hlen
    have hfault : faultOf s i = some (.badLength, len.toNat) := by
      rcases hi with rfl | rfl
      · exact faultOf_fromPacked_badLength hlen
      · exact faultOf_toPacked_badLength hlen
    rw [issue_of_faultOf hf hd hfault, State.raise_word]
    rfl
  · have hl : lengthFault s.cfg i = none := lengthFault_eq_none hlen
    have issue_of_operandFault {code : FaultCode} {o : Operand}
        (h : operandFault s.cfg (operandsOf s.cfg i) = some (code, o.ptr)) :
        issue d s = .next (s.raise code o.ptr) :=
      issue_of_faultOf hf hd (faultOf_of_operandFault hl h)
    refine ⟨fun pre o post hops hpre hal hptr => ?_,
      fun hal => ⟨fun pre o post hops hpre ho => ?_,
        fun hin pre o post hops hpre hw hsz hptr => ?_⟩⟩
    · refine issue_of_operandFault (hops ▸ operandFault_misaligned ?_ ?_)
      · exact fun x hx => Operand.misaligned_eq_false.2 (hpre x hx)
      · exact Operand.misaligned_iff.2 ⟨hal, hptr⟩
    · refine issue_of_operandFault (hops ▸ operandFault_outOfRange ?_ ?_ ?_)
      · exact fun x hx => Operand.misaligned_eq_false.2 (hal x (hops ▸ hx))
      · exact fun x hx => Operand.outOfRange_eq_false.2 (hpre x hx)
      · exact Operand.outOfRange_iff.2 ho
    · refine issue_of_operandFault (hops ▸ operandFault_writeProtect ?_ ?_ ?_ ?_)
      · exact fun x hx => Operand.misaligned_eq_false.2 (hal x (hops ▸ hx))
      · exact fun x hx => Operand.outOfRange_eq_false.2 (hin x (hops ▸ hx))
      · exact fun x hx => Operand.writeProtected_eq_false.2 (hpre x hx)
      · exact Operand.writeProtected_iff.2 ⟨hw, hsz, hptr⟩
  · rintro X k rfl hord
    exact issue_of_faultOf hf hd (faultOf_allocStable_order hord)
  · rintro X k rfl hord hfull
    rw [issue_of_faultOf hf hd ((faultOf_allocStable_room hord).trans (if_pos hfull)),
      State.raise_word]
    rfl
  · rintro X k rfl hfull
    rw [issue_of_faultOf hf hd (faultOf_allocScratch_room.trans (if_pos hfull)), State.raise_word]
    rfl

/-- Settles O9: the fault is one of the checks', which do not look at the arena. -/
theorem faultsIgnoreTheArena : Obligations.FaultsIgnoreTheArena := by
  intro s t i m hf h ht
  obtain ⟨⟨code, info⟩, hfault, rfl⟩ := faultOf_of_exec_faulted hf h ht
  have hfault' : faultOf { s with mem := m } i = some (code, info) :=
    (faultOf_congr rfl rfl rfl i).trans hfault
  exact ⟨rfl, exec_of_faultOf hf hfault'⟩

end Sys2Proof
end

section
/-! What reset leaves (70_reset_and_hazards.md R310, R312). -/

namespace Sys2Proof

open Machine

/-- Settles O10: the registers are read off the reset state; its arena lists no byte, so an offset
reads as the constant tables below `CT_END` and has no value above. -/
theorem resetState : Obligations.ResetState := by
  intro s rest hwf hp
  refine ⟨State.hostReset { s with pending := rest }, step_of_pending hwf hp, rfl, rfl, rfl, rfl,
    rfl, rfl, rfl, rfl, rfl, fun X e he => ?_, fun a ha => Memory.resetByte_none ha⟩
  exact State.holds_entry (s := State.hostReset { s with pending := rest }) hwf rfl he
    (Config.tableEntry_lt_radix hwf X e)

end Sys2Proof
end

section
/-! No command reads OK, CB or RES (70_reset_and_hazards.md R319): the two runs of a command, from a
state and from the same state with other flags, go through the same reads and tests. -/

namespace Sys2Proof.Machine

/-- The state with other values in OK, CB and RES. -/
def State.withFlags (s : State) (ok cb : Bool) (res : Word) : State :=
  { s with ok := ok, cb := cb, res := res }

/-- What a run of `i` that ended in `t` would have ended in from the given flags: those it does not
write (R25 to R27) keep the given values. -/
def State.reflag (i : Instr) (ok cb : Bool) (res : Word) (t : State) : State :=
  t.withFlags (if writesOk i then t.ok else ok) (if writesCb i then t.cb else cb)
    (if writesRes i then t.res else res)

section Frame

variable (s : State) (ok cb : Bool) (res : Word)

theorem State.withFlags_cfg : (s.withFlags ok cb res).cfg = s.cfg := rfl

theorem faultOf_withFlags (i : Instr) : faultOf (s.withFlags ok cb res) i = faultOf s i :=
  faultOf_congr rfl rfl rfl i

theorem State.memRead_withFlags (a k : Nat) :
    (s.withFlags ok cb res).memRead a k = s.memRead a k := by
  induction k generalizing a with
  | zero => rfl
  | succ k ih =>
    have hbyte : (s.withFlags ok cb res).byteAt a = s.byteAt a := rfl
    rw [State.memRead, State.memRead, ih, hbyte]

theorem State.readPacked_withFlags (a k : Nat) :
    (s.withFlags ok cb res).readPacked a k = s.readPacked a k := by
  rw [State.readPacked, State.readPacked, State.memRead_withFlags]

theorem State.readSlots_withFlags (w n a : Nat) :
    (s.withFlags ok cb res).readSlots w n a = s.readSlots w n a := by
  induction n generalizing a with
  | zero => rfl
  | succ n ih =>
    rw [State.readSlots, State.readSlots, ih, State.readSlot, State.readSlot,
      State.memRead_withFlags]

theorem State.readLimbs_withFlags (X : Ctx) (a : Nat) :
    (s.withFlags ok cb res).readLimbs X a = s.readLimbs X a :=
  s.readSlots_withFlags ok cb res _ _ a

theorem State.readElem_withFlags (X : Ctx) (a : Nat) :
    (s.withFlags ok cb res).readElem X a = s.readElem X a := by
  rw [State.readElem, State.readElem, State.readLimbs_withFlags, State.withFlags_cfg]

theorem State.readArray_withFlags (X : Ctx) (m a : Nat) :
    (s.withFlags ok cb res).readArray X m a = s.readArray X m a := by
  induction m generalizing a with
  | zero => rfl
  | succ m ih =>
    rw [State.readArray, State.readArray, State.readElem_withFlags, State.withFlags_cfg, ih]

theorem State.writeElem_withFlags (X : Ctx) (a v : Nat) :
    (s.withFlags ok cb res).writeElem X a v = (s.writeElem X a v).withFlags ok cb res := rfl

theorem State.writeArray_withFlags (X : Ctx) (a : Nat) (vs : List Nat) :
    (s.withFlags ok cb res).writeArray X a vs = (s.writeArray X a vs).withFlags ok cb res := by
  induction vs generalizing s a with
  | nil => rfl
  | cons v vs ih => exact ih (s.writeElem X a v) _

theorem State.forgetOverlap_withFlags (a b k : Nat) :
    (s.withFlags ok cb res).forgetOverlap a b k = (s.forgetOverlap a b k).withFlags ok cb res := by
  unfold State.forgetOverlap
  rw [apply_ite (State.withFlags · ok cb res)]
  rfl

/-- The outputs of a decomposer command do not depend on the flags, and OK is written. -/
theorem State.writeSplit_withFlags (p q : Nat) (v : Int × Int) :
    (s.withFlags ok cb res).writeSplit p q v =
      (s.writeSplit p q v).withFlags (s.writeSplit p q v).ok cb res := by
  unfold State.writeSplit
  rw [State.writeElem_withFlags, State.writeElem_withFlags, State.forgetOverlap_withFlags]
  rfl

end Frame

/-- The rule of `i` on other flags, `body'`, ends as `body` does, but for the flags `i` does not
write. -/
def FlagBlind (i : Instr) (ok cb : Bool) (res : Word) (body body' : Except Refusal State) : Prop :=
  body' = body.map (State.reflag i ok cb res)

namespace FlagBlind

variable {s : State} {i : Instr} {ok cb : Bool} {res : Word}

/-- Both runs complete. -/
theorem done {t t' : State} (h : t' = t.reflag i ok cb res) :
    FlagBlind i ok cb res (.ok t) (.ok t') := congrArg Except.ok h

/-- A read or a test that both runs make alike. -/
theorem bind {α : Type} {x x' : Except Refusal α} {f f' : α → Except Refusal State} (hx : x' = x)
    (hf : ∀ a, FlagBlind i ok cb res (f a) (f' a)) :
    FlagBlind i ok cb res (x >>= f) (x' >>= f') := by
  subst hx
  cases x' with
  | error r => rfl
  | ok a => exact hf a

/-- A precondition, whose operands and bounds are the same numbers in both runs. -/
theorem test {α : Type} {x : Except Refusal α} {f f' : α → Except Refusal State}
    (hf : ∀ a, FlagBlind i ok cb res (f a) (f' a)) :
    FlagBlind i ok cb res (x >>= f) (x >>= f') := bind rfl hf

theorem limbs {X : Ctx} {a : Nat} {f f' : List Nat → Except Refusal State}
    (hf : ∀ xs, FlagBlind i ok cb res (f xs) (f' xs)) :
    FlagBlind i ok cb res (s.readLimbs X a >>= f) ((s.withFlags ok cb res).readLimbs X a >>= f') :=
  bind (s.readLimbs_withFlags ok cb res X a) hf

theorem elem {X : Ctx} {a : Nat} {f f' : Nat → Except Refusal State}
    (hf : ∀ v, FlagBlind i ok cb res (f v) (f' v)) :
    FlagBlind i ok cb res (s.readElem X a >>= f) ((s.withFlags ok cb res).readElem X a >>= f') :=
  bind (s.readElem_withFlags ok cb res X a) hf

theorem array {X : Ctx} {m a : Nat} {f f' : List Nat → Except Refusal State}
    (hf : ∀ vs, FlagBlind i ok cb res (f vs) (f' vs)) :
    FlagBlind i ok cb res (s.readArray X m a >>= f)
      ((s.withFlags ok cb res).readArray X m a >>= f') :=
  bind (s.readArray_withFlags ok cb res X m a) hf

theorem packed {a k : Nat} {f f' : Nat → Except Refusal State}
    (hf : ∀ v, FlagBlind i ok cb res (f v) (f' v)) :
    FlagBlind i ok cb res (s.readPacked a k >>= f)
      ((s.withFlags ok cb res).readPacked a k >>= f') :=
  bind (s.readPacked_withFlags ok cb res a k) hf

end FlagBlind

open FlagBlind in
/-- The rule of every command, read once on both states. -/
theorem rule_flagBlind (s : State) (ok cb : Bool) (res : Word) : ∀ i : Instr,
    ∃ body body', exec i s = s.command i body ∧
      exec i (s.withFlags ok cb res) = (s.withFlags ok cb res).command i body' ∧
      FlagBlind i ok cb res body body'
  | .iszero _ _ => ⟨_, _, rfl, rfl, limbs fun _ => done rfl⟩
  | .isequal _ _ _ => ⟨_, _, rfl, rfl, limbs fun _ => limbs fun _ => done rfl⟩
  | .isgreater _ _ _ => ⟨_, _, rfl, rfl, limbs fun _ => limbs fun _ => done rfl⟩
  | .add _ _ _ _ => ⟨_, _, rfl, rfl, limbs fun _ => limbs fun _ => done rfl⟩
  | .sub _ _ _ _ => ⟨_, _, rfl, rfl, limbs fun _ => limbs fun _ => done rfl⟩
  | .subpos _ _ _ _ => ⟨_, _, rfl, rfl, elem fun _ => elem fun _ => test fun _ => done rfl⟩
  | .reduce _ _ => ⟨_, _, rfl, rfl, limbs fun _ => test fun _ => limbs fun _ => done rfl⟩
  | .copy _ _ _ => ⟨_, _, rfl, rfl, limbs fun _ => done rfl⟩
  | .mul _ _ _ _ => ⟨_, _, rfl, rfl, elem fun _ => elem fun _ => test fun _ => done rfl⟩
  | .sqr _ _ _ => ⟨_, _, rfl, rfl, elem fun _ => test fun _ => done rfl⟩
  | .lshift _ _ _ _ => ⟨_, _, rfl, rfl, elem fun _ => test fun _ => done rfl⟩
  | .inv _ _ _ => ⟨_, _, rfl, rfl, elem fun _ => test fun _ => done rfl⟩
  | .makeodd _ _ => ⟨_, _, rfl, rfl, elem fun _ => test fun _ => done rfl⟩
  | .batchinv _ _ _ _ => ⟨_, _, rfl, rfl, test fun _ => array fun _ => test fun _ =>
      done (State.writeArray_withFlags _ _ _ _ _ _ _)⟩
  | .sqrt _ _ _ _ => ⟨_, _, rfl, rfl, elem fun _ => test fun _ => elem fun _ => by
      rw [State.withFlags_cfg]
      split
      · exact done rfl
      · exact done rfl⟩
  | .decompose _ _ _ => ⟨_, _, rfl, rfl, elem fun _ => test fun _ =>
      done (State.writeSplit_withFlags _ _ _ _ _ _ _)⟩
  | .decomposeNomsb _ _ _ => ⟨_, _, rfl, rfl, elem fun _ => test fun _ =>
      done (State.writeSplit_withFlags _ _ _ _ _ _ _)⟩
  | .decomposeGen _ _ _ _ => ⟨_, _, rfl, rfl, elem fun _ => elem fun _ => test fun _ =>
      test fun _ => done (State.writeSplit_withFlags _ _ _ _ _ _ _)⟩
  | .addaffine _ _ _ _ _ => ⟨_, _, rfl, rfl, test fun _ => elem fun _ => elem fun _ =>
      elem fun _ => elem fun _ => elem fun _ => test fun _ => done rfl⟩
  | .endo _ _ => ⟨_, _, rfl, rfl, elem fun _ => elem fun _ => test fun _ => elem fun _ => done rfl⟩
  | .allocStable _ _ => ⟨.ok _, .ok _, rfl, rfl, done rfl⟩
  | .allocScratch _ _ => ⟨.ok _, .ok _, rfl, rfl, done rfl⟩
  | .resetScratch => ⟨.ok _, .ok _, rfl, rfl, done rfl⟩
  | .fromPacked _ _ _ _ => ⟨_, _, rfl, rfl, packed fun _ => test fun _ => done rfl⟩
  | .toPacked _ _ _ _ => ⟨_, _, rfl, rfl, elem fun _ => test fun _ => done rfl⟩

end Sys2Proof.Machine

namespace Sys2Proof

open Machine

/-- Settles O17: with other flags a command is ignored, faults, is refused or completes as it did,
as its checks do not look at them and its rule is blind to them. -/
theorem resultsIgnoreTheFlags : Obligations.ResultsIgnoreTheFlags := by
  intro s i ok cb res
  obtain ⟨body, body', hexec, hexec', hblind⟩ := rule_flagBlind s ok cb res i
  have hcheck := faultOf_withFlags s ok cb res i
  refine ⟨fun t h => ?_, fun r h => ?_⟩
  · rcases State.command_next (hexec.symm.trans h) with ⟨hf, rfl⟩ | ⟨hf, f, hfi, rfl⟩ | ⟨hf, hn, hb⟩
    · exact ⟨_, exec_of_faulted (s := t.withFlags ok cb res) hf i, rfl, by simp [hf], by simp [hf],
        by simp [hf], fun _ => ⟨rfl, rfl, rfl⟩⟩
    · exact ⟨_, exec_of_faultOf (s := s.withFlags ok cb res) hf (hcheck.trans hfi), rfl, nofun,
        nofun, nofun, fun _ => ⟨rfl, rfl, rfl⟩⟩
    · have hb' : body' = .ok (t.reflag i ok cb res) := by
        rw [FlagBlind, hb] at hblind
        exact hblind
      refine ⟨_, hexec'.trans (State.command_of_ok hf (hcheck.trans hn) hb'), rfl,
        fun _ hw => if_pos hw, fun _ hw => if_pos hw, fun _ hw => if_pos ?_, fun ht => ?_⟩
      · rcases hw with ⟨X, x, rfl⟩ | ⟨X, k, rfl⟩ | ⟨X, k, rfl⟩ <;> rfl
      · obtain ⟨f, hfi, -⟩ := faultOf_of_exec_faulted hf h ht
        rw [hn] at hfi
        cases hfi
  · obtain ⟨hf, hn, hb⟩ := State.command_refused (hexec.symm.trans h)
    have hb' : body' = .error r := by
      rw [FlagBlind, hb] at hblind
      exact hblind
    exact hexec'.trans (State.command_of_error hf (hcheck.trans hn) hb')

end Sys2Proof
end
